-- ==== Sys2Proof/Word.lean ====
section
/-! DEFINITION. The widths of the HTB's values (spec/00_scope.md R7, R9: every field is unsigned, bit 0 is the least
significant). -/

namespace Sys2Proof

/-- A 32-bit word: command words, register reads, weights and counts (R9; WEIGHT_BITS = 32, R7). -/
abbrev Word := BitVec 32

/-- A 7-bit symbol (SYM_BITS, R7). -/
abbrev Sym := BitVec 7

/-- An 8-bit slot index of the node arena, NIL included (R41). -/
abbrev Slot := BitVec 8

/-- A 128-bit code path, the branch bit of depth d in bit d (PATH_BITS, R7; R152). -/
abbrev Path := BitVec 128

/-- A 16-bit byte offset into the host aperture (R60). -/
abbrev Offset := BitVec 16

end Sys2Proof
end

