-- ==== Sys2Proof/Machine/Records.lean ====
section
/-! DEFINITION. The records the HTB's state is made of: a node of the arena (spec/10_state.md R41), an entry of the
code ROM (R45), the error codes (spec/60_exceptions.md R201), and the transactions of the one slave port
(spec/20_memory.md R85). -/

namespace Sys2Proof.Machine

/-- One slot of the node arena (R41, R43). -/
structure Node where
  /-- 1 for a leaf, 0 for an internal node. -/
  leaf : Bool
  /-- The leaf's symbol; 0 in an internal node. -/
  sym : Sym
  /-- The leaf's occurrence count, or the sum of the children's weights. -/
  weight : Word
  /-- The left child's slot; NIL in a leaf. -/
  left : Slot
  /-- The right child's slot; NIL in a leaf. -/
  right : Slot
  /-- Whether a merge has used the node as a child (R43). -/
  consumed : Bool
deriving DecidableEq, Repr, Inhabited

/-- One entry of the code ROM (R45). -/
structure CodeEntry where
  /-- Whether the current tree has a leaf for the symbol; the only mark of absence (R153). -/
  present : Bool
  /-- The leaf's depth. -/
  len : BitVec 8
  /-- The branch bit of depth d in bit d, 0 from len on (R152). -/
  path : Path
deriving DecidableEq, Repr, Inhabited

/-- The error codes 0..10 of R201. Codes 11..15 are reserved and never produced, so they have no name. -/
inductive ErrCode where
  | none
  | invalidInput
  | notEncodable
  | symbolRange
  | symbolAbsent
  | noTree
  | noCodes
  | textFull
  | bitsFull
  | bitsUnderrun
  | illegalCmd
deriving DecidableEq, Repr

/-- The response of the slave port (R85). -/
inductive Resp where
  | okay
  | error
deriving DecidableEq, Repr

/-- What the port answered to one host access: a read answers data and a response, a write a response (R85). -/
inductive Reply where
  | readData (data : Word) (resp : Resp)
  | writeResp (resp : Resp)
deriving DecidableEq, Repr

/-- One event of the machine's total order of host accesses and engine steps (R79), or a reset (R16, R240).
`size` is an access's width in bytes; `strobes` has one bit per byte of the 32-bit port (R62, R85). -/
inductive Event where
  | hostRead (addr : Offset) (size : Nat)
  | hostWrite (addr : Offset) (size : Nat) (strobes : BitVec 4) (data : Word)
  /-- The place in the order at which the engine, if BUSY = 1, takes its step. -/
  | engineTurn
  | reset
deriving DecidableEq, Repr

end Sys2Proof.Machine
end

