-- ==== Sys2Proof/Config.lean ====
section
/-! DEFINITION. What is fixed for this hardware (spec/00_scope.md R7), and the values the spec leaves free: constants
with no body, so that no proof can see what they are. -/

namespace Sys2Proof.Config

/-- NSYM: the symbols are 0..127 (R7). -/
abbrev nsym : Nat := 128

/-- NODE_CAP = 2·NSYM − 1 (R7). -/
abbrev nodeCap : Nat := 255

/-- NIL, the child index stored in a leaf (R7). -/
abbrev nil : Slot := 0xFF#8

/-- TEXT_CAP, in symbols (R7). -/
abbrev textCap : Nat := 4096

/-- BIT_CAP = 8·TEXT_CAP, in bits (R7). -/
abbrev bitCap : Nat := 32768

/-- The ID register: ASCII "HUFF" (R23). -/
abbrev idValue : Word := 0x48554646#32

/-- HTB_BASE, where the platform places the aperture: an OPEN parameter (R7, R60; DESIGN CHOICE, log 10). Safe: nothing in
Lean can know its value. -/
opaque htbBase : Nat

/-- The data of the n-th read whose value the spec leaves unspecified (R72: a draw; log 5). Safe: a claim about a run holds
whatever these values are. -/
opaque busyRead : Nat → Word

/-- What storage beyond the current tree holds in a slot (R50: "its content after reset is not specified"; R22, R74). No
reachable state reads it (R44, R48). DESIGN CHOICE, log 6; safe. The first argument is State's counter `draws`. -/
opaque staleNode : Nat → Slot → Machine.Node

end Sys2Proof.Config
end

