-- ==== Sys2Proof/Syntax.lean ====
section
/-! DEFINITION. The 13 commands of HTB-CMD version 1 (spec/30_encoding.md R93), one constructor a row of
spec/opcode_table.json, and the lines of a command script with its pseudo-commands (R99, R100). -/

namespace Sys2Proof

/-- A command. The operand of an S8 command is its 8-bit symbol value, any of 0..255; the operand of a B1 command is its
bit (R92): the types hold exactly the operands that decode. -/
inductive Instr where
  | nop
  | clear
  | clrtxt
  | clrbits
  | pushs (s : BitVec 8)
  | pushb (b : Bool)
  | build
  | gencode
  | lookup (s : BitVec 8)
  | encode
  | decode
  | walk (b : Bool)
  | wrst
deriving DecidableEq, Repr

/-- One line of a command script (R99, R100). Operands are literals as written: `WellFormed.lean` says which of them the
assembler accepts. -/
inductive ScriptLine where
  | nop
  | clear
  | clrtxt
  | clrbits
  | pushs (literal : Nat)
  | pushb (literal : Nat)
  | build
  | gencode
  | lookup (literal : Nat)
  | encode
  | decode
  | walk (literal : Nat)
  | wrst
  | pushstr (text : List Char)
  | pushbits (text : List Char)
  | loadtext (text : List Char)
  | loadbits (text : List Char)
  | roundtrip (text : List Char)
deriving DecidableEq, Repr

end Sys2Proof
end

