-- ==== Sys2Proof/WellFormed.lean ====
section
/-! DEFINITION. Which script lines the assembler accepts (spec/30_encoding.md R99, R100). An `Instr` needs no check: its
operand types hold exactly the operand values R92 lets decode. -/

namespace Sys2Proof

/-- "The assembler refuses an S8 literal above 255" (R99). -/
def s8LiteralOk (n : Nat) : Bool := n ≤ 255

/-- "… and a B1 operand other than 0 or 1" (R99). -/
def b1LiteralOk (n : Nat) : Bool := n ≤ 1

/-- `PUSHS c` for each character of a text (R100): each character's code must be an S8 literal. -/
def textOk (t : List Char) : Bool := t.all fun c => s8LiteralOk c.toNat

/-- PUSHBITS takes `0` and `1`; "any other character is refused" (R100). -/
def bitTextOk (t : List Char) : Bool := t.all fun c => c = '0' || c = '1'

/-- The check of one script line (R99, R100). -/
def ScriptLine.wellFormed : ScriptLine → Bool
  | .nop | .clear | .clrtxt | .clrbits | .build | .gencode | .encode | .decode | .wrst => true
  | .pushs n | .lookup n => s8LiteralOk n
  | .pushb n | .walk n => b1LiteralOk n
  | .pushstr t | .loadtext t | .roundtrip t => textOk t
  | .pushbits t | .loadbits t => bitTextOk t

end Sys2Proof
end

