-- ==== Sys2Proof/Decode.lean ====
section
/-! DEFINITION. The decoder of command words (spec/30_encoding.md R90-R98) and, after it, the encoder and the opcode map
of R93 as data. -/

namespace Sys2Proof

/-- Why a word is no command (R94, R95): the four `return Illegal` lines of R96. The machine reports each as ILLEGAL_CMD. -/
inductive DecodeError where
  /-- OP is 0x0D..0xFF (R94). -/
  | reservedOpcode
  /-- RSV ≠ 0 (R95). -/
  | reservedBits
  /-- The form is NONE and OPND ≠ 0 (R95). -/
  | operandNotZero
  /-- The form is B1 and OPND[7:1] ≠ 0 (R95). -/
  | operandNotBit
deriving DecidableEq, Repr

/-- OP, bits [31:24] (R91). -/
def opField (w : Word) : BitVec 8 := w.extractLsb' 24 8

/-- RSV, bits [23:8] (R91). -/
def rsvField (w : Word) : BitVec 16 := w.extractLsb' 8 16

/-- OPND, bits [7:0] (R91). -/
def opndField (w : Word) : BitVec 8 := w.extractLsb' 0 8

/-- Form NONE: OPND must be 0x00 (R92). -/
def formNone (i : Instr) (opnd : BitVec 8) : Except DecodeError Instr :=
  if opnd = 0 then .ok i else .error .operandNotZero

/-- Form S8: every value 0..255 decodes (R92). -/
def formS8 (f : BitVec 8 → Instr) (opnd : BitVec 8) : Except DecodeError Instr :=
  .ok (f opnd)

/-- Form B1: OPND[7:1] must be 0; the operand is OPND[0] (R92). -/
def formB1 (f : Bool → Instr) (opnd : BitVec 8) : Except DecodeError Instr :=
  if opnd.extractLsb' 1 7 = 0 then .ok (f (opnd.getLsbD 0)) else .error .operandNotBit

/-- The operand check of each opcode's form (R93). -/
def decodeOperand (op : Nat) (opnd : BitVec 8) : Except DecodeError Instr :=
  match op with
  | 0x00 => formNone .nop opnd
  | 0x01 => formNone .clear opnd
  | 0x02 => formNone .clrtxt opnd
  | 0x03 => formNone .clrbits opnd
  | 0x04 => formS8 .pushs opnd
  | 0x05 => formB1 .pushb opnd
  | 0x06 => formNone .build opnd
  | 0x07 => formNone .gencode opnd
  | 0x08 => formS8 .lookup opnd
  | 0x09 => formNone .encode opnd
  | 0x0A => formNone .decode opnd
  | 0x0B => formB1 .walk opnd
  | 0x0C => formNone .wrst opnd
  | _ => .error .reservedOpcode

/-- The decode procedure of R96: the opcode, then RSV, then the operand by its form. Total on every word (R97). -/
def decode (w : Word) : Except DecodeError Instr :=
  if 0x0C < (opField w).toNat then .error .reservedOpcode
  else if rsvField w ≠ 0 then .error .reservedBits
  else decodeOperand (opField w).toNat (opndField w)

/-- The instruction of an opcode-table word of `nbits` bits, all higher bits 0 (one 32-bit word, R90). -/
def decodeTableWord (nbits w : Nat) : Option Instr :=
  (decode (BitVec.ofNat 32 (w % 2 ^ nbits))).toOption

/-- The opcode of each command (R93). -/
def opcodeOf : Instr → BitVec 8
  | .nop => 0x00
  | .clear => 0x01
  | .clrtxt => 0x02
  | .clrbits => 0x03
  | .pushs _ => 0x04
  | .pushb _ => 0x05
  | .build => 0x06
  | .gencode => 0x07
  | .lookup _ => 0x08
  | .encode => 0x09
  | .decode => 0x0A
  | .walk _ => 0x0B
  | .wrst => 0x0C

/-- The OPND field of each command (R92): 0 for NONE, the symbol for S8, the bit for B1. -/
def operandOf : Instr → BitVec 8
  | .pushs s | .lookup s => s
  | .pushb b | .walk b => (BitVec.ofBool b).setWidth 8
  | .nop | .clear | .clrtxt | .clrbits | .build | .gencode | .encode | .decode | .wrst => 0

/-- The command word of a command: `OOOOOOOO 00000000 00000000 PPPPPPPP` (R91). -/
def encode (i : Instr) : Word := opcodeOf i ++ (0#16 ++ operandOf i)

/-- One row of the opcode map (R93): a word w selects it iff (w AND mask) = pattern. -/
structure OpcodeRow where
  mnemonic : String
  pattern : Word
  mask : Word
deriving DecidableEq, Repr

/-- Whether a word selects a row: (w AND mask) = match (R93). -/
def OpcodeRow.selects (r : OpcodeRow) (w : Word) : Bool := w &&& r.mask = r.pattern

/-- The row of each command, as R93 and spec/opcode_table.json write it. -/
def rowOf : Instr → OpcodeRow
  | .nop => ⟨"NOP", 0x00000000, 0xFFFFFFFF⟩
  | .clear => ⟨"CLEAR", 0x01000000, 0xFFFFFFFF⟩
  | .clrtxt => ⟨"CLRTXT", 0x02000000, 0xFFFFFFFF⟩
  | .clrbits => ⟨"CLRBITS", 0x03000000, 0xFFFFFFFF⟩
  | .pushs _ => ⟨"PUSHS", 0x04000000, 0xFFFFFF00⟩
  | .pushb _ => ⟨"PUSHB", 0x05000000, 0xFFFFFFFE⟩
  | .build => ⟨"BUILD", 0x06000000, 0xFFFFFFFF⟩
  | .gencode => ⟨"GENCODE", 0x07000000, 0xFFFFFFFF⟩
  | .lookup _ => ⟨"LOOKUP", 0x08000000, 0xFFFFFF00⟩
  | .encode => ⟨"ENCODE", 0x09000000, 0xFFFFFFFF⟩
  | .decode => ⟨"DECODE", 0x0A000000, 0xFFFFFFFF⟩
  | .walk _ => ⟨"WALK", 0x0B000000, 0xFFFFFFFE⟩
  | .wrst => ⟨"WRST", 0x0C000000, 0xFFFFFFFF⟩

/-- The opcode map of R93, in its order. -/
def opcodeMap : List OpcodeRow :=
  [.nop, .clear, .clrtxt, .clrbits, .pushs 0, .pushb false, .build, .gencode, .lookup 0, .encode, .decode,
    .walk false, .wrst].map rowOf

end Sys2Proof
end

