-- ==== Sys2Proof/Machine/State.lean ====
section
/-! DEFINITION. The whole state of the HTB (spec/10_state.md R22), its reset values (R50), and the reasons a step can
stop. TEXT, BITS, OUT and NODE are sequences of exactly the valid entries, as R22 allows; TEXT_LEN, BIT_LEN, OUT_LEN and
NODE_COUNT are their lengths (log 1). The last three fields are the model's own (log 2, 4, 5). -/

namespace Sys2Proof.Machine

/-- Why the machine can stop with a fault. -/
inductive Fault where
  /-- Raised by GENCODE alone, where R150's recursion never ends because the arena is not a tree: no reachable state (R44;
  log 7). Safe: the machine stops where the spec gives no outcome. -/
  | arenaNotATree
deriving DecidableEq, Repr

/-- Why the machine can refuse a command. -/
inductive Refusal where
  /-- An instruction without a meaning in the model. Safe. No arm of `exec` answers it: every command has its meaning. -/
  | notModelled (mnemonic : String)
deriving DecidableEq, Repr

/-- The architectural state (R22) and the model's agenda, port reply and draw counter. -/
structure State where
  /-- STATUS.BUSY (R25): a command is accepted and not yet complete. -/
  busy : Bool
  /-- STATUS.DONE (R26). -/
  done : Bool
  /-- STATUS.ERR (R27). -/
  err : Bool
  /-- STATUS.OVR (R28): a command was written while busy; sticky. -/
  ovr : Bool
  /-- STATUS.TREE_VALID (R29). -/
  treeValid : Bool
  /-- STATUS.CODES_VALID (R30). -/
  codesValid : Bool
  /-- STATUS.ERRCODE (R31), by name (log 16). -/
  errCode : ErrCode
  /-- ERR_INFO (R33). -/
  errInfo : Word
  /-- LAST_CMD (R24): the command word accepted last. -/
  lastCmd : Word
  /-- TEXT[0..TEXT_LEN−1], in order of arrival (R34). -/
  text : List Sym
  /-- FREQ (R35). -/
  freq : Vector Word 128
  /-- BITS[0..BIT_LEN−1], the first bit of the sequence first (R38). -/
  bits : List Bool
  /-- BIT_POS (R39). -/
  bitPos : BitVec 16
  /-- OUT[0..OUT_LEN−1] (R40). -/
  out : List Sym
  /-- NODE[0..NODE_COUNT−1] (R41, R42). -/
  nodes : List Node
  /-- ROOT (R42). -/
  root : Slot
  /-- CODE (R45). -/
  code : Vector CodeEntry 128
  /-- RES_LEN (R46). -/
  resLen : BitVec 8
  /-- RES_PATH (R46). -/
  resPath : Path
  /-- WALK_CUR (R47). -/
  walkCur : Slot
  /-- WALK_HIT (R47). -/
  walkHit : Bool
  /-- WALK_USED (R47). -/
  walkUsed : Bool
  /-- WALK_SYM (R47). -/
  walkSym : Sym
  /-- MODEL: the events still to come, the next one first: the rest of the total order of R79 (log 2). -/
  agenda : List Event
  /-- MODEL: what the port answered to the last host access (R85), none before the first (log 4). -/
  reply : Option Reply
  /-- MODEL: how many unspecified reads (R72) have been answered (log 5). -/
  draws : Nat
deriving DecidableEq, Repr

/-- The machine right after reset (R50, R240): every register 0, every buffer empty, no tree and no codes. -/
def State.reset : State where
  busy := false
  done := false
  err := false
  ovr := false
  treeValid := false
  codesValid := false
  errCode := .none
  errInfo := 0
  lastCmd := 0
  text := []
  freq := Vector.replicate 128 0
  bits := []
  bitPos := 0
  out := []
  nodes := []
  root := 0
  code := Vector.replicate 128 ⟨false, 0, 0⟩
  resLen := 0
  resPath := 0
  walkCur := 0
  walkHit := false
  walkUsed := false
  walkSym := 0
  agenda := []
  reply := none
  draws := 0

/-- What one step answers. -/
abbrev Result := Host.Outcome State Fault Refusal

end Sys2Proof.Machine
end

