-- ==== Sys2Proof/Machine/Flags.lean ====
section
/-! DEFINITION. The STATUS register: the only condition state of the HTB (spec/10_state.md R25-R32, R51). -/

namespace Sys2Proof.Machine

/-- The 4-bit code of each error (R201). -/
def ErrCode.code : ErrCode → BitVec 4
  | .none => 0
  | .invalidInput => 1
  | .notEncodable => 2
  | .symbolRange => 3
  | .symbolAbsent => 4
  | .noTree => 5
  | .noCodes => 6
  | .textFull => 7
  | .bitsFull => 8
  | .bitsUnderrun => 9
  | .illegalCmd => 10

/-- One flag as one bit. -/
def flagBit (b : Bool) : BitVec 1 := BitVec.ofBool b

/-- STATUS as the host reads it: [0] BUSY, [1] DONE, [2] ERR, [3] OVR, [4] TREE_VALID, [5] CODES_VALID, [7:6] 0,
[11:8] ERRCODE, [31:12] 0 (R63, R32). -/
def State.status (s : State) : Word :=
  0#20 ++ (s.errCode.code ++ (0#2 ++ (flagBit s.codesValid ++ (flagBit s.treeValid ++ (flagBit s.ovr ++
    (flagBit s.err ++ (flagBit s.done ++ flagBit s.busy)))))))

end Sys2Proof.Machine
end

