-- ==== Sys2Proof/Machine/Operands.lean ====
section
/-! DEFINITION. What a command does with its operand: the forms S8 and B1 (spec/30_encoding.md R92). Form NONE has no
operand, and no operand names a register or an address. -/

namespace Sys2Proof.Machine

/-- An S8 operand names a symbol of the table iff it is below NSYM (R92, R118). -/
def symbolInRange (s : BitVec 8) : Bool := s.toNat < Config.nsym

/-- The symbol an S8 operand in range stands for: s[6:0] (R114). -/
def symbolOf (s : BitVec 8) : Sym := s.setWidth 7

/-- zext_32 of an S8 operand, the ERR_INFO of SYMBOL_RANGE (R202). -/
def operandInfo (s : BitVec 8) : Word := s.setWidth 32

/-- zext_32 of a count or index (R202): every count of the HTB fits 32 bits (R8). -/
def countWord (n : Nat) : Word := BitVec.ofNat 32 n

end Sys2Proof.Machine
end

