-- ==== Sys2Proof/Machine/Ops.lean ====
section
/-! DEFINITION. The named operations over the HTB's state: reads of its registers and memories, acceptance of a command,
its two ways to complete (spec/60_exceptions.md R203-R208), and the writes its commands are made of. -/

namespace Sys2Proof.Machine

/-! ### Reads -/

/-- TEXT_LEN (R34). -/
def State.textLen (s : State) : Nat := s.text.length

/-- BIT_LEN (R38). -/
def State.bitLen (s : State) : Nat := s.bits.length

/-- OUT_LEN (R40). -/
def State.outLen (s : State) : Nat := s.out.length

/-- NODE_COUNT (R42). -/
def State.nodeCount (s : State) : Nat := s.nodes.length

/-- FREQ[x] (R35). -/
def State.freqAt (s : State) (x : Sym) : Word := s.freq[x.toNat]'x.isLt

/-- CODE[x] (R45). -/
def State.codeAt (s : State) (x : Sym) : CodeEntry := s.code[x.toNat]'x.isLt

/-- NODE[i]. A slot that holds no node of the current tree has no value the spec states (R22, R50): it reads as the free
value Config.staleNode (log 6). -/
def State.nodeAt (s : State) (i : Slot) : Node :=
  (s.nodes[i.toNat]?).getD (Config.staleNode s.draws i)

/-- The child of slot i a branch bit leads to: left on 0, right on 1 (R172, R151). -/
def State.child (s : State) (i : Slot) (b : Bool) : Slot :=
  if b then (s.nodeAt i).right else (s.nodeAt i).left

/-- Every symbol 0..127, ascending. -/
def allSyms : List Sym := (List.range Config.nsym).map (BitVec.ofNat 7)

/-- The symbols with FREQ > 0, ascending (R130). -/
def State.usedSyms (s : State) : List Sym := allSyms.filter fun x => 0 < (s.freqAt x).toNat

/-- DISTINCT, a read-only value (R36). -/
def State.distinct (s : State) : Nat := s.usedSyms.length

/-! ### Acceptance and completion -/

/-- Acceptance of the command word v (R203). It does not decode v. -/
def State.accept (s : State) (v : Word) : State :=
  { s with lastCmd := v, busy := true, done := false, err := false, errCode := .none, errInfo := 0 }

/-- A command written while busy is dropped and sets OVR (R208). -/
def State.overrun (s : State) : State := { s with ovr := true }

/-- Successful completion (R206). -/
def State.completeOk (s : State) : State :=
  { s with busy := false, done := true, err := false, errCode := .none, errInfo := 0 }

/-- Completion with an error (R207): the HTB's taking of an exception. It saves the code and the information word and
nothing else (R205, R212); there is no return from it, the next acceptance clears it (R203). -/
def State.completeErr (s : State) (c : ErrCode) (info : Word) : State :=
  { s with busy := false, done := true, err := true, errCode := c, errInfo := info }

/-- A command ends well: its writes and the completion appear together (R205, R206). -/
def succeed (s : State) : Result := .next s.completeOk

/-- `raise Error(c, info)` (R11): the command ends at once, and no write of it happens (R205). -/
def raise (s : State) (c : ErrCode) (info : Word) : Result := .next (s.completeErr c info)

/-! ### Writes of the text, bit and output buffers -/

/-- FREQ[x] <- FREQ[x] + 1 (R114). -/
def State.countSym (s : State) (x : Sym) : State :=
  { s with freq := s.freq.set x.toNat (s.freqAt x + 1) x.isLt }

/-- TEXT[TEXT_LEN] <- x, TEXT_LEN <- TEXT_LEN + 1 (R114). -/
def State.appendSym (s : State) (x : Sym) : State := { s with text := s.text ++ [x] }

/-- TEXT_LEN <- 0 and every FREQ entry 0 (R112). -/
def State.clearText (s : State) : State := { s with text := [], freq := Vector.replicate 128 0 }

/-- BITS[BIT_LEN] <- b, BIT_LEN <- BIT_LEN + 1 (R115). -/
def State.appendBit (s : State) (b : Bool) : State := { s with bits := s.bits ++ [b] }

/-- BIT_LEN <- 0, BIT_POS <- 0 (R113). -/
def State.clearBits (s : State) : State := { s with bits := [], bitPos := 0 }

/-- BITS <- seq, BIT_LEN <- its length, BIT_POS <- 0 (R156). -/
def State.setBits (s : State) (seq : List Bool) : State := { s with bits := seq, bitPos := 0 }

/-- OUT <- o, OUT_LEN <- its length, BIT_POS <- p (R170, R173). -/
def State.setOut (s : State) (o : List Sym) (p : Nat) : State := { s with out := o, bitPos := BitVec.ofNat 16 p }

/-- OUT_LEN <- 0 (R111). -/
def State.clearOut (s : State) : State := { s with out := [] }

/-! ### Writes of the tree, the codes, the lookup result and the walk register -/

/-- The walk register: WALK_CUR, WALK_HIT, WALK_USED, WALK_SYM (R47). -/
def State.setWalk (s : State) (cur : Slot) (hit used : Bool) (x : Sym) : State :=
  { s with walkCur := cur, walkHit := hit, walkUsed := used, walkSym := x }

/-- A new tree: NODE, NODE_COUNT, ROOT, TREE_VALID <- 1, CODES_VALID <- 0, and the walk at the new root (R130, R138). -/
def State.setTree (s : State) (arena : List Node) (rt : Slot) : State :=
  { s with nodes := arena, root := rt, treeValid := true, codesValid := false }.setWalk rt false false 0

/-- No tree: TREE_VALID, NODE_COUNT and ROOT <- 0, and the walk register all 0 (R111). -/
def State.dropTree (s : State) : State :=
  { s with nodes := [], root := 0, treeValid := false }.setWalk 0 false false 0

/-- The code ROM with every entry absent: (present 0, len 0, path 0) (R45). -/
def emptyCode : Vector CodeEntry 128 := Vector.replicate 128 ⟨false, 0, 0⟩

/-- CODE <- c, CODES_VALID <- 1 (R150). -/
def State.setCodes (s : State) (c : Vector CodeEntry 128) : State := { s with code := c, codesValid := true }

/-- CODES_VALID <- 0 and every CODE entry absent (R111). -/
def State.dropCodes (s : State) : State := { s with code := emptyCode, codesValid := false }

/-- RES_LEN and RES_PATH (R46, R155). -/
def State.setRes (s : State) (len : BitVec 8) (path : Path) : State := { s with resLen := len, resPath := path }

/-! ### The internal memories' form -/

/-- The internal memories keep within the capacities of R7: TEXT and OUT at most TEXT_CAP symbols, BITS at most BIT_CAP
bits, NODE at most NODE_CAP slots, BIT_POS at most BIT_CAP; and every CODE entry is canonical: an absent one is (0, 0, 0), and a
path has no bit at or beyond its length (R34, R38-R40, R41, R45). The HTB has no byte memory (log 17). -/
def Memory.wf (s : State) : Bool :=
  s.text.length ≤ Config.textCap && s.out.length ≤ Config.textCap && s.bits.length ≤ Config.bitCap &&
  s.nodes.length ≤ Config.nodeCap && s.bitPos.toNat ≤ Config.bitCap &&
  allSyms.all fun x =>
    ((s.codeAt x).present || (s.codeAt x).len = 0) && (s.codeAt x).path >>> (s.codeAt x).len.toNat = 0

end Sys2Proof.Machine
end

