-- ==== Sys2Proof/Machine/Aperture.lean ====
section
/-! DEFINITION. The host aperture: the address map, the windows, and host reads and writes (spec/20_memory.md R60-R85). -/

namespace Sys2Proof.Machine

/-! ### The address map -/

/-- A mapped location (R63). In a window: the symbol, slot or word the offset selects, and the word within an entry. -/
inductive Loc where
  | id
  | cmd
  | status
  | errInfo
  | textLen
  | distinct
  | bitLen
  | bitPos
  | outLen
  | nodeCount
  | root
  | walk
  | resLen
  | resPath (word : Nat)
  | freq (x : Sym)
  | node (slot : Nat) (word : Nat)
  | code (x : Sym) (word : Nat)
  | text (word : Nat)
  | out (word : Nat)
  | bits (word : Nat)
deriving DecidableEq, Repr

/-- The registers at 0x000..0x040, in order (R63). -/
def registerLocs : List Loc :=
  [.id, .cmd, .status, .errInfo, .textLen, .distinct, .bitLen, .bitPos, .outLen, .nodeCount, .root, .walk, .resLen,
    .resPath 0, .resPath 1, .resPath 2, .resPath 3]

/-- The location at a word-aligned offset n; none where the map has a hole (R63, R64). -/
def locate (n : Nat) : Option Loc :=
  if n < 0x044 then registerLocs[n / 4]?
  else if n < 0x0400 then none
  else if n < 0x0600 then some (.freq (BitVec.ofNat 7 ((n - 0x0400) / 4)))
  else if n < 0x1000 then none
  else if n < 0x1800 then some (.node ((n - 0x1000) / 8) ((n - 0x1000) / 4 % 2))
  else if n < 0x2000 then none
  else if n < 0x3000 then some (.code (BitVec.ofNat 7 ((n - 0x2000) / 32)) ((n - 0x2000) / 4 % 8))
  else if n < 0x4000 then none
  else if n < 0x5000 then some (.text ((n - 0x4000) / 4))
  else if n < 0x6000 then some (.out ((n - 0x5000) / 4))
  else if n < 0x8000 then none
  else if n < 0x9000 then some (.bits ((n - 0x8000) / 4))
  else none

/-- The platform address of an offset (R60): the HTB sees only the offset. -/
def platformAddress (a : Offset) : Nat := Config.htbBase + a.toNat

/-! ### What each location reads -/

/-- Word `word` of a path, least significant word first (R63, R70). -/
def pathWord (p : Path) (word : Nat) : Word := p.extractLsb' (32 * word) 32

/-- The WALK register: [7:0] WALK_CUR, [8] WALK_HIT, [9] WALK_USED, [22:16] WALK_SYM, else 0 (R63). -/
def State.walkWord (s : State) : Word :=
  0#9 ++ (s.walkSym ++ (0#6 ++ (flagBit s.walkUsed ++ (flagBit s.walkHit ++ s.walkCur))))

/-- Word 1 of a valid node: VALID [31], leaf [30], consumed [29], sym [22:16], left [15:8], right [7:0] (R69). -/
def nodeWord1 (n : Node) : Word :=
  1#1 ++ (flagBit n.leaf ++ (flagBit n.consumed ++ (0#6 ++ (n.sym ++ (n.left ++ n.right)))))

/-- The NODE window: a slot of the current tree, and 0 elsewhere; slot 255 does not exist (R69, R74). -/
def State.nodeWindow (s : State) (slot word : Nat) : Word :=
  if s.treeValid && decide (slot < Config.nodeCap) then
    match s.nodes[slot]? with
    | some n => if word = 0 then n.weight else nodeWord1 n
    | none => 0
  else 0

/-- Word 0 of a code entry: present [31], len [7:0] (R70). -/
def codeWord0 (e : CodeEntry) : Word := flagBit e.present ++ (0#23 ++ e.len)

/-- The CODE window: 0 unless CODES_VALID; words 5 to 7 of an entry are reserved and read 0 (R70, R74). -/
def State.codeWindow (s : State) (x : Sym) (word : Nat) : Word :=
  if s.codesValid = false then 0
  else if word = 0 then codeWord0 (s.codeAt x)
  else if word ≤ 4 then pathWord (s.codeAt x).path (word - 1)
  else 0

/-- A symbol's byte in a window, 0x00 beyond the valid length (R71, R74). -/
def symByte (xs : List Sym) (i : Nat) : BitVec 8 :=
  match xs[i]? with
  | some x => x.setWidth 8
  | none => 0

/-- Word j of the TEXT or OUT window: four symbols, the first in the least significant byte (R71). -/
def packSyms (xs : List Sym) (j : Nat) : Word :=
  symByte xs (4 * j + 3) ++ (symByte xs (4 * j + 2) ++ (symByte xs (4 * j + 1) ++ symByte xs (4 * j)))

/-- A bit sequence as a number, the first bit least significant. -/
def bitsToNat : List Bool → Nat
  | [] => 0
  | b :: bs => b.toNat + 2 * bitsToNat bs

/-- Word j of the BITS window: 32 bits, LSB first, 0 beyond the valid length (R73). -/
def packBits (bs : List Bool) (j : Nat) : Word := BitVec.ofNat 32 (bitsToNat ((bs.drop (32 * j)).take 32))

/-- The word a location holds while BUSY = 0 (R63, R68-R74). -/
def State.locWord (s : State) : Loc → Word
  | .id => Config.idValue
  | .cmd => s.lastCmd
  | .status => s.status
  | .errInfo => s.errInfo
  | .textLen => countWord s.textLen
  | .distinct => countWord s.distinct
  | .bitLen => countWord s.bitLen
  | .bitPos => s.bitPos.setWidth 32
  | .outLen => countWord s.outLen
  | .nodeCount => countWord s.nodeCount
  | .root => s.root.setWidth 32
  | .walk => s.walkWord
  | .resLen => s.resLen.setWidth 32
  | .resPath word => pathWord s.resPath word
  | .freq x => s.freqAt x
  | .node slot word => s.nodeWindow slot word
  | .code x word => s.codeWindow x word
  | .text word => packSyms s.text word
  | .out word => packSyms s.out word
  | .bits word => packBits s.bits word

/-- The locations that read their current value while BUSY = 1 (R72). -/
def Loc.readableBusy : Loc → Bool
  | .id | .cmd | .status => true
  | .errInfo | .textLen | .distinct | .bitLen | .bitPos | .outLen | .nodeCount | .root | .walk | .resLen | .resPath _
  | .freq _ | .node _ _ | .code _ _ | .text _ | .out _ | .bits _ => false

/-! ### Host accesses -/

/-- An access the port can serve: one 32-bit word at an offset with a[1:0] = 0 (R62). -/
def accessOk (a : Offset) (size : Nat) : Bool := size = 4 && a.toNat % 4 = 0

/-- The location an access reaches, none where it gets ERROR (R62, R64). -/
def accessLoc (a : Offset) (size : Nat) : Option Loc := if accessOk a size then locate a.toNat else none

/-- The port's answer to the current access. -/
def State.answer (s : State) (r : Reply) : State := { s with reply := some r }

/-- A read whose value R72 leaves unspecified: a fresh free value, response OKAY (log 5). -/
def State.answerDraw (s : State) : State :=
  { s with reply := some (.readData (Config.busyRead s.draws) .okay), draws := s.draws + 1 }

/-- A host read (R62, R64, R65, R72): no effect on the HTB's state. -/
def hostRead (s : State) (a : Offset) (size : Nat) : State :=
  match accessLoc a size with
  | none => s.answer (.readData 0 .error)
  | some l => if s.busy && !l.readableBusy then s.answerDraw else s.answer (.readData (s.locWord l) .okay)

/-- What a write to a mapped location does: CMD accepts, or drops and sets OVR (R67, R203, R208); STATUS clears OVR where
bit 3 is 1 (R66); any other is ignored (R65). -/
def writeLoc (s : State) (l : Loc) (v : Word) : State :=
  match l with
  | .cmd => if s.busy then s.overrun else s.accept v
  | .status => if v.getLsbD 3 then { s with ovr := false } else s
  | .id | .errInfo | .textLen | .distinct | .bitLen | .bitPos | .outLen | .nodeCount | .root | .walk | .resLen
  | .resPath _ | .freq _ | .node _ _ | .code _ _ | .text _ | .out _ | .bits _ => s

/-- A host write (R62, R64-R67): ERROR and no effect unless it is a whole aligned word at a mapped offset. -/
def hostWrite (s : State) (a : Offset) (size : Nat) (strobes : BitVec 4) (v : Word) : State :=
  if strobes = 0xF#4 then
    match accessLoc a size with
    | none => s.answer (.writeResp .error)
    | some l => (writeLoc s l v).answer (.writeResp .okay)
  else s.answer (.writeResp .error)

/-- A burst of n reads is the single-word reads in address order (R85). DESIGN CHOICE, log 19: past 0xFFFC the 16-bit offset
wraps to 0x0000. -/
def burstRead (a : Offset) : Nat → List Event
  | 0 => []
  | n + 1 => .hostRead a 4 :: burstRead (a + 4) n

/-- A burst of writes is the single-word writes in address order (R85). DESIGN CHOICE, log 19: past 0xFFFC the 16-bit offset
wraps to 0x0000. -/
def burstWrite (a : Offset) : List Word → List Event
  | [] => []
  | v :: vs => .hostWrite a 4 0xF v :: burstWrite (a + 4) vs

end Sys2Proof.Machine
end

