-- ==== Sys2Proof/Machine/CodeMapper.lean ====
section
/-! DEFINITION. GENCODE, LOOKUP and ENCODE (spec/42_code_mapper.md R150-R162). -/

namespace Sys2Proof.Machine

/-- Cn[x] <- e. -/
def setEntry (c : Vector CodeEntry 128) (x : Sym) (e : CodeEntry) : Vector CodeEntry 128 := c.set x.toNat e x.isLt

/-- The path one branch deeper: bit d is 0 to the left and 1 to the right (R150). -/
def extendPath (p : Path) (d : Nat) (b : Bool) : Path := if b then p ||| (1#128 <<< d) else p

/-- R150's visit(i, d, p), writing the entry of every leaf below slot i. `levels` bounds the depth of the recursion: with 256
slot indices, a branch of more than 256 slots comes back to one of them, so R150's recursion would never end, and the
answer is none (log 7). -/
def visit (s : State) : (levels : Nat) → Slot → (d : Nat) → Path → Vector CodeEntry 128 → Option (Vector CodeEntry 128)
  | 0, _, _, _, _ => none
  | levels + 1, i, d, p, c =>
    if (s.nodeAt i).leaf then
      some (setEntry c (s.nodeAt i).sym { present := true, len := BitVec.ofNat 8 d, path := p })
    else
      match visit s levels (s.nodeAt i).left (d + 1) p c with
      | none => none
      | some c' => visit s levels (s.nodeAt i).right (d + 1) (extendPath p d true) c'

/-- The code ROM of the current tree: every entry absent (R153), then visit(ROOT, 0, 0). -/
def generatedCode (s : State) : Option (Vector CodeEntry 128) := visit s 256 s.root 0 0 emptyCode

/-- GENCODE (R150): NO_TREE, else the code ROM is written whole. It stops only where R150's recursion never ends (log 7). -/
def execGencode (s : State) : Result :=
  if s.treeValid = false then raise s .noTree 0
  else match generatedCode s with
    | some c => succeed (s.setCodes c)
    | none => .fault .arenaNotATree

/-- LOOKUP s (R155). -/
def execLookup (x : BitVec 8) (s : State) : Result :=
  if s.treeValid = false then raise s .noTree 0
  else if s.codesValid = false then raise s .noCodes 0
  else if symbolInRange x = false then raise s .symbolRange (operandInfo x)
  else if (s.codeAt (symbolOf x)).present = false then raise s .symbolAbsent (operandInfo x)
  else succeed (s.setRes (s.codeAt (symbolOf x)).len (s.codeAt (symbolOf x)).path)

/-- The code of an entry as a bit sequence: path[0], …, path[len − 1] (R152). -/
def codeBits (e : CodeEntry) : List Bool := (List.range e.len.toNat).map fun d => e.path.getLsbD d

/-- The index of the first text position whose symbol has no leaf (R158). -/
def firstAbsent (s : State) : Option Nat := s.text.findIdx? fun x => !(s.codeAt x).present

/-- The encoded length of the text (R156's total). -/
def encodedLength (s : State) : Nat := (s.text.map fun x => (s.codeAt x).len.toNat).sum

/-- The encoded text: code(TEXT[0]) ++ … ++ code(TEXT[TEXT_LEN − 1]) (R162). -/
def encodedBits (s : State) : List Bool := s.text.flatMap fun x => codeBits (s.codeAt x)

/-- ENCODE (R156): NO_TREE, NO_CODES, NOT_ENCODABLE (R159), SYMBOL_ABSENT (R158), BITS_FULL (R160); else BITS is replaced. -/
def execEncode (s : State) : Result :=
  if s.treeValid = false then raise s .noTree 0
  else if s.codesValid = false then raise s .noCodes 0
  else if s.textLen < 2 then raise s .notEncodable (countWord s.textLen)
  else match firstAbsent s with
    | some i => raise s .symbolAbsent (countWord i)
    | none =>
      if Config.bitCap < encodedLength s then raise s .bitsFull (countWord (encodedLength s))
      else succeed (s.setBits (encodedBits s))

end Sys2Proof.Machine
end

