-- ==== Sys2Proof/Machine/Decoder.lean ====
section
/-! DEFINITION. DECODE, WALK and WRST: the conditional tree walk (spec/43_decoder.md R170-R177). -/

namespace Sys2Proof.Machine

/-- The walk of one symbol from slot cur (R172): one bit a step until a leaf; the leaf's symbol and the bits left. None when
the bits run out before a leaf (R175). -/
def walkSymbol (s : State) : List Bool → Slot → Option (Sym × List Bool)
  | [], cur => if (s.nodeAt cur).leaf then some ((s.nodeAt cur).sym, []) else none
  | b :: bs, cur =>
    if (s.nodeAt cur).leaf then some ((s.nodeAt cur).sym, b :: bs) else walkSymbol s bs (s.child cur b)

/-- The walks of n symbols, each from the root (R172): the symbols and the bits left, or how many symbols were complete when
the bits ran out (R175). -/
def walkSymbols (s : State) : Nat → List Bool → Except Nat (List Sym × List Bool)
  | 0, bs => .ok ([], bs)
  | n + 1, bs =>
    match walkSymbol s bs s.root with
    | none => .error 0
    | some (x, rest) =>
      match walkSymbols s n rest with
      | .error m => .error (m + 1)
      | .ok (o, rest') => .ok (x :: o, rest')

/-- N, the number of symbols DECODE emits: the root's weight (R171). -/
def symbolCount (s : State) : Nat := (s.nodeAt s.root).weight.toNat

/-- DECODE (R170): NO_TREE; on a leaf root N copies of its symbol and no bit consumed (R174); else N walks, and BIT_POS is
the number of bits they consumed (R173), or BITS_UNDERRUN (R175). -/
def execDecode (s : State) : Result :=
  if s.treeValid = false then raise s .noTree 0
  else if (s.nodeAt s.root).leaf then
    succeed (s.setOut (List.replicate (symbolCount s) (s.nodeAt s.root).sym) 0)
  else match walkSymbols s (symbolCount s) s.bits with
    | .error m => raise s .bitsUnderrun (countWord m)
    | .ok (o, rest) => succeed (s.setOut o (s.bitLen - rest.length))

/-- WALK b (R176): one step of the walk. On a leaf root the one symbol, no bit consumed. -/
def execWalk (b : Bool) (s : State) : Result :=
  if s.treeValid = false then raise s .noTree 0
  else if (s.nodeAt s.root).leaf then succeed (s.setWalk s.root true false (s.nodeAt s.root).sym)
  else if (s.nodeAt (s.child s.walkCur b)).leaf then
    succeed (s.setWalk s.root true true (s.nodeAt (s.child s.walkCur b)).sym)
  else succeed (s.setWalk (s.child s.walkCur b) false true 0)

/-- WRST (R177): the walk register back at the root. -/
def execWrst (s : State) : Result :=
  if s.treeValid = false then raise s .noTree 0
  else succeed (s.setWalk s.root false false 0)

end Sys2Proof.Machine
end

