-- ==== Sys2Proof/Machine/FrequencyCounter.lean ====
section
/-! DEFINITION. The Frequency Counter and buffer commands (spec/40_frequency_counter.md R110-R119). -/

namespace Sys2Proof.Machine

/-- NOP (R110): nothing but completion. -/
def execNop (s : State) : Result := succeed s

/-- CLEAR (R111): every data item takes its reset value; OVR and LAST_CMD stay. -/
def execClear (s : State) : Result :=
  succeed ((((s.clearText).clearBits).clearOut.dropTree).dropCodes.setRes 0 0)

/-- CLRTXT (R112). -/
def execClrtxt (s : State) : Result := succeed s.clearText

/-- CLRBITS (R113). -/
def execClrbits (s : State) : Result := succeed s.clearBits

/-- PUSHS s (R114): SYMBOL_RANGE, then TEXT_FULL, then the symbol is counted and appended. -/
def execPushs (x : BitVec 8) (s : State) : Result :=
  if symbolInRange x = false then raise s .symbolRange (operandInfo x)
  else if s.textLen = Config.textCap then raise s .textFull (countWord s.textLen)
  else succeed ((s.countSym (symbolOf x)).appendSym (symbolOf x))

/-- PUSHB b (R115): BITS_FULL, then the bit is appended; BIT_POS stays. -/
def execPushb (b : Bool) (s : State) : Result :=
  if s.bitLen = Config.bitCap then raise s .bitsFull (countWord s.bitLen)
  else succeed (s.appendBit b)

end Sys2Proof.Machine
end

