-- ==== Sys2Proof/Machine/TreeBuilder.lean ====
section
/-! DEFINITION. BUILD, the priority-queue merge engine (spec/41_tree_builder.md R130-R138). -/

namespace Sys2Proof.Machine

/-- A leaf slot of symbol x: no children, not consumed (R130). -/
def leafNode (x : Sym) (w : Word) : Node :=
  { leaf := true, sym := x, weight := w, left := Config.nil, right := Config.nil, consumed := false }

/-- The k leaf slots, in ascending symbol order, each with its occurrence count (R132). -/
def leafArena (s : State) : List Node := s.usedSyms.map fun x => leafNode x (s.freqAt x)

/-- A candidate of a merge round: an unconsumed slot and its node (R134). -/
abbrev Candidate := Node × Nat

/-- The candidates among the populated slots, in slot order (R134). -/
def candidates (arena : List Node) : List Candidate := arena.zipIdx.filter fun c => !c.1.consumed

/-- The key (weight, slot) of one candidate is below another's, lexicographically (R11, R134): ties go to the lower slot. -/
def keyBelow (a b : Candidate) : Bool :=
  a.1.weight.toNat < b.1.weight.toNat || (a.1.weight.toNat = b.1.weight.toNat && a.2 < b.2)

/-- The candidate of least key (R11's argmin). -/
def leastOf : List Candidate → Option Candidate
  | [] => none
  | c :: cs =>
    match leastOf cs with
    | none => some c
    | some d => if keyBelow d c then some d else some c

/-- The least and the second-least candidate (R134). -/
def leastTwo (cs : List Candidate) : Option (Candidate × Candidate) :=
  match leastOf cs with
  | none => none
  | some lo =>
    match leastOf (cs.filter fun c => c.2 ≠ lo.2) with
    | none => none
    | some lo2 => some (lo, lo2)

/-- NODE[i].consumed <- 1 (R130). -/
def markConsumed (arena : List Node) (i : Nat) : List Node := arena.modify i fun n => { n with consumed := true }

/-- The node a merge makes of the least and the second-least candidate: the second-least on the left, the least on the
right, its weight their sum (R135). -/
def mergedNode (lo lo2 : Candidate) : Node :=
  { leaf := false, sym := 0, weight := lo.1.weight + lo2.1.weight,
    left := BitVec.ofNat 8 lo2.2, right := BitVec.ofNat 8 lo.2, consumed := false }

/-- One merge round (R134-R136): the pair is marked consumed, and the new node takes the next slot. A round always has two
candidates (R134); without them there is nothing to merge. -/
def mergeRound (arena : List Node) : List Node :=
  match leastTwo (candidates arena) with
  | none => arena
  | some (lo, lo2) => markConsumed (markConsumed arena lo.2) lo2.2 ++ [mergedNode lo lo2]

/-- A number of merge rounds (R137). -/
def mergeRounds : Nat → List Node → List Node
  | 0, arena => arena
  | r + 1, arena => mergeRounds r (mergeRound arena)

/-- The arena BUILD makes, k the number of distinct symbols: one leaf of weight TEXT_LEN for k < 2 (R133), else k leaves and
k − 1 merges (R132, R137). k = 0 with a text is no reachable state (R37): the leaf's symbol is then a free value (log 6). -/
def builtArena (s : State) : List Node :=
  match s.usedSyms with
  | [] => [leafNode (Config.staleNode s.draws 0).sym (countWord s.textLen)]
  | [x] => [leafNode x (countWord s.textLen)]
  | syms => mergeRounds (syms.length - 1) (leafArena s)

/-- ROOT of a built arena: the last slot, 2k − 2 for k ≥ 2 and 0 for the degenerate tree (R42, R133, R137). -/
def builtRoot (arena : List Node) : Slot := BitVec.ofNat 8 (arena.length - 1)

/-- BUILD (R130): INVALID_INPUT for the empty text (R131), else the new tree (R138). -/
def execBuild (s : State) : Result :=
  if s.textLen = 0 then raise s .invalidInput 0
  else succeed (s.setTree (builtArena s) (builtRoot (builtArena s)))

end Sys2Proof.Machine
end

