-- ==== Sys2Proof/Machine/Dispatch.lean ====
section
/-! DEFINITION. One arm per command: its meaning (spec/60_exceptions.md R204, "the command's rule"). -/

namespace Sys2Proof.Machine

def exec (i : Instr) (s : State) : Host.Outcome State Fault Refusal :=
  match i with
  -- 40_frequency_counter.md
  | .nop => Sys2Proof.Machine.execNop s
  | .clear => Sys2Proof.Machine.execClear s
  | .clrtxt => Sys2Proof.Machine.execClrtxt s
  | .clrbits => Sys2Proof.Machine.execClrbits s
  | .pushs x => Sys2Proof.Machine.execPushs x s
  | .pushb b => Sys2Proof.Machine.execPushb b s
  -- 41_tree_builder.md
  | .build => Sys2Proof.Machine.execBuild s
  -- 42_code_mapper.md
  | .gencode => Sys2Proof.Machine.execGencode s
  | .lookup x => Sys2Proof.Machine.execLookup x s
  | .encode => Sys2Proof.Machine.execEncode s
  -- 43_decoder.md
  | .decode => Sys2Proof.Machine.execDecode s
  | .walk b => Sys2Proof.Machine.execWalk b s
  | .wrst => Sys2Proof.Machine.execWrst s

end Sys2Proof.Machine
end

