-- ==== Sys2Proof/Machine/Engine.lean ====
section
/-! DEFINITION. The engine step, reset, and the events of the total order (spec/60_exceptions.md R204,
spec/70_reset_and_hazards.md R240, R241, spec/20_memory.md R79). -/

namespace Sys2Proof.Machine

/-- The engine step (R204), enabled iff BUSY = 1: decode LAST_CMD (R96), then the command's rule. An illegal word completes
with ILLEGAL_CMD and ERR_INFO = the word (R94, R95). -/
def engineStep (s : State) : Result :=
  match decode s.lastCmd with
  | .ok i => exec i s
  | .error _ => raise s .illegalCmd s.lastCmd

/-- Reset (R240): every piece of the HTB's state takes its value of R50; a command in execution is abandoned with none of its
writes (R241). The rest of the agenda and the draw counter are not the HTB's (log 8). -/
def resetEvent (s : State) : State := { State.reset with agenda := s.agenda, draws := s.draws }

/-- The engine's turn: its step iff BUSY = 1, else nothing (R204). -/
def engineTurn (s : State) : Result := if s.busy then engineStep s else .next s

/-- One event of the total order (R79). -/
def perform (e : Event) (s : State) : Result :=
  match e with
  | .hostRead a size => .next (hostRead s a size)
  | .hostWrite a size strobes v => .next (hostWrite s a size strobes v)
  | .engineTurn => engineTurn s
  | .reset => .next (resetEvent s)

/-- The next event is taken off the agenda and performed. With nothing on the agenda the engine takes its step if BUSY = 1
(weak fairness, R250), and an idle machine keeps its state (R220; log 3). -/
def nextEvent (s : State) : Result :=
  match s.agenda with
  | [] => engineTurn s
  | e :: rest => perform e { s with agenda := rest }

/-- The state in which the next step runs the command word v: v is accepted (R203) and the engine's turn comes next. -/
def commandReady (s : State) (v : Word) : State := { s.accept v with agenda := .engineTurn :: s.agenda }

end Sys2Proof.Machine
end

