-- ==== Sys2Proof/Machine/Step.lean ====
section
/-! DEFINITION. One step of the machine: the next event of the total order of host accesses and engine steps
(spec/20_memory.md R79). -/

namespace Sys2Proof.Machine

/-- One step. -/
def step (s : State) : Host.Outcome State Fault Refusal := nextEvent s

/-- The command word w, accepted, with the engine's turn next (log 11): the HTB fetches nothing (R21), a command reaches the
engine by acceptance. -/
def State.withFetchWord (s : State) (nbits w : Nat) : State := commandReady s (BitVec.ofNat 32 (w % 2 ^ nbits))

end Sys2Proof.Machine
end

