-- ==== Sys2Proof/Machine/Script.lean ====
section
/-! DEFINITION. Command scripts (spec/30_encoding.md R99-R101): reading a line, expanding pseudo-commands, the command words,
the host accesses a script makes (R245), and the end of its run (R249). Where the spec's syntax leaves a point open, log 12 says
what is taken. -/

namespace Sys2Proof.Machine

/-- Why the assembler refuses a line (R99, R100). -/
inductive ScriptError where
  /-- The first word is no mnemonic or pseudo-command. -/
  | unknownMnemonic
  /-- The operand is missing, not allowed, or not of the operand's syntax. -/
  | badOperand
  /-- The operand's value is refused: an S8 literal above 255, a B1 operand other than 0 or 1, a PUSHBITS character other than
  0 or 1. -/
  | refusedOperand
deriving DecidableEq, Repr

/-! ### From lines to command words -/

/-- `PUSHS c` for each character, by its code (R99, R100, R13; log 13). -/
def pushString (t : List Char) : List Instr := t.map fun c => .pushs (BitVec.ofNat 8 c.toNat)

/-- `PUSHB 0` for each `0` and `PUSHB 1` for each `1` (R100). -/
def pushBitString (t : List Char) : List Instr := t.map fun c => .pushb (c = '1')

/-- A line's commands, pseudo-commands expanded (R100); `WellFormed.lean` says which lines are accepted. -/
def expandLine : ScriptLine → List Instr
  | .nop => [.nop]
  | .clear => [.clear]
  | .clrtxt => [.clrtxt]
  | .clrbits => [.clrbits]
  | .pushs n => [.pushs (BitVec.ofNat 8 n)]
  | .pushb n => [.pushb (n = 1)]
  | .build => [.build]
  | .gencode => [.gencode]
  | .lookup n => [.lookup (BitVec.ofNat 8 n)]
  | .encode => [.encode]
  | .decode => [.decode]
  | .walk n => [.walk (n = 1)]
  | .wrst => [.wrst]
  | .pushstr t => pushString t
  | .pushbits t => pushBitString t
  | .loadtext t => .clrtxt :: pushString t
  | .loadbits t => .clrbits :: pushBitString t
  | .roundtrip t => .clear :: (pushString t ++ [.build, .gencode, .encode, .decode])

/-- The words of a line, refused where its operand is (R99). -/
def assembleLine (l : ScriptLine) : Except ScriptError (List Word) :=
  if l.wellFormed then .ok ((expandLine l).map encode) else .error .refusedOperand

/-- The words of a script, in order (R99). DESIGN CHOICE, log 20: one refused line refuses the whole script. -/
def assemble : List ScriptLine → Except ScriptError (List Word)
  | [] => .ok []
  | l :: ls =>
    match assembleLine l with
    | .error e => .error e
    | .ok ws =>
      match assemble ls with
      | .error e => .error e
      | .ok ws' => .ok (ws ++ ws')

/-! ### Reading a line -/

/-- A blank between words. -/
def isBlank (c : Char) : Bool := c = ' ' || c = '\t' || c = '\r'

/-- A line up to its `;` comment (R99). A `;` inside a character literal or a quoted text starts none (log 12). -/
def stripComment : (inText : Bool) → List Char → List Char
  | _, [] => []
  | true, '"' :: cs => '"' :: stripComment false cs
  | true, c :: cs => c :: stripComment true cs
  | false, ';' :: _ => []
  | false, '\'' :: c :: '\'' :: cs => '\'' :: c :: '\'' :: stripComment false cs
  | false, '"' :: cs => '"' :: stripComment true cs
  | false, c :: cs => c :: stripComment false cs

/-- A text without its leading and trailing blanks. -/
def trimBlanks (cs : List Char) : List Char := ((cs.dropWhile isBlank).reverse.dropWhile isBlank).reverse

/-- The value of a digit. -/
def digitValue (c : Char) : Option Nat :=
  if '0' ≤ c ∧ c ≤ '9' then some (c.toNat - '0'.toNat)
  else if 'a' ≤ c ∧ c ≤ 'f' then some (c.toNat - 'a'.toNat + 10)
  else if 'A' ≤ c ∧ c ≤ 'F' then some (c.toNat - 'A'.toNat + 10)
  else none

/-- Digits in a base, most significant first, after a value already read. -/
def digitsValue (base : Nat) : List Char → Nat → Option Nat
  | [], n => some n
  | c :: cs, n =>
    match digitValue c with
    | none => none
    | some d => if d < base then digitsValue base cs (base * n + d) else none

/-- A non-empty number in a base. -/
def numberValue (base : Nat) (cs : List Char) : Option Nat := if cs.isEmpty then none else digitsValue base cs 0

/-- An S8 operand: a decimal number, hex with a `0x` lead, or a character literal (R99). -/
def s8Literal : List Char → Option Nat
  | ['\'', c, '\''] => some c.toNat
  | '0' :: 'x' :: ds => numberValue 16 ds
  | ds => numberValue 10 ds

/-- A B1 operand: `0` or `1` (R99). -/
def b1Literal : List Char → Option Nat
  | ['0'] => some 0
  | ['1'] => some 1
  | _ => none

/-- A text in double quotes (R100). -/
def quotedText : List Char → Option (List Char)
  | '"' :: cs =>
    match cs.reverse with
    | '"' :: r => if r.all (· ≠ '"') then some r.reverse else none
    | _ => none
  | _ => none

/-- A line of a NONE form: "the operand is omitted" (R99). -/
def lineNone (l : ScriptLine) (operand : List Char) : Except ScriptError ScriptLine :=
  if operand.isEmpty then .ok l else .error .badOperand

/-- A line whose operand is read by `f`. -/
def lineWith {α : Type} (mk : α → ScriptLine) (f : List Char → Option α) (operand : List Char) :
    Except ScriptError ScriptLine :=
  match f operand with
  | some x => .ok (mk x)
  | none => .error .badOperand

/-- A line by its mnemonic, in capitals, and its operand (R99, R100). -/
def lineOf (mnemonic : String) (operand : List Char) : Except ScriptError ScriptLine :=
  match mnemonic with
  | "NOP" => lineNone .nop operand
  | "CLEAR" => lineNone .clear operand
  | "CLRTXT" => lineNone .clrtxt operand
  | "CLRBITS" => lineNone .clrbits operand
  | "PUSHS" => lineWith .pushs s8Literal operand
  | "PUSHB" => lineWith .pushb b1Literal operand
  | "BUILD" => lineNone .build operand
  | "GENCODE" => lineNone .gencode operand
  | "LOOKUP" => lineWith .lookup s8Literal operand
  | "ENCODE" => lineNone .encode operand
  | "DECODE" => lineNone .decode operand
  | "WALK" => lineWith .walk b1Literal operand
  | "WRST" => lineNone .wrst operand
  | "PUSHSTR" => lineWith .pushstr quotedText operand
  | "PUSHBITS" => lineWith .pushbits quotedText operand
  | "LOADTEXT" => lineWith .loadtext quotedText operand
  | "LOADBITS" => lineWith .loadbits quotedText operand
  | "ROUNDTRIP" => lineWith .roundtrip quotedText operand
  | _ => .error .unknownMnemonic

/-- One line of a script: `MNEMONIC [operand]`, mnemonics not case-sensitive (R99); none for a line with no command. -/
def readLine (cs : List Char) : Except ScriptError (Option ScriptLine) :=
  let line := trimBlanks (stripComment false cs)
  if line.isEmpty then .ok none
  else
    let word := line.takeWhile fun c => !isBlank c
    let operand := trimBlanks (line.dropWhile fun c => !isBlank c)
    match lineOf (String.ofList (word.map Char.toUpper)) operand with
    | .ok l => .ok (some l)
    | .error e => .error e

/-- A script's lines: one command per line (R99). -/
def splitLines : List Char → List Char → List (List Char)
  | [], line => [line.reverse]
  | '\n' :: cs, line => line.reverse :: splitLines cs []
  | c :: cs, line => splitLines cs (c :: line)

/-- The script lines of a list of text lines. DESIGN CHOICE, log 20: one line that cannot be read refuses the whole script. -/
def readLines : List (List Char) → Except ScriptError (List ScriptLine)
  | [] => .ok []
  | cs :: rest =>
    match readLine cs with
    | .error e => .error e
    | .ok l =>
      match readLines rest with
      | .error e => .error e
      | .ok ls => .ok (l.toList ++ ls)

/-- The command words of a script's text (R99, R100). -/
def assembleText (t : String) : Except ScriptError (List Word) :=
  match readLines (splitLines t.toList []) with
  | .error e => .error e
  | .ok ls => assemble ls

/-! ### The source's API (R101) -/

/-- `build_tree(text)` is `LOADTEXT text; BUILD` (R101). -/
def buildTreeScript (t : List Char) : List ScriptLine := [.loadtext t, .build]

/-- `encode(tree, text)` is `GENCODE; LOADTEXT text; ENCODE` (R101). -/
def encodeScript (t : List Char) : List ScriptLine := [.gencode, .loadtext t, .encode]

/-- `decode(tree, bits)` is `LOADBITS bits; DECODE` (R101). -/
def decodeScript (t : List Char) : List ScriptLine := [.loadbits t, .decode]

/-! ### A script as host accesses (R99, R245) -/

/-- The host's wait until STATUS.BUSY = 0 (R245): some STATUS reads before the engine's step, the engine's place, and the STATUS
read that returns BUSY = 0. An idle engine passes its place over, and the one read already returns BUSY = 0. -/
def waitEvents (polls : Nat) : List Event := List.replicate polls (.hostRead 0x008 4) ++ [.engineTurn, .hostRead 0x008 4]

/-- One command of a script: the wait before it (R99, R245), then its CMD write. -/
def commandEvents (polls : Nat) (v : Word) : List Event := waitEvents polls ++ [.hostWrite 0x004 4 0xF v]

/-- The events of a script: each command with the number of STATUS reads in the wait before it, and the wait that ends the
run (R249). -/
def scriptEvents (cmds : List (Nat × Word)) (polls : Nat) : List Event :=
  (cmds.flatMap fun p => commandEvents p.1 p.2) ++ waitEvents polls

/-- What a script's commands do, one after another from an idle state: each is accepted (R203) and runs (R204). -/
def runScript : List Instr → State → Result
  | [], s => .next s
  | i :: is, s =>
    match exec i (s.accept (encode i)) with
    | .next t => runScript is t
    | .fault f => .fault f
    | .refused r => .refused r

/-! ### The end of a run (R249) -/

/-- What has been seen of a script's run: the words whose CMD write is not yet accepted, in order, and whether the run has
ended. -/
structure ScriptWatch where
  left : List Word
  ended : Bool
deriving DecidableEq, Repr

/-- The watch of a script before its run. -/
def watchOf (words : List Word) : ScriptWatch := { left := words, ended := false }

/-- A CMD write of v while BUSY = 0, hence accepted (R203), takes v off the script's words when v is next (log 21). -/
def seeWrite (w : ScriptWatch) (v : Word) : ScriptWatch :=
  match w.left with
  | [] => w
  | x :: xs => if x = v then { w with left := xs } else w

/-- What the next event of a state shows of the run (R249): an accepted CMD write, or, once every word is accepted, a STATUS
read with BUSY = 0, which ends it. -/
def seeEvent (w : ScriptWatch) (s : State) : ScriptWatch :=
  match s.agenda with
  | .hostWrite a size strobes v :: _ =>
    if a = 0x004 ∧ size = 4 ∧ strobes = 0xF ∧ s.busy = false then seeWrite w v else w
  | .hostRead a size :: _ =>
    if a = 0x008 ∧ size = 4 ∧ s.busy = false ∧ w.left = [] then { w with ended := true } else w
  | .engineTurn :: _ | .reset :: _ | [] => w

/-- A number of steps, watched: what was seen of the run, and the state then; none where the machine stops. -/
def watchScript : Nat → ScriptWatch → State → Option (ScriptWatch × State)
  | 0, w, s => some (w, s)
  | n + 1, w, s =>
    match step s with
    | .next t => watchScript n (seeEvent w s) t
    | .fault _ => none
    | .refused _ => none

end Sys2Proof.Machine
end

