-- ==== Sys2Proof/Safety.lean ====
section
/-! DEFINITION. What a good state and a good run are, in the spec's terms: the invariants of spec/10_state.md (R30, R37, R42-R45,
R47, R48) and the relations claims are stated with. -/

namespace Sys2Proof.Machine

/-! ### Trees -/

/-- The branch bits lead from slot i down to slot j, through internal nodes only: 0 to the left child, 1 to the right
(R15, R151). -/
def State.PathTo (s : State) : Slot → List Bool → Slot → Prop
  | i, [], j => i = j
  | i, b :: bs, j => (s.nodeAt i).leaf = false ∧ s.PathTo (s.child i b) bs j

/-- The bits are the root-to-leaf path of symbol x: its code (R151). -/
def State.CodePath (s : State) (bs : List Bool) (x : Sym) : Prop :=
  ∃ j, s.PathTo s.root bs j ∧ (s.nodeAt j).leaf = true ∧ (s.nodeAt j).sym = x

/-- Slot i is a child of the internal node in some slot below m. -/
def UsedBelow (arena : List Node) (m i : Nat) : Prop :=
  ∃ (j : Nat) (n : Node), j < m ∧ arena[j]? = some n ∧ n.leaf = false ∧ (n.left.toNat = i ∨ n.right.toNat = i)

/-- Slot i is a candidate of the merge round that fills slot m: populated, and not yet used as a child (R134, R43). -/
def CandidateAt (arena : List Node) (m i : Nat) : Prop := i < m ∧ ¬ UsedBelow arena m i

/-- The weight in slot i, 0 where the arena has no such slot. -/
def weightAt (arena : List Node) (i : Nat) : Nat :=
  match arena[i]? with
  | some n => n.weight.toNat
  | none => 0

/-- The pair (weight, slot) of i is at most that of j, lexicographically (R11, R134). -/
def KeyLe (arena : List Node) (i j : Nat) : Prop :=
  weightAt arena i < weightAt arena j ∨ (weightAt arena i = weightAt arena j ∧ i ≤ j)

/-- Node n in slot m is what the merge round of slot m makes (R134, R135): an internal node whose right child is the least
candidate and whose left child is the second-least, of the sum of their weights. -/
structure MergedAt (arena : List Node) (m : Nat) (n : Node) : Prop where
  internal : n.leaf = false
  noSym : n.sym = 0
  rightCandidate : CandidateAt arena m n.right.toNat
  rightLeast : ∀ i, CandidateAt arena m i → KeyLe arena n.right.toNat i
  leftCandidate : CandidateAt arena m n.left.toNat
  distinct : n.left ≠ n.right
  leftSecond : ∀ i, CandidateAt arena m i → i ≠ n.right.toNat → KeyLe arena n.left.toNat i
  weight : ∀ l r : Node, arena[n.left.toNat]? = some l → arena[n.right.toNat]? = some r → n.weight = l.weight + r.weight

/-- The arena and ROOT hold a tree (R41-R44, R139). -/
structure State.TreeOk (s : State) : Prop where
  /-- ROOT is the last slot (R42). -/
  rootLast : s.root.toNat + 1 = s.nodes.length
  /-- At most NODE_CAP slots (R7). -/
  countCap : s.nodes.length ≤ Config.nodeCap
  /-- NODE_COUNT = 2k − 1, k the number of leaves (R42). -/
  leafCount : 2 * (s.nodes.countP fun n => n.leaf) = s.nodes.length + 1
  /-- A leaf has no children (R44 a). -/
  leafLinks : ∀ n ∈ s.nodes, n.leaf = true → n.left = Config.nil ∧ n.right = Config.nil
  /-- An internal node has no symbol (R41). -/
  internalSym : ∀ n ∈ s.nodes, n.leaf = false → n.sym = 0
  /-- An internal node's children are two different slots below it (R44 a). -/
  internalLinks : ∀ (i : Nat) (n : Node), s.nodes[i]? = some n → n.leaf = false →
    n.left.toNat < i ∧ n.right.toNat < i ∧ n.left ≠ n.right
  /-- Every slot below the root is the child of exactly one internal node (R44 b); the root is the child of none, since
  children stand below their parents. -/
  oneParent : ∀ j, j + 1 < s.nodes.length →
    ∃ (i : Nat) (n : Node), s.nodes[i]? = some n ∧ n.leaf = false ∧ (n.left.toNat = j ∨ n.right.toNat = j) ∧
      ∀ (i' : Nat) (n' : Node), s.nodes[i']? = some n' → n'.leaf = false → (n'.left.toNat = j ∨ n'.right.toNat = j) → i' = i
  /-- An internal node's weight is the sum of its children's (R44 c, R139 a). -/
  weightSum : ∀ n ∈ s.nodes, n.leaf = false →
    n.weight.toNat = (s.nodeAt n.left).weight.toNat + (s.nodeAt n.right).weight.toNat
  /-- Every weight is positive and at most TEXT_CAP (R139 d). -/
  weightRange : ∀ n ∈ s.nodes, 1 ≤ n.weight.toNat ∧ n.weight.toNat ≤ Config.textCap
  /-- The leaf symbols are pairwise distinct (R44 e). -/
  leafSyms : ∀ (i j : Nat) (m n : Node), s.nodes[i]? = some m → s.nodes[j]? = some n → m.leaf = true → n.leaf = true →
    m.sym = n.sym → i = j
  /-- Every node but the root is consumed (R43). -/
  consumed : ∀ (i : Nat) (n : Node), s.nodes[i]? = some n → (n.consumed = false ↔ i + 1 = s.nodes.length)

/-! ### The machine's invariant -/

/-- The completion flags agree (R25-R27, R31, R33). -/
structure State.StatusOk (s : State) : Prop where
  /-- While BUSY, DONE, ERR, ERRCODE and ERR_INFO are 0 (R203). -/
  busyClear : s.busy = true → s.done = false ∧ s.err = false ∧ s.errCode = .none ∧ s.errInfo = 0
  /-- ERR is set iff ERRCODE is an error's (R27, R31). -/
  errIff : s.err = true ↔ s.errCode ≠ .none
  /-- ERR_INFO is 0 without an error (R33). -/
  infoZero : s.err = false → s.errInfo = 0
  /-- BUSY = 0 with DONE = 0 only after reset, before any command (R26): the HTB then holds its reset values. -/
  fresh : s.busy = false → s.done = false → s = { State.reset with agenda := s.agenda, reply := s.reply, draws := s.draws }

/-- The text, the frequency table and the bit buffer agree (R34, R35, R37-R39). -/
structure State.BuffersOk (s : State) : Prop where
  textCap : s.text.length ≤ Config.textCap
  bitCap : s.bits.length ≤ Config.bitCap
  /-- DECODE consumed bits that are in BITS, and nothing but CLRBITS, ENCODE and CLEAR takes bits away (R39). -/
  bitPos : s.bitPos.toNat ≤ s.bits.length
  /-- FREQ[x] counts x in TEXT (R37). -/
  freqCounts : ∀ x : Sym, (s.freqAt x).toNat = s.text.count x

/-- The tree, the code ROM, the output and the walk register agree (R29, R30, R40, R42, R44, R45, R47, R48). -/
structure State.TreeStateOk (s : State) : Prop where
  /-- TREE_VALID = 1: NODE and ROOT hold a tree (R29, R44). -/
  tree : s.treeValid = true → s.TreeOk
  /-- TREE_VALID = 0: no slot, ROOT 0, no codes, and the walk register all 0 (R42, R30, R47). -/
  noTree : s.treeValid = false → s.nodes = [] ∧ s.root = 0 ∧ s.codesValid = false ∧
    s.walkCur = 0 ∧ s.walkHit = false ∧ s.walkUsed = false ∧ s.walkSym = 0
  /-- CODES_VALID = 1: CODE holds exactly the codes of the tree (R30, R45). -/
  codes : s.codesValid = true → ∀ x : Sym,
    (∀ bs, s.CodePath bs x → (s.codeAt x).present = true ∧ (s.codeAt x).len.toNat = bs.length ∧
      ∀ d, (s.codeAt x).path.getLsbD d = (bs[d]?).getD false) ∧
    ((∀ bs, ¬ s.CodePath bs x) → s.codeAt x = ⟨false, 0, 0⟩)
  /-- WALK_CUR is an internal node of a tree with an internal root, and ROOT on a leaf root (R48). -/
  walkCur : s.treeValid = true → if (s.nodeAt s.root).leaf then s.walkCur = s.root
    else s.walkCur.toNat < s.nodes.length ∧ (s.nodeAt s.walkCur).leaf = false
  /-- WALK_SYM is 0 unless the last WALK reached a leaf (R47). -/
  walkSym : s.walkHit = false → s.walkSym = 0
  /-- The internal memories keep their capacities and CODE its canonical form (R34, R38, R40, R45). -/
  memory : Memory.wf s = true

/-- The invariant of the HTB: every reachable state meets it. -/
structure State.Inv (s : State) : Prop where
  status : s.StatusOk
  buffers : s.BuffersOk
  treeState : s.TreeStateOk

/-! ### Command words -/

/-- What R94 and R95 call illegal: a reserved OP, RSV ≠ 0, an operand on a form NONE, or OPND[7:1] ≠ 0 on a form B1. -/
def IllegalWord (w : Word) : Prop :=
  0x0C < (w.extractLsb' 24 8).toNat ∨
  w.extractLsb' 8 16 ≠ 0 ∨
  ((w.extractLsb' 24 8).toNat ∈ [0x00, 0x01, 0x02, 0x03, 0x06, 0x07, 0x09, 0x0A, 0x0C] ∧ w.extractLsb' 0 8 ≠ 0) ∨
  ((w.extractLsb' 24 8).toNat ∈ [0x05, 0x0B] ∧ w.extractLsb' 1 7 ≠ 0)

/-! ### Host accesses -/

/-- The mapped offsets of R63: the registers and the six windows. -/
def MappedOffset (a : Offset) : Prop :=
  a.toNat < 0x044 ∨ (0x0400 ≤ a.toNat ∧ a.toNat < 0x0600) ∨ (0x1000 ≤ a.toNat ∧ a.toNat < 0x1800) ∨
    (0x2000 ≤ a.toNat ∧ a.toNat < 0x3000) ∨ (0x4000 ≤ a.toNat ∧ a.toNat < 0x6000) ∨
    (0x8000 ≤ a.toNat ∧ a.toNat < 0x9000)

/-- A host read of the word at offset a, as the next event, answers w with OKAY and changes nothing of the HTB. -/
def State.ReadsAs (s : State) (a : Nat) (w : Word) : Prop :=
  ∀ rest, step { s with agenda := .hostRead (BitVec.ofNat 16 a) 4 :: rest } =
    .next { s with agenda := rest, reply := some (.readData w .okay) }

/-! ### Runs -/

/-- Commands run one after another, each to a successful completion; none where one ends in an error or stops. -/
def runOk : List Instr → State → Option State
  | [], s => some s
  | i :: is, s =>
    match exec i s with
    | .next t => if t.err then none else runOk is t
    | .fault _ => none
    | .refused _ => none

/-- WALK over a bit sequence: the WALK_SYM of the steps with WALK_HIT = 1, and the last state (R179). -/
def walkRun : List Bool → State → Option (List Sym × State)
  | [], s => some ([], s)
  | b :: bs, s =>
    match exec (.walk b) s with
    | .next t =>
      match walkRun bs t with
      | some (xs, u) => some (if t.walkHit then t.walkSym :: xs else xs, u)
      | none => none
    | .fault _ => none
    | .refused _ => none

/-! ### Trees of weights (R140) -/

/-- A full binary tree whose leaves carry weights. -/
inductive WeightTree where
  | leaf (w : Nat)
  | node (l r : WeightTree)
deriving DecidableEq, Repr

/-- The leaves' weights, from left to right. -/
def WeightTree.weights : WeightTree → List Nat
  | .leaf w => [w]
  | .node l r => l.weights ++ r.weights

/-- Σ depth(leaf) × weight(leaf) over the leaves, the tree's top at depth d. -/
def WeightTree.costAt : WeightTree → Nat → Nat
  | .leaf w, d => d * w
  | .node l r, d => l.costAt (d + 1) + r.costAt (d + 1)

end Sys2Proof.Machine
end

