-- ==== Sys2Proof/Certificates/Slice0/Obligations.lean ====
section
/-! DEFINITION. The statements about the HTB, from the numbered rules of spec/. A next state is written as a record update of
the state before, so each says what is left unchanged as well. -/

open Sys2Proof Sys2Proof.Machine

/-! ### Encoding (30_encoding.md) -/

/-- Words written out bit by bit from R91 and R93 decode to the commands they stand for, one or two of each family, and words
of R94 and R95 to none. -/
def Obligations.SpecWordsDecode : Prop :=
  decode (0b00000000000000000000000000000000#32) = .ok .nop ∧
  decode (0b00000001000000000000000000000000#32) = .ok .clear ∧
  decode (0b00000100000000000000000001100001#32) = .ok (.pushs 0x61) ∧
  decode (0b00000101000000000000000000000001#32) = .ok (.pushb true) ∧
  decode (0b00000110000000000000000000000000#32) = .ok .build ∧
  decode (0b00001000000000000000000011111111#32) = .ok (.lookup 0xFF) ∧
  decode (0b00001001000000000000000000000000#32) = .ok .encode ∧
  decode (0b00001011000000000000000000000000#32) = .ok (.walk false) ∧
  decode (0b00001100000000000000000000000000#32) = .ok .wrst ∧
  decode (0b00001101000000000000000000000000#32) = .error .reservedOpcode ∧
  decode (0b00000110000000000000000100000000#32) = .error .reservedBits ∧
  decode (0b00000000000000000000000000000001#32) = .error .operandNotZero ∧
  decode (0b00000101000000000000000000000010#32) = .error .operandNotBit

/-- Decoding and encoding are inverse: a word decodes to a command exactly when it is that command's word, for every command
and every operand (R91-R93). -/
def Obligations.DecodeEncodeAgree : Prop :=
  ∀ (w : Word) (i : Instr), decode w = .ok i ↔ encode i = w

/-- R93, row by row: a word w selects mnemonic M iff (w AND mask(M)) = match(M). -/
def Obligations.DecodeFollowsMatchAndMask : Prop :=
  ∀ w : Word,
    (decode w = .ok .nop ↔ w &&& 0xFFFFFFFF = 0x00000000) ∧
    (decode w = .ok .clear ↔ w &&& 0xFFFFFFFF = 0x01000000) ∧
    (decode w = .ok .clrtxt ↔ w &&& 0xFFFFFFFF = 0x02000000) ∧
    (decode w = .ok .clrbits ↔ w &&& 0xFFFFFFFF = 0x03000000) ∧
    ((∃ s, decode w = .ok (.pushs s)) ↔ w &&& 0xFFFFFF00 = 0x04000000) ∧
    ((∃ b, decode w = .ok (.pushb b)) ↔ w &&& 0xFFFFFFFE = 0x05000000) ∧
    (decode w = .ok .build ↔ w &&& 0xFFFFFFFF = 0x06000000) ∧
    (decode w = .ok .gencode ↔ w &&& 0xFFFFFFFF = 0x07000000) ∧
    ((∃ s, decode w = .ok (.lookup s)) ↔ w &&& 0xFFFFFF00 = 0x08000000) ∧
    (decode w = .ok .encode ↔ w &&& 0xFFFFFFFF = 0x09000000) ∧
    (decode w = .ok .decode ↔ w &&& 0xFFFFFFFF = 0x0A000000) ∧
    ((∃ b, decode w = .ok (.walk b)) ↔ w &&& 0xFFFFFFFE = 0x0B000000) ∧
    (decode w = .ok .wrst ↔ w &&& 0xFFFFFFFF = 0x0C000000)

/-- R94, R95: an accepted word with a reserved OP, or breaking its form, completes with ILLEGAL_CMD, ERR_INFO = the word, and has
no other effect; these are exactly the words that match no row. -/
def Obligations.IllegalWordsCompleteWithIllegalCmd : Prop :=
  (∀ (s : State) (rest : List Event), s.busy = true → s.agenda = .engineTurn :: rest → IllegalWord s.lastCmd →
    step s = .next { s with
      agenda := rest, busy := false, done := true, err := true, errCode := .illegalCmd,
      errInfo := s.lastCmd }) ∧
  ∀ w : Word, IllegalWord w ↔ ∀ i, decode w ≠ .ok i

/-! ### Steps, acceptance and host accesses (60_exceptions.md, 20_memory.md) -/

/-- While BUSY = 1 and LAST_CMD decodes to i, the engine's step is exec i: when the engine's turn is next on the agenda, and
when nothing is on it (log 2, 3). -/
def Obligations.StepRunsTheDecodedCommand : Prop :=
  ∀ (s : State) (i : Instr), s.busy = true → decode s.lastCmd = .ok i →
    (s.agenda = [] → step s = exec i s) ∧
    (∀ rest, s.agenda = .engineTurn :: rest → step s = exec i { s with agenda := rest })

/-- The engine has a step iff BUSY = 1 (R204): its turn while BUSY = 0 changes nothing, and an idle machine with nothing on
the agenda keeps its state (the model's choice, log 3). -/
def Obligations.EngineIsIdleUnlessBusy : Prop :=
  ∀ s : State, s.busy = false →
    (s.agenda = [] → step s = .next s) ∧
    (∀ rest, s.agenda = .engineTurn :: rest → step s = .next { s with agenda := rest })

/-- R203, R67: a CMD write while BUSY = 0 is accepted, whatever the word; one while BUSY = 1 is dropped and sets OVR; both get
OKAY. -/
def Obligations.CommandWriteIsAcceptedOrDropped : Prop :=
  ∀ (s : State) (v : Word) (rest : List Event), s.agenda = .hostWrite 0x004 4 0xF v :: rest →
    (s.busy = false → step s = .next { s with
      agenda := rest, reply := some (.writeResp .okay), lastCmd := v, busy := true,
      done := false, err := false, errCode := .none, errInfo := 0 }) ∧
    (s.busy = true → step s = .next { s with agenda := rest, reply := some (.writeResp .okay), ovr := true })

/-- R28, R66: a STATUS write of v sets OVR to 0 iff v[3] = 1 and does nothing else, busy or not; OVR becomes 1 by a CMD write
while BUSY = 1 and by nothing else, and 0 only by such a STATUS write or reset, which clears it. -/
def Obligations.OverrunIsSticky : Prop :=
  (∀ (s : State) (v : Word) (rest : List Event), s.agenda = .hostWrite 0x008 4 0xF v :: rest →
    step s = .next { s with
      agenda := rest, reply := some (.writeResp .okay),
      ovr := if v.getLsbD 3 then false else s.ovr }) ∧
  (∀ (s t : State) (v : Word) (rest : List Event), s.busy = true → s.agenda = .hostWrite 0x004 4 0xF v :: rest →
    step s = .next t → t.ovr = true) ∧
  (∀ s t : State, step s = .next t → s.ovr = false → t.ovr = true →
    s.busy = true ∧ ∃ v rest, s.agenda = .hostWrite 0x004 4 0xF v :: rest) ∧
  (∀ s t : State, step s = .next t → s.ovr = true → t.ovr = false →
    (∃ v rest, s.agenda = .hostWrite 0x008 4 0xF v :: rest ∧ v.getLsbD 3 = true) ∨ ∃ rest, s.agenda = .reset :: rest) ∧
  ∀ (s t : State) (rest : List Event), s.agenda = .reset :: rest → step s = .next t → t.ovr = false

/-- R65: a write to a mapped offset other than CMD and STATUS is ignored and gets OKAY; a read of any mapped offset changes
no state of the HTB (the port's answer and the draw counter are the model's own, log 4, 5). -/
def Obligations.OnlyCmdAndStatusWritesAct : Prop :=
  ∀ (s : State) (a : Offset) (rest : List Event), a.toNat % 4 = 0 → MappedOffset a →
    (∀ v, a ≠ 0x004 → a ≠ 0x008 → s.agenda = .hostWrite a 4 0xF v :: rest →
      step s = .next { s with agenda := rest, reply := some (.writeResp .okay) }) ∧
    (s.agenda = .hostRead a 4 :: rest →
      ∃ d n, step s = .next { s with agenda := rest, reply := some (.readData d .okay), draws := n })

/-- R62: a misaligned access, one that is not 32 bits wide, a write with a strobe missing, and an access to an unmapped offset
get ERROR, read data 0, and have no effect. -/
def Obligations.BadAccessesGetError : Prop :=
  ∀ (s : State) (a : Offset) (size : Nat) (rest : List Event),
    (s.agenda = .hostRead a size :: rest → (a.toNat % 4 ≠ 0 ∨ size ≠ 4 ∨ ¬ MappedOffset a) →
      step s = .next { s with agenda := rest, reply := some (.readData 0 .error) }) ∧
    (∀ strobes v, s.agenda = .hostWrite a size strobes v :: rest →
      (a.toNat % 4 ≠ 0 ∨ size ≠ 4 ∨ strobes ≠ 0xF ∨ ¬ MappedOffset a) →
      step s = .next { s with agenda := rest, reply := some (.writeResp .error) })

/-- R72: while BUSY = 1, ID, CMD and STATUS read their current value; any other mapped offset reads a value nothing constrains
(the free value Config.busyRead, a fresh one each time, log 5), with OKAY. -/
def Obligations.BusyReadsAreDraws : Prop :=
  ∀ s : State, s.busy = true →
    s.ReadsAs 0x000 0x48554646 ∧ s.ReadsAs 0x004 s.lastCmd ∧ s.ReadsAs 0x008 s.status ∧
    ∀ (a : Offset) (rest : List Event), a.toNat % 4 = 0 → MappedOffset a → 0x008 < a.toNat →
      s.agenda = .hostRead a 4 :: rest →
      step s = .next { s with
        agenda := rest, reply := some (.readData (Config.busyRead s.draws) .okay),
        draws := s.draws + 1 }

/-- R61: TEXT, FREQ, BITS, OUT, NODE and CODE never change at a host access: only in an engine step of one of the nine commands
the rule names, or at reset. -/
def Obligations.MemoriesChangeOnlyByCommands : Prop :=
  ∀ s t : State, step s = .next t →
    (t.text = s.text ∧ t.freq = s.freq ∧ t.bits = s.bits ∧ t.out = s.out ∧ t.nodes = s.nodes ∧ t.code = s.code) ∨
    (∃ rest, s.agenda = .reset :: rest) ∨
    (s.busy = true ∧ (s.agenda = [] ∨ ∃ rest, s.agenda = .engineTurn :: rest) ∧
      ∃ i, decode s.lastCmd = .ok i ∧
        ((∃ x, i = .pushs x) ∨ (∃ b, i = .pushb b) ∨
          i ∈ [.build, .gencode, .encode, .decode, .clrtxt, .clrbits, .clear]))

/-- STATUS packs the flags (R25-R32, R63): [0] BUSY, [1] DONE, [2] ERR, [3] OVR, [4] TREE_VALID, [5] CODES_VALID, [11:8] ERRCODE,
the other bits 0, with the codes of R201. -/
def Obligations.StatusPacksTheFlags : Prop :=
  ∀ s : State,
    s.status.getLsbD 0 = s.busy ∧ s.status.getLsbD 1 = s.done ∧ s.status.getLsbD 2 = s.err ∧
    s.status.getLsbD 3 = s.ovr ∧ s.status.getLsbD 4 = s.treeValid ∧ s.status.getLsbD 5 = s.codesValid ∧
    s.status.extractLsb' 6 2 = 0 ∧ s.status.extractLsb' 12 20 = 0 ∧
    s.status.extractLsb' 8 4 = (match s.errCode with
      | .none => 0 | .invalidInput => 1 | .notEncodable => 2 | .symbolRange => 3 | .symbolAbsent => 4 | .noTree => 5
      | .noCodes => 6 | .textFull => 7 | .bitsFull => 8 | .bitsUnderrun => 9 | .illegalCmd => 10)

/-- The registers of R63, read while BUSY = 0; WALK's fields are [7:0] WALK_CUR, [8] WALK_HIT, [9] WALK_USED, [22:16] WALK_SYM. -/
def Obligations.IdleRegisterReads : Prop :=
  ∀ s : State, s.busy = false →
    s.ReadsAs 0x000 0x48554646 ∧ s.ReadsAs 0x004 s.lastCmd ∧ s.ReadsAs 0x008 s.status ∧ s.ReadsAs 0x00C s.errInfo ∧
    s.ReadsAs 0x010 (BitVec.ofNat 32 s.text.length) ∧ s.ReadsAs 0x014 (BitVec.ofNat 32 s.distinct) ∧
    s.ReadsAs 0x018 (BitVec.ofNat 32 s.bits.length) ∧ s.ReadsAs 0x01C (BitVec.ofNat 32 s.bitPos.toNat) ∧
    s.ReadsAs 0x020 (BitVec.ofNat 32 s.out.length) ∧ s.ReadsAs 0x024 (BitVec.ofNat 32 s.nodes.length) ∧
    s.ReadsAs 0x028 (BitVec.ofNat 32 s.root.toNat) ∧
    (∃ w : Word, s.ReadsAs 0x02C w ∧ w.extractLsb' 0 8 = s.walkCur ∧ w.getLsbD 8 = s.walkHit ∧
      w.getLsbD 9 = s.walkUsed ∧ w.extractLsb' 10 6 = 0 ∧ w.extractLsb' 16 7 = s.walkSym ∧ w.extractLsb' 23 9 = 0) ∧
    s.ReadsAs 0x030 (BitVec.ofNat 32 s.resLen.toNat) ∧ s.ReadsAs 0x034 (s.resPath.extractLsb' 0 32) ∧
    s.ReadsAs 0x038 (s.resPath.extractLsb' 32 32) ∧ s.ReadsAs 0x03C (s.resPath.extractLsb' 64 32) ∧
    s.ReadsAs 0x040 (s.resPath.extractLsb' 96 32)

/-- R36: DISTINCT is the count of the symbols x with FREQ[x] > 0, a number in 0..128, and 0 after reset. -/
def Obligations.DistinctCountsUsedSymbols : Prop :=
  (∀ s : State, s.distinct = (Finset.univ.filter fun x : Sym => s.freqAt x ≠ 0).card ∧ s.distinct ≤ 128) ∧
  State.reset.distinct = 0

/-- R68: the word at 0x400 + 4·x reads FREQ[x]. -/
def Obligations.FreqWindowReads : Prop :=
  ∀ (s : State) (x : Sym), s.busy = false → s.ReadsAs (0x0400 + 4 * x.toNat) (s.freqAt x)

/-- R69: slot i of the NODE window reads the node's weight and its packed word when the tree is valid and i < NODE_COUNT,
and 0 otherwise; slot 255 reads 0. -/
def Obligations.NodeWindowReads : Prop :=
  ∀ (s : State) (i : Nat), s.busy = false → i < 256 →
    (∀ n, s.treeValid = true → i < 255 → s.nodes[i]? = some n →
      s.ReadsAs (0x1000 + 8 * i) n.weight ∧
      ∃ w : Word, s.ReadsAs (0x1000 + 8 * i + 4) w ∧ w.getLsbD 31 = true ∧ w.getLsbD 30 = n.leaf ∧
        w.getLsbD 29 = n.consumed ∧ w.extractLsb' 23 6 = 0 ∧ w.extractLsb' 16 7 = n.sym ∧
        w.extractLsb' 8 8 = n.left ∧ w.extractLsb' 0 8 = n.right) ∧
    ((s.treeValid = false ∨ s.nodes.length ≤ i ∨ i = 255) →
      s.ReadsAs (0x1000 + 8 * i) 0 ∧ s.ReadsAs (0x1000 + 8 * i + 4) 0)

/-- R70: the eight words of CODE[x]: present in [31] and len in [7:0], the four path words, three reserved words that read
0; all 0 while CODES_VALID = 0. -/
def Obligations.CodeWindowReads : Prop :=
  ∀ (s : State) (x : Sym), s.busy = false →
    (s.codesValid = true →
      (∃ w : Word, s.ReadsAs (0x2000 + 32 * x.toNat) w ∧ w.getLsbD 31 = (s.codeAt x).present ∧
        w.extractLsb' 8 23 = 0 ∧ w.extractLsb' 0 8 = (s.codeAt x).len) ∧
      (∀ k, k < 4 → s.ReadsAs (0x2000 + 32 * x.toNat + 4 * (k + 1)) ((s.codeAt x).path.extractLsb' (32 * k) 32)) ∧
      (∀ k, 5 ≤ k → k < 8 → s.ReadsAs (0x2000 + 32 * x.toNat + 4 * k) 0)) ∧
    (s.codesValid = false → ∀ k, k < 8 → s.ReadsAs (0x2000 + 32 * x.toNat + 4 * k) 0)

/-- R71: word j of the TEXT window holds TEXT[4j+m] in bits [8m+7:8m], 0 beyond TEXT_LEN; the OUT window likewise. -/
def Obligations.TextAndOutWindowsPack : Prop :=
  ∀ (s : State) (j : Nat), s.busy = false → j < 1024 →
    (∃ w : Word, s.ReadsAs (0x4000 + 4 * j) w ∧ ∀ m, m < 4 →
      (∀ x, s.text[4 * j + m]? = some x → w.extractLsb' (8 * m) 8 = x.setWidth 8) ∧
      (s.text.length ≤ 4 * j + m → w.extractLsb' (8 * m) 8 = 0)) ∧
    (∃ w : Word, s.ReadsAs (0x5000 + 4 * j) w ∧ ∀ m, m < 4 →
      (∀ x, s.out[4 * j + m]? = some x → w.extractLsb' (8 * m) 8 = x.setWidth 8) ∧
      (s.out.length ≤ 4 * j + m → w.extractLsb' (8 * m) 8 = 0))

/-- R73: bit m of word j of the BITS window is BITS[32j+m], and 0 beyond BIT_LEN. -/
def Obligations.BitsWindowPacks : Prop :=
  ∀ (s : State) (j : Nat), s.busy = false → j < 1024 →
    ∃ w : Word, s.ReadsAs (0x8000 + 4 * j) w ∧ ∀ m, m < 32 →
      (∀ b, s.bits[32 * j + m]? = some b → w.getLsbD m = b) ∧ (s.bits.length ≤ 32 * j + m → w.getLsbD m = false)

/-! ### Reset (70_reset_and_hazards.md) -/

/-- R50, R241: reset, busy or not, gives every piece of state its reset value, with none of the writes of a command in
execution; ID reads its constant. -/
def Obligations.ResetGivesResetValues : Prop :=
  ∀ (s : State) (rest : List Event), s.agenda = .reset :: rest →
    ∃ t, step s = .next t ∧
      t.busy = false ∧ t.done = false ∧ t.err = false ∧ t.ovr = false ∧ t.treeValid = false ∧ t.codesValid = false ∧
      t.errCode = .none ∧ t.errInfo = 0 ∧ t.lastCmd = 0 ∧ t.text = [] ∧ (∀ x, t.freqAt x = 0) ∧
      t.bits = [] ∧ t.bitPos = 0 ∧ t.out = [] ∧ t.nodes = [] ∧ t.root = 0 ∧
      (∀ x, t.codeAt x = ⟨false, 0, 0⟩) ∧ t.resLen = 0 ∧ t.resPath = 0 ∧
      t.walkCur = 0 ∧ t.walkHit = false ∧ t.walkUsed = false ∧ t.walkSym = 0 ∧ t.ReadsAs 0x000 0x48554646

/-! ### Frequency Counter and buffers (40_frequency_counter.md) -/

/-- NOP, CLEAR, CLRTXT and CLRBITS complete in every state, each with the writes of its rule and no other. -/
def Obligations.ClearingCommandsComplete : Prop :=
  ∀ s : State,
    exec .nop s = .next { s with busy := false, done := true, err := false, errCode := .none, errInfo := 0 } ∧
    (∃ (f : Vector Word 128) (rom : Vector CodeEntry 128), exec .clear s = .next { s with
        text := [], freq := f, bits := [], bitPos := 0, out := [], treeValid := false,
        nodes := [], root := 0, codesValid := false, code := rom, resLen := 0, resPath := 0, walkCur := 0, walkHit := false,
        walkUsed := false, walkSym := 0, busy := false, done := true, err := false, errCode := .none, errInfo := 0 } ∧
      (∀ k (h : k < 128), f[k] = 0) ∧ ∀ k (h : k < 128), rom[k] = ⟨false, 0, 0⟩) ∧
    (∃ f : Vector Word 128, exec .clrtxt s = .next { s with
        text := [], freq := f, busy := false, done := true, err := false,
        errCode := .none, errInfo := 0 } ∧ ∀ k (h : k < 128), f[k] = 0) ∧
    exec .clrbits s = .next { s with
      bits := [], bitPos := 0, busy := false, done := true, err := false,
      errCode := .none, errInfo := 0 }

/-- PUSHS of a symbol below 128, TEXT not full: the symbol is appended and counted, and nothing else changes (R114). PUSHB with
BITS not full appends its bit; BIT_POS and everything else stay (R115). -/
def Obligations.PushesAppend : Prop :=
  (∀ (s : State) (x : BitVec 8), x.toNat < 128 → s.text.length ≠ 4096 →
    ∃ f : Vector Word 128, exec (.pushs x) s = .next { s with
        text := s.text ++ [x.setWidth 7], freq := f, busy := false, done := true,
        err := false, errCode := .none, errInfo := 0 } ∧
      ∀ k (h : k < 128), f[k] = if k = x.toNat then s.freq[k] + 1 else s.freq[k]) ∧
  ∀ (s : State) (b : Bool), s.bits.length ≠ 32768 →
    exec (.pushb b) s = .next { s with
      bits := s.bits ++ [b], busy := false, done := true, err := false,
      errCode := .none, errInfo := 0 }

/-- R118: PUSHS of a value of 128 or more changes no data and completes with SYMBOL_RANGE, ERR_INFO = the value; LOOKUP, with
a tree and codes, refuses the same range. -/
def Obligations.SymbolsAbove127AreRefused : Prop :=
  ∀ (s : State) (x : BitVec 8), 128 ≤ x.toNat →
    exec (.pushs x) s = .next { s with
      busy := false, done := true, err := true, errCode := .symbolRange,
      errInfo := BitVec.ofNat 32 x.toNat } ∧
    (s.treeValid = true → s.codesValid = true →
      exec (.lookup x) s = .next { s with
        busy := false, done := true, err := true, errCode := .symbolRange,
        errInfo := BitVec.ofNat 32 x.toNat })

/-- The capacity errors (R201, R202, R8): TEXT_FULL of PUSHS, BITS_FULL of PUSHB and of ENCODE, with the count that was full or
the length required. -/
def Obligations.CapacityErrors : Prop :=
  ∀ s : State,
    (∀ x : BitVec 8, x.toNat < 128 → s.text.length = 4096 →
      exec (.pushs x) s = .next { s with
        busy := false, done := true, err := true, errCode := .textFull,
        errInfo := 0x1000 }) ∧
    (∀ b, s.bits.length = 32768 →
      exec (.pushb b) s = .next { s with
        busy := false, done := true, err := true, errCode := .bitsFull,
        errInfo := 0x8000 }) ∧
    (∀ total, s.treeValid = true → s.codesValid = true → 2 ≤ s.text.length → (∀ x ∈ s.text, (s.codeAt x).present = true) →
      total = (s.text.map fun x => (s.codeAt x).len.toNat).sum → 32768 < total →
      exec .encode s = .next { s with
        busy := false, done := true, err := true, errCode := .bitsFull,
        errInfo := BitVec.ofNat 32 total })

/-! ### Tree Builder (41_tree_builder.md) -/

/-- R131: BUILD of an empty text completes with INVALID_INPUT, ERR_INFO 0, and no other change. -/
def Obligations.BuildOfEmptyTextFails : Prop :=
  ∀ s : State, s.text = [] →
    exec .build s = .next { s with busy := false, done := true, err := true, errCode := .invalidInput, errInfo := 0 }

/-- R138: BUILD of a non-empty text completes; it writes the tree, sets TREE_VALID, clears CODES_VALID, puts the walk at the new
root, and changes nothing else; two BUILDs from equal TEXT_LEN and FREQ make one tree. A text has some FREQ > 0 (R37); where
none has, the model's leaf is a free value (log 6). -/
def Obligations.BuildDependsOnLengthAndFreq : Prop :=
  ∀ s s' : State, s.text ≠ [] → s.text.length = s'.text.length → s.freq = s'.freq → (∃ x, s.freqAt x ≠ 0) →
    ∃ arena rt,
      exec .build s = .next { s with
        nodes := arena, root := rt, treeValid := true, codesValid := false, walkCur := rt,
        walkHit := false, walkUsed := false, walkSym := 0, busy := false, done := true, err := false, errCode := .none,
        errInfo := 0 } ∧
      exec .build s' = .next { s' with
        nodes := arena, root := rt, treeValid := true, codesValid := false, walkCur := rt,
        walkHit := false, walkUsed := false, walkSym := 0, busy := false, done := true, err := false, errCode := .none,
        errInfo := 0 }

/-- R133: with one distinct symbol x, BUILD writes one slot: leaf x of weight TEXT_LEN (which is FREQ[x] where the buffers
agree, R37), unconsumed; NODE_COUNT = 1 and ROOT = 0. -/
def Obligations.DegenerateTreeIsOneLeaf : Prop :=
  ∀ (s : State) (x : Sym), s.text ≠ [] → s.freqAt x ≠ 0 → (∀ y, s.freqAt y ≠ 0 → y = x) →
    exec .build s = .next { s with
      nodes := [⟨true, x, BitVec.ofNat 32 s.text.length, 0xFF, 0xFF, false⟩],
      root := 0, treeValid := true, codesValid := false, walkCur := 0, walkHit := false, walkUsed := false,
      walkSym := 0, busy := false, done := true, err := false, errCode := .none, errInfo := 0 } ∧
    (s.BuffersOk → BitVec.ofNat 32 s.text.length = s.freqAt x)

/-- R132: for k ≥ 2 distinct symbols, slots 0..k−1 hold the k leaves, one per symbol with FREQ > 0, in ascending order of
symbol, each with its occurrence count. -/
def Obligations.LeafSlotsAscend : Prop :=
  ∀ s : State, s.text ≠ [] → 2 ≤ s.distinct →
    ∃ t, exec .build s = .next t ∧
      (∀ j, j < s.distinct → ∃ n, t.nodes[j]? = some n ∧ n.leaf = true ∧ n.weight = s.freqAt n.sym ∧
        n.left = 0xFF ∧ n.right = 0xFF) ∧
      (∀ i j m n, i < j → j < s.distinct → t.nodes[i]? = some m → t.nodes[j]? = some n → m.sym.toNat < n.sym.toNat) ∧
      (∀ x, s.freqAt x ≠ 0 ↔ ∃ j n, j < s.distinct ∧ t.nodes[j]? = some n ∧ n.sym = x)

/-- R136, R137: for k ≥ 2, slots k..2k−2 hold the merged nodes in merge order, each of the least (right) and the second-least
(left) candidate of its round (R134, R135); NODE_COUNT = 2k−1, ROOT = 2k−2, and only the root is unconsumed. -/
def Obligations.BuildMergesTheLeastPair : Prop :=
  ∀ s : State, s.text ≠ [] → 2 ≤ s.distinct →
    ∃ t, exec .build s = .next t ∧ t.nodes.length = 2 * s.distinct - 1 ∧ t.root.toNat = 2 * s.distinct - 2 ∧
      (∀ m n, s.distinct ≤ m → t.nodes[m]? = some n → MergedAt t.nodes m n) ∧
      (∀ m n, t.nodes[m]? = some n → (n.consumed = false ↔ m = 2 * s.distinct - 2))

/-- R139: after a successful BUILD the structural invariants hold, the root's weight is TEXT_LEN, every leaf's weight is FREQ of
its symbol, and every weight lies in 1..TEXT_LEN. -/
def Obligations.BuildConservesWeight : Prop :=
  ∀ s : State, s.BuffersOk → s.text ≠ [] →
    ∃ t, exec .build s = .next t ∧ t.TreeOk ∧ (t.nodeAt t.root).weight.toNat = s.text.length ∧
      (∀ n ∈ t.nodes, n.leaf = true → n.weight = s.freqAt n.sym) ∧
      (∀ n ∈ t.nodes, 1 ≤ n.weight.toNat ∧ n.weight.toNat ≤ s.text.length)

/-- R140: among all full binary trees whose leaves carry the weights of the text's symbols, the built tree minimises
Σ depth(leaf) × weight(leaf): here with the depths GENCODE records. -/
def Obligations.BuiltTreeIsOptimal : Prop :=
  ∀ (s : State) (T : WeightTree), s.BuffersOk → s.text ≠ [] →
    T.weights.Perm (s.usedSyms.map fun x => (s.freqAt x).toNat) →
    ∃ t g, exec .build s = .next t ∧ exec .gencode t = .next g ∧
      (s.usedSyms.map fun x => (g.codeAt x).len.toNat * (s.freqAt x).toNat).sum ≤ T.costAt 0

/-! ### Code Mapper (42_code_mapper.md) -/

/-- R151-R153: GENCODE on a valid tree completes; CODE[x] is the root-to-leaf path of x, its length the depth, the bit of depth
d in path bit d and 0 from the length on; a symbol with no leaf gets (0, 0, 0); nothing else changes. -/
def Obligations.GencodeRecordsThePaths : Prop :=
  ∀ s : State, s.Inv → s.treeValid = true →
    ∃ rom : Vector CodeEntry 128, exec .gencode s = .next { s with
        code := rom, codesValid := true, busy := false, done := true, err := false,
        errCode := .none, errInfo := 0 } ∧
      (∀ (x : Sym) bs, s.CodePath bs x → ∃ e, rom[x.toNat]? = some e ∧ e.present = true ∧ e.len.toNat = bs.length ∧
        ∀ d, e.path.getLsbD d = (bs[d]?).getD false) ∧
      (∀ x : Sym, (∃ n ∈ s.nodes, n.leaf = true ∧ n.sym = x) ↔ ∃ bs, s.CodePath bs x) ∧
      (∀ x : Sym, (∀ n ∈ s.nodes, n.leaf = true → n.sym ≠ x) → rom[x.toNat]? = some ⟨false, 0, 0⟩)

/-- R154: no present code is a prefix of another present code, and a present code of a tree with an internal root is not
empty. -/
def Obligations.CodesArePrefixFree : Prop :=
  ∀ (s : State) (x y : Sym), s.Inv → s.codesValid = true → (s.codeAt x).present = true →
    ((s.codeAt y).present = true → x ≠ y → ¬ ((s.codeAt x).len.toNat ≤ (s.codeAt y).len.toNat ∧
      ∀ d, d < (s.codeAt x).len.toNat → (s.codeAt x).path.getLsbD d = (s.codeAt y).path.getLsbD d)) ∧
    ((s.nodeAt s.root).leaf = false → 1 ≤ (s.codeAt x).len.toNat)

/-- A tree with k leaves has depth at most k − 1 ≤ 127 (R141): so does every code length. -/
def Obligations.CodeLengthsAreBounded : Prop :=
  ∀ (s : State) (bs : List Bool) (x : Sym), s.Inv → s.treeValid = true → s.CodePath bs x →
    bs.length + 1 ≤ (s.nodes.countP fun n => n.leaf) ∧ bs.length ≤ 127

/-- LOOKUP with a tree and codes, of a symbol below 128: RES is CODE of the symbol when it is present, and SYMBOL_ABSENT with
ERR_INFO = the symbol when it is not (R155, R201, R202). -/
def Obligations.LookupCopiesTheCode : Prop :=
  ∀ (s : State) (x : BitVec 8), s.treeValid = true → s.codesValid = true → x.toNat < 128 →
    ∃ e, s.code[x.toNat]? = some e ∧
      (e.present = true → exec (.lookup x) s = .next { s with
        resLen := e.len, resPath := e.path, busy := false,
        done := true, err := false, errCode := .none, errInfo := 0 }) ∧
      (e.present = false → exec (.lookup x) s = .next { s with
        busy := false, done := true, err := true,
        errCode := .symbolAbsent, errInfo := BitVec.ofNat 32 x.toNat })

/-- R162: ENCODE of a text of two or more present symbols whose codes fit BITS leaves BITS = code(TEXT[0]) ++ code(TEXT[1]) ++ …,
each code path[0], …, path[len − 1], BIT_POS = 0, and nothing else changed. -/
def Obligations.EncodeConcatenatesTheCodes : Prop :=
  ∀ s : State, s.treeValid = true → s.codesValid = true → 2 ≤ s.text.length →
    (∀ x ∈ s.text, (s.codeAt x).present = true) → (s.text.map fun x => (s.codeAt x).len.toNat).sum ≤ 32768 →
    exec .encode s = .next { s with
      bits := s.text.flatMap fun x => (List.range (s.codeAt x).len.toNat).map fun d => (s.codeAt x).path.getLsbD d,
      bitPos := 0, busy := false, done := true, err := false, errCode := .none, errInfo := 0 }

/-- R158, R159: with a tree and codes, ENCODE of fewer than two symbols fails with NOT_ENCODABLE, ERR_INFO = TEXT_LEN; of a longer
text with an absent symbol, with SYMBOL_ABSENT, ERR_INFO = the index of the first one; neither writes a bit. -/
def Obligations.EncodeRefusals : Prop :=
  ∀ s : State, s.treeValid = true → s.codesValid = true →
    (s.text.length < 2 → exec .encode s = .next { s with
      busy := false, done := true, err := true,
      errCode := .notEncodable, errInfo := BitVec.ofNat 32 s.text.length }) ∧
    (∀ i x, 2 ≤ s.text.length → s.text[i]? = some x → (s.codeAt x).present = false →
      (∀ j y, j < i → s.text[j]? = some y → (s.codeAt y).present = true) →
      exec .encode s = .next { s with
        busy := false, done := true, err := true, errCode := .symbolAbsent,
        errInfo := BitVec.ofNat 32 i })

/-- R157: with the codes of a tree that BUILD made from the TEXT and FREQ there are, ENCODE (of two symbols or more, R159)
succeeds, with BIT_LEN = Σ weight over internal nodes = Σ depth × weight over leaves ≤ 7 × TEXT_LEN ≤ 28672. -/
def Obligations.EncodedLengthIsTheInternalWeight : Prop :=
  ∀ b t s : State, b.BuffersOk → exec .build b = .next t → t.err = false →
    s.Inv → s.codesValid = true → s.nodes = t.nodes → s.text = b.text → s.freq = b.freq → 2 ≤ s.text.length →
    ∃ e, exec .encode s = .next e ∧ e.err = false ∧
      e.bits.length = ((s.nodes.filter fun n => !n.leaf).map fun n => n.weight.toNat).sum ∧
      e.bits.length = ((s.nodes.filter fun n => n.leaf).map fun n => (s.codeAt n.sym).len.toNat * n.weight.toNat).sum ∧
      e.bits.length ≤ 7 * s.text.length ∧ 7 * s.text.length ≤ 28672

/-- R161: on a single-leaf tree the one present code has len 0; ENCODE of two or more copies of its symbol succeeds with
BIT_LEN = 0, and DECODE then restores the text without a bit, where it is as long as the root's weight. -/
def Obligations.DegenerateEncodeIsEmpty : Prop :=
  ∀ (s : State), s.Inv → s.codesValid = true → (s.nodeAt s.root).leaf = true →
    (∀ y, (s.codeAt y).present = true ↔ y = (s.nodeAt s.root).sym) ∧ (s.codeAt (s.nodeAt s.root).sym).len = 0 ∧
    (2 ≤ s.text.length → (∀ x ∈ s.text, x = (s.nodeAt s.root).sym) →
      exec .encode s = .next { s with
        bits := [], bitPos := 0, busy := false, done := true, err := false, errCode := .none,
        errInfo := 0 } ∧
      (s.text.length = (s.nodeAt s.root).weight.toNat →
        exec .decode { s with bits := [], bitPos := 0 } = .next { s with
          bits := [], bitPos := 0, out := s.text,
          busy := false, done := true, err := false, errCode := .none, errInfo := 0 }))

/-! ### Decoder (43_decoder.md) -/

/-- R172, with the counts of R171 and R173: on a tree with an internal root, where BITS begins with N root-to-leaf paths, N the root's weight, DECODE emits
their N symbols, BIT_POS is the number of their bits, and the bits left over stay; nothing else changes. -/
def Obligations.DecodeWalksTheTree : Prop :=
  ∀ (s : State) (walks : List (List Bool × Slot)) (rest : List Bool),
    s.treeValid = true → (s.nodeAt s.root).leaf = false → walks.length = (s.nodeAt s.root).weight.toNat →
    (∀ w ∈ walks, s.PathTo s.root w.1 w.2 ∧ (s.nodeAt w.2).leaf = true) →
    s.bits = (walks.flatMap fun w => w.1) ++ rest →
    exec .decode s = .next { s with
      out := walks.map fun w => (s.nodeAt w.2).sym,
      bitPos := BitVec.ofNat 16 (walks.flatMap fun w => w.1).length,
      busy := false, done := true, err := false, errCode := .none, errInfo := 0 }

/-- R174: on a leaf root DECODE emits its symbol weight times and consumes no bit, whatever BITS holds. -/
def Obligations.DegenerateDecodeReadsNoBits : Prop :=
  ∀ s : State, s.treeValid = true → (s.nodeAt s.root).leaf = true →
    exec .decode s = .next { s with
      out := List.replicate (s.nodeAt s.root).weight.toNat (s.nodeAt s.root).sym,
      bitPos := 0, busy := false, done := true, err := false, errCode := .none, errInfo := 0 }

/-- R175: where BITS is m < N root-to-leaf paths and then a walk that stops at an internal node, DECODE fails with
BITS_UNDERRUN, ERR_INFO = m, and writes no output. -/
def Obligations.DecodeUnderrunCountsWholeSymbols : Prop :=
  ∀ (s : State) (walks : List (List Bool × Slot)) (part : List Bool) (j : Slot),
    s.treeValid = true → walks.length < (s.nodeAt s.root).weight.toNat →
    (∀ w ∈ walks, s.PathTo s.root w.1 w.2 ∧ (s.nodeAt w.2).leaf = true) →
    s.PathTo s.root part j → (s.nodeAt j).leaf = false → s.bits = (walks.flatMap fun w => w.1) ++ part →
    exec .decode s = .next { s with
      busy := false, done := true, err := true, errCode := .bitsUnderrun,
      errInfo := BitVec.ofNat 32 walks.length }

/-- WALK b with a tree (R176): on a leaf root it reports the one symbol and uses no bit; else it moves to the child of WALK_CUR
that b selects, and on a leaf reports its symbol and returns to ROOT; nothing else changes. -/
def Obligations.WalkTakesOneStep : Prop :=
  ∀ (s : State) (b : Bool) (nxt : Slot), s.treeValid = true →
    nxt = (if b = true then (s.nodeAt s.walkCur).right else (s.nodeAt s.walkCur).left) →
    ((s.nodeAt s.root).leaf = true →
      exec (.walk b) s = .next { s with
        walkHit := true, walkUsed := false, walkSym := (s.nodeAt s.root).sym,
        walkCur := s.root, busy := false, done := true, err := false, errCode := .none, errInfo := 0 }) ∧
    ((s.nodeAt s.root).leaf = false → (s.nodeAt nxt).leaf = true →
      exec (.walk b) s = .next { s with
        walkHit := true, walkUsed := true, walkSym := (s.nodeAt nxt).sym,
        walkCur := s.root, busy := false, done := true, err := false, errCode := .none, errInfo := 0 }) ∧
    ((s.nodeAt s.root).leaf = false → (s.nodeAt nxt).leaf = false →
      exec (.walk b) s = .next { s with
        walkHit := false, walkUsed := true, walkSym := 0, walkCur := nxt,
        busy := false, done := true, err := false, errCode := .none, errInfo := 0 })

/-- WRST with a tree puts the walk register back at the root and changes nothing else (R177). -/
def Obligations.WrstReturnsToTheRoot : Prop :=
  ∀ s : State, s.treeValid = true →
    exec .wrst s = .next { s with
      walkCur := s.root, walkHit := false, walkUsed := false, walkSym := 0, busy := false,
      done := true, err := false, errCode := .none, errInfo := 0 }

/-- R179: after a successful DECODE on a tree with an internal root, WRST and then WALK of the consumed bits hits exactly
the symbols of OUT, in order; the last step hits, and WALK_CUR ends at ROOT. -/
def Obligations.WalkAgreesWithDecode : Prop :=
  ∀ s t : State, s.Inv → (s.nodeAt s.root).leaf = false → exec .decode s = .next t → t.err = false →
    ∃ w u, exec .wrst t = .next w ∧ walkRun (t.bits.take t.bitPos.toNat) w = some (t.out, u) ∧
      u.walkHit = true ∧ u.walkCur = t.root

/-- R178, the round trip: for every text of 2..4096 symbols, CLEAR, PUSHS of each symbol, BUILD, GENCODE, ENCODE and DECODE all
complete without error from every state, and end with OUT = the text and BIT_POS = BIT_LEN. -/
def Obligations.RoundTripRestoresTheText : Prop :=
  ∀ (s : State) (t : List Sym), 2 ≤ t.length → t.length ≤ 4096 →
    ∃ d, runOk (.clear :: ((t.map fun x => .pushs (x.setWidth 8)) ++ [.build, .gencode, .encode, .decode])) s = some d ∧
      d.out = t ∧ d.bitPos.toNat = d.bits.length

/-- With a tree and a text as long as its root weighs (R171), DECODE undoes ENCODE wherever ENCODE succeeds: OUT is TEXT and every
bit is consumed (R178's core, with no bound on the encoded length needed). -/
def Obligations.DecodeUndoesEncode : Prop :=
  ∀ s e : State, s.Inv → s.treeValid = true → s.text.length = (s.nodeAt s.root).weight.toNat →
    exec .encode s = .next e → e.err = false →
    ∃ d, exec .decode e = .next d ∧ d.err = false ∧ d.out = s.text ∧ d.bitPos.toNat = d.bits.length

/-! ### Whole-machine rules (60_exceptions.md, 10_state.md) -/

/-- R205: a command that ends in an error changes BUSY, DONE, ERR, ERRCODE and ERR_INFO alone; so does an illegal word. -/
def Obligations.ErrorsChangeNothingElse : Prop :=
  (∀ (i : Instr) (s t : State), exec i s = .next t → t.err = true →
    t = { s with busy := false, done := true, err := true, errCode := t.errCode, errInfo := t.errInfo }) ∧
  (∀ s t : State, engineStep s = .next t → t.err = true →
    t = { s with busy := false, done := true, err := true, errCode := t.errCode, errInfo := t.errInfo })

/-- R206: every completion leaves BUSY = 0 and DONE = 1; ERRCODE and ERR_INFO are 0 with ERR = 0, and ERR = 1
goes with the code of an error. -/
def Obligations.CompletionSetsTheFlags : Prop :=
  ∀ s t : State, engineStep s = .next t →
    t.busy = false ∧ t.done = true ∧ (t.err = false → t.errCode = .none ∧ t.errInfo = 0) ∧
    (t.err = true → t.errCode ≠ .none)

/-- The "written by" column of R22: what each command may change, and that everything else stays; no command touches OVR or
LAST_CMD (R24, R28). -/
def Obligations.OnlyTheNamedCommandsWrite : Prop :=
  ∀ (i : Instr) (s t : State), exec i s = .next t →
    (t.ovr = s.ovr ∧ t.lastCmd = s.lastCmd ∧ t.agenda = s.agenda ∧ t.reply = s.reply ∧ t.draws = s.draws) ∧
    (i ≠ .build → i ≠ .clear → t.treeValid = s.treeValid ∧ t.nodes = s.nodes ∧ t.root = s.root) ∧
    (i ≠ .gencode → i ≠ .build → i ≠ .clear → t.codesValid = s.codesValid) ∧
    ((∀ x, i ≠ .pushs x) → i ≠ .clrtxt → i ≠ .clear → t.text = s.text ∧ t.freq = s.freq) ∧
    ((∀ b, i ≠ .pushb b) → i ≠ .encode → i ≠ .clrbits → i ≠ .clear → t.bits = s.bits) ∧
    (i ≠ .decode → i ≠ .encode → i ≠ .clrbits → i ≠ .clear → t.bitPos = s.bitPos) ∧
    (i ≠ .decode → i ≠ .clear → t.out = s.out) ∧
    (i ≠ .gencode → i ≠ .clear → t.code = s.code) ∧
    ((∀ x, i ≠ .lookup x) → i ≠ .clear → t.resLen = s.resLen ∧ t.resPath = s.resPath) ∧
    (i ≠ .build → (∀ b, i ≠ .walk b) → i ≠ .wrst → i ≠ .clear →
      t.walkCur = s.walkCur ∧ t.walkHit = s.walkHit ∧ t.walkUsed = s.walkUsed ∧ t.walkSym = s.walkSym)

/-- The checks of R210: the error each command can end in. -/
def Obligations.EachCommandRaisesItsErrors : Prop :=
  ∀ (i : Instr) (s t : State), exec i s = .next t →
    t.errCode ∈ (match i with
      | .nop | .clear | .clrtxt | .clrbits => [ErrCode.none]
      | .pushs _ => [.none, .symbolRange, .textFull]
      | .pushb _ => [.none, .bitsFull]
      | .build => [.none, .invalidInput]
      | .gencode => [.none, .noTree]
      | .lookup _ => [.none, .noTree, .noCodes, .symbolRange, .symbolAbsent]
      | .encode => [.none, .noTree, .noCodes, .notEncodable, .symbolAbsent, .bitsFull]
      | .decode => [.none, .noTree, .bitsUnderrun]
      | .walk _ | .wrst => [.none, .noTree])

/-- The order of R209 between checks that can both apply: an illegal word reports ILLEGAL_CMD in every state; without a tree
every command that needs one reports NO_TREE; with a tree and no codes LOOKUP and ENCODE report NO_CODES, whatever the operand
or text; PUSHS reports SYMBOL_RANGE even when the text is full; ENCODE of fewer than two symbols reports NOT_ENCODABLE, present
or not, and of a longer text with an absent symbol SYMBOL_ABSENT, however long the codes of the others are. -/
def Obligations.EarlierChecksWin : Prop :=
  ∀ s : State,
    (IllegalWord s.lastCmd → engineStep s = .next { s with
      busy := false, done := true, err := true, errCode := .illegalCmd, errInfo := s.lastCmd }) ∧
    (s.treeValid = false → ∀ i : Instr,
      (i = .gencode ∨ (∃ x, i = .lookup x) ∨ i = .encode ∨ i = .decode ∨ (∃ b, i = .walk b) ∨ i = .wrst) →
      exec i s = .next { s with busy := false, done := true, err := true, errCode := .noTree, errInfo := 0 }) ∧
    (s.treeValid = true → s.codesValid = false → ∀ i : Instr, ((∃ x, i = .lookup x) ∨ i = .encode) →
      exec i s = .next { s with busy := false, done := true, err := true, errCode := .noCodes, errInfo := 0 }) ∧
    (∀ x : BitVec 8, 128 ≤ x.toNat → s.text.length = 4096 →
      exec (.pushs x) s = .next { s with
        busy := false, done := true, err := true, errCode := .symbolRange,
        errInfo := BitVec.ofNat 32 x.toNat }) ∧
    (s.treeValid = true → s.codesValid = true → s.text.length < 2 →
      exec .encode s = .next { s with
        busy := false, done := true, err := true, errCode := .notEncodable,
        errInfo := BitVec.ofNat 32 s.text.length }) ∧
    (∀ i x, s.treeValid = true → s.codesValid = true → 2 ≤ s.text.length → s.text[i]? = some x →
      (s.codeAt x).present = false → (∀ j y, j < i → s.text[j]? = some y → (s.codeAt y).present = true) →
      exec .encode s = .next { s with
        busy := false, done := true, err := true, errCode := .symbolAbsent, errInfo := BitVec.ofNat 32 i })

/-! ### Invariants (10_state.md) -/

/-- The state after reset meets the invariant. -/
def Obligations.ResetMeetsTheInvariant : Prop := State.reset.Inv

/-- Every step keeps the completion flags in agreement (R25-R27, R31, R33), with BUSY = 0 and DONE = 0 only in the state after
reset (R26); and, on its own, R37: FREQ[x] counts x in TEXT, and the text and bit buffers keep their capacities. -/
def Obligations.StepKeepsFlagsAndBuffers : Prop :=
  (∀ s t : State, s.StatusOk → step s = .next t → t.StatusOk) ∧
  ∀ s t : State, s.BuffersOk → step s = .next t → t.BuffersOk

/-- Every step keeps the whole invariant: flags, buffers, the tree (R44), the codes (R30, R45) and the walk (R48). -/
def Obligations.StepKeepsTheInvariant : Prop :=
  ∀ s t : State, s.Inv → step s = .next t → t.Inv

/-- In a state that meets the invariant no command stops the machine: each answers a next state, and so does every step
(R204: every command's step terminates). -/
def Obligations.NothingStopsTheMachine : Prop :=
  ∀ s : State, s.Inv → (∀ i, ∃ t, exec i s = .next t) ∧ ∃ t, step s = .next t

/-! ### Scripts (30_encoding.md R99, R100; 70_reset_and_hazards.md R245, R249) -/

/-- The assembler never emits an illegal word (R99), and refuses an S8 literal above 255 and a B1 operand other than 0 or 1. -/
def Obligations.ScriptsAssembleToLegalWords : Prop :=
  (∀ ls ws, assemble ls = .ok ws → ∀ w ∈ ws, ∃ i, decode w = .ok i) ∧
  (∀ n, 255 < n → assembleLine (.pushs n) = .error .refusedOperand ∧ assembleLine (.lookup n) = .error .refusedOperand) ∧
  (∀ n, 1 < n → assembleLine (.pushb n) = .error .refusedOperand ∧ assembleLine (.walk n) = .error .refusedOperand)

/-- What each pseudo-command expands to, and that PUSHBITS refuses any other character (R100). That a character of a text stands
for its code point, up to 255, is the model's choice (log 13, PRESUMED). -/
def Obligations.PseudoCommandsExpand : Prop :=
  (∀ t : List Char, (∀ c ∈ t, c.toNat ≤ 255) →
    assembleLine (.pushstr t) = .ok (t.map fun c => 0x04000000 + BitVec.ofNat 32 c.toNat) ∧
    assembleLine (.loadtext t) = .ok (0x02000000 :: t.map fun c => 0x04000000 + BitVec.ofNat 32 c.toNat) ∧
    assembleLine (.roundtrip t) = .ok (0x01000000 :: (t.map fun c => 0x04000000 + BitVec.ofNat 32 c.toNat) ++
      [0x06000000, 0x07000000, 0x09000000, 0x0A000000])) ∧
  (∀ t : List Char, (∀ c ∈ t, c = '0' ∨ c = '1') →
    assembleLine (.pushbits t) = .ok (t.map fun c => if c = '1' then 0x05000001 else 0x05000000) ∧
    assembleLine (.loadbits t) = .ok (0x03000000 :: t.map fun c => if c = '1' then 0x05000001 else 0x05000000)) ∧
  (∀ t c, c ∈ t → c ≠ '0' → c ≠ '1' →
    assembleLine (.pushbits t) = .error .refusedOperand ∧ assembleLine (.loadbits t) = .error .refusedOperand)

/-- A script, from a busy state or an idle one, waits before each command (R245), so that each is accepted once and runs once, in
order; the run ends at the poll that reads BUSY = 0 after the last write, at no step before it, and leaves the state of that
read (R249). The agenda, the reply and the watch are the model's (log 2, 4, 21). -/
def Obligations.ScriptCommandRunsToItsEnd : Prop :=
  ∀ (s t u : State) (cmds : List (Nat × Instr)) (polls : Nat) (rest : List Event), cmds ≠ [] →
    s.agenda = scriptEvents (cmds.map fun p => (p.1, encode p.2)) polls ++ rest →
    engineTurn s = .next t → runScript (cmds.map fun p => p.2) t = .next u →
    let words := cmds.map fun p => encode p.2
    let n := (cmds.map fun p => p.1 + 3).sum + (polls + 2)
    watchScript n (watchOf words) s =
      some (⟨[], true⟩, { u with agenda := rest, reply := some (.readData u.status .okay) }) ∧
    u.busy = false ∧ u.ovr = s.ovr ∧ u.lastCmd = (words.getLast?).getD s.lastCmd ∧
    ∀ m, m < n → ∃ w v, watchScript m (watchOf words) s = some (w, v) ∧ w.ended = false
end

