-- ==== Sys2Proof/Laws/State.lean ====
section
/-! SUPPORT. One lemma per field of State for each update of it, true by rfl: what the update writes, and that it leaves every
other field alone; then what the updates leave of the reads of the memories. -/

namespace Sys2Proof.Machine

variable (s : State)

/-! ### accept -/

@[simp] theorem State.accept_busy (v : Word) : (s.accept v).busy = true := rfl
@[simp] theorem State.accept_done (v : Word) : (s.accept v).done = false := rfl
@[simp] theorem State.accept_err (v : Word) : (s.accept v).err = false := rfl
@[simp] theorem State.accept_ovr (v : Word) : (s.accept v).ovr = s.ovr := rfl
@[simp] theorem State.accept_treeValid (v : Word) : (s.accept v).treeValid = s.treeValid := rfl
@[simp] theorem State.accept_codesValid (v : Word) : (s.accept v).codesValid = s.codesValid := rfl
@[simp] theorem State.accept_errCode (v : Word) : (s.accept v).errCode = .none := rfl
@[simp] theorem State.accept_errInfo (v : Word) : (s.accept v).errInfo = 0 := rfl
@[simp] theorem State.accept_lastCmd (v : Word) : (s.accept v).lastCmd = v := rfl
@[simp] theorem State.accept_text (v : Word) : (s.accept v).text = s.text := rfl
@[simp] theorem State.accept_freq (v : Word) : (s.accept v).freq = s.freq := rfl
@[simp] theorem State.accept_bits (v : Word) : (s.accept v).bits = s.bits := rfl
@[simp] theorem State.accept_bitPos (v : Word) : (s.accept v).bitPos = s.bitPos := rfl
@[simp] theorem State.accept_out (v : Word) : (s.accept v).out = s.out := rfl
@[simp] theorem State.accept_nodes (v : Word) : (s.accept v).nodes = s.nodes := rfl
@[simp] theorem State.accept_root (v : Word) : (s.accept v).root = s.root := rfl
@[simp] theorem State.accept_code (v : Word) : (s.accept v).code = s.code := rfl
@[simp] theorem State.accept_resLen (v : Word) : (s.accept v).resLen = s.resLen := rfl
@[simp] theorem State.accept_resPath (v : Word) : (s.accept v).resPath = s.resPath := rfl
@[simp] theorem State.accept_walkCur (v : Word) : (s.accept v).walkCur = s.walkCur := rfl
@[simp] theorem State.accept_walkHit (v : Word) : (s.accept v).walkHit = s.walkHit := rfl
@[simp] theorem State.accept_walkUsed (v : Word) : (s.accept v).walkUsed = s.walkUsed := rfl
@[simp] theorem State.accept_walkSym (v : Word) : (s.accept v).walkSym = s.walkSym := rfl
@[simp] theorem State.accept_agenda (v : Word) : (s.accept v).agenda = s.agenda := rfl
@[simp] theorem State.accept_reply (v : Word) : (s.accept v).reply = s.reply := rfl
@[simp] theorem State.accept_draws (v : Word) : (s.accept v).draws = s.draws := rfl

/-! ### overrun -/

@[simp] theorem State.overrun_busy : (s.overrun).busy = s.busy := rfl
@[simp] theorem State.overrun_done : (s.overrun).done = s.done := rfl
@[simp] theorem State.overrun_err : (s.overrun).err = s.err := rfl
@[simp] theorem State.overrun_ovr : (s.overrun).ovr = true := rfl
@[simp] theorem State.overrun_treeValid : (s.overrun).treeValid = s.treeValid := rfl
@[simp] theorem State.overrun_codesValid : (s.overrun).codesValid = s.codesValid := rfl
@[simp] theorem State.overrun_errCode : (s.overrun).errCode = s.errCode := rfl
@[simp] theorem State.overrun_errInfo : (s.overrun).errInfo = s.errInfo := rfl
@[simp] theorem State.overrun_lastCmd : (s.overrun).lastCmd = s.lastCmd := rfl
@[simp] theorem State.overrun_text : (s.overrun).text = s.text := rfl
@[simp] theorem State.overrun_freq : (s.overrun).freq = s.freq := rfl
@[simp] theorem State.overrun_bits : (s.overrun).bits = s.bits := rfl
@[simp] theorem State.overrun_bitPos : (s.overrun).bitPos = s.bitPos := rfl
@[simp] theorem State.overrun_out : (s.overrun).out = s.out := rfl
@[simp] theorem State.overrun_nodes : (s.overrun).nodes = s.nodes := rfl
@[simp] theorem State.overrun_root : (s.overrun).root = s.root := rfl
@[simp] theorem State.overrun_code : (s.overrun).code = s.code := rfl
@[simp] theorem State.overrun_resLen : (s.overrun).resLen = s.resLen := rfl
@[simp] theorem State.overrun_resPath : (s.overrun).resPath = s.resPath := rfl
@[simp] theorem State.overrun_walkCur : (s.overrun).walkCur = s.walkCur := rfl
@[simp] theorem State.overrun_walkHit : (s.overrun).walkHit = s.walkHit := rfl
@[simp] theorem State.overrun_walkUsed : (s.overrun).walkUsed = s.walkUsed := rfl
@[simp] theorem State.overrun_walkSym : (s.overrun).walkSym = s.walkSym := rfl
@[simp] theorem State.overrun_agenda : (s.overrun).agenda = s.agenda := rfl
@[simp] theorem State.overrun_reply : (s.overrun).reply = s.reply := rfl
@[simp] theorem State.overrun_draws : (s.overrun).draws = s.draws := rfl

/-! ### completeOk -/

@[simp] theorem State.completeOk_busy : (s.completeOk).busy = false := rfl
@[simp] theorem State.completeOk_done : (s.completeOk).done = true := rfl
@[simp] theorem State.completeOk_err : (s.completeOk).err = false := rfl
@[simp] theorem State.completeOk_ovr : (s.completeOk).ovr = s.ovr := rfl
@[simp] theorem State.completeOk_treeValid : (s.completeOk).treeValid = s.treeValid := rfl
@[simp] theorem State.completeOk_codesValid : (s.completeOk).codesValid = s.codesValid := rfl
@[simp] theorem State.completeOk_errCode : (s.completeOk).errCode = .none := rfl
@[simp] theorem State.completeOk_errInfo : (s.completeOk).errInfo = 0 := rfl
@[simp] theorem State.completeOk_lastCmd : (s.completeOk).lastCmd = s.lastCmd := rfl
@[simp] theorem State.completeOk_text : (s.completeOk).text = s.text := rfl
@[simp] theorem State.completeOk_freq : (s.completeOk).freq = s.freq := rfl
@[simp] theorem State.completeOk_bits : (s.completeOk).bits = s.bits := rfl
@[simp] theorem State.completeOk_bitPos : (s.completeOk).bitPos = s.bitPos := rfl
@[simp] theorem State.completeOk_out : (s.completeOk).out = s.out := rfl
@[simp] theorem State.completeOk_nodes : (s.completeOk).nodes = s.nodes := rfl
@[simp] theorem State.completeOk_root : (s.completeOk).root = s.root := rfl
@[simp] theorem State.completeOk_code : (s.completeOk).code = s.code := rfl
@[simp] theorem State.completeOk_resLen : (s.completeOk).resLen = s.resLen := rfl
@[simp] theorem State.completeOk_resPath : (s.completeOk).resPath = s.resPath := rfl
@[simp] theorem State.completeOk_walkCur : (s.completeOk).walkCur = s.walkCur := rfl
@[simp] theorem State.completeOk_walkHit : (s.completeOk).walkHit = s.walkHit := rfl
@[simp] theorem State.completeOk_walkUsed : (s.completeOk).walkUsed = s.walkUsed := rfl
@[simp] theorem State.completeOk_walkSym : (s.completeOk).walkSym = s.walkSym := rfl
@[simp] theorem State.completeOk_agenda : (s.completeOk).agenda = s.agenda := rfl
@[simp] theorem State.completeOk_reply : (s.completeOk).reply = s.reply := rfl
@[simp] theorem State.completeOk_draws : (s.completeOk).draws = s.draws := rfl

/-! ### completeErr -/

@[simp] theorem State.completeErr_busy (c : ErrCode) (info : Word) : (s.completeErr c info).busy = false := rfl
@[simp] theorem State.completeErr_done (c : ErrCode) (info : Word) : (s.completeErr c info).done = true := rfl
@[simp] theorem State.completeErr_err (c : ErrCode) (info : Word) : (s.completeErr c info).err = true := rfl
@[simp] theorem State.completeErr_ovr (c : ErrCode) (info : Word) : (s.completeErr c info).ovr = s.ovr := rfl
@[simp] theorem State.completeErr_treeValid (c : ErrCode) (info : Word) : (s.completeErr c info).treeValid = s.treeValid := rfl
@[simp] theorem State.completeErr_codesValid (c : ErrCode) (info : Word) : (s.completeErr c info).codesValid = s.codesValid := rfl
@[simp] theorem State.completeErr_errCode (c : ErrCode) (info : Word) : (s.completeErr c info).errCode = c := rfl
@[simp] theorem State.completeErr_errInfo (c : ErrCode) (info : Word) : (s.completeErr c info).errInfo = info := rfl
@[simp] theorem State.completeErr_lastCmd (c : ErrCode) (info : Word) : (s.completeErr c info).lastCmd = s.lastCmd := rfl
@[simp] theorem State.completeErr_text (c : ErrCode) (info : Word) : (s.completeErr c info).text = s.text := rfl
@[simp] theorem State.completeErr_freq (c : ErrCode) (info : Word) : (s.completeErr c info).freq = s.freq := rfl
@[simp] theorem State.completeErr_bits (c : ErrCode) (info : Word) : (s.completeErr c info).bits = s.bits := rfl
@[simp] theorem State.completeErr_bitPos (c : ErrCode) (info : Word) : (s.completeErr c info).bitPos = s.bitPos := rfl
@[simp] theorem State.completeErr_out (c : ErrCode) (info : Word) : (s.completeErr c info).out = s.out := rfl
@[simp] theorem State.completeErr_nodes (c : ErrCode) (info : Word) : (s.completeErr c info).nodes = s.nodes := rfl
@[simp] theorem State.completeErr_root (c : ErrCode) (info : Word) : (s.completeErr c info).root = s.root := rfl
@[simp] theorem State.completeErr_code (c : ErrCode) (info : Word) : (s.completeErr c info).code = s.code := rfl
@[simp] theorem State.completeErr_resLen (c : ErrCode) (info : Word) : (s.completeErr c info).resLen = s.resLen := rfl
@[simp] theorem State.completeErr_resPath (c : ErrCode) (info : Word) : (s.completeErr c info).resPath = s.resPath := rfl
@[simp] theorem State.completeErr_walkCur (c : ErrCode) (info : Word) : (s.completeErr c info).walkCur = s.walkCur := rfl
@[simp] theorem State.completeErr_walkHit (c : ErrCode) (info : Word) : (s.completeErr c info).walkHit = s.walkHit := rfl
@[simp] theorem State.completeErr_walkUsed (c : ErrCode) (info : Word) : (s.completeErr c info).walkUsed = s.walkUsed := rfl
@[simp] theorem State.completeErr_walkSym (c : ErrCode) (info : Word) : (s.completeErr c info).walkSym = s.walkSym := rfl
@[simp] theorem State.completeErr_agenda (c : ErrCode) (info : Word) : (s.completeErr c info).agenda = s.agenda := rfl
@[simp] theorem State.completeErr_reply (c : ErrCode) (info : Word) : (s.completeErr c info).reply = s.reply := rfl
@[simp] theorem State.completeErr_draws (c : ErrCode) (info : Word) : (s.completeErr c info).draws = s.draws := rfl

/-! ### countSym -/

@[simp] theorem State.countSym_busy (x : Sym) : (s.countSym x).busy = s.busy := rfl
@[simp] theorem State.countSym_done (x : Sym) : (s.countSym x).done = s.done := rfl
@[simp] theorem State.countSym_err (x : Sym) : (s.countSym x).err = s.err := rfl
@[simp] theorem State.countSym_ovr (x : Sym) : (s.countSym x).ovr = s.ovr := rfl
@[simp] theorem State.countSym_treeValid (x : Sym) : (s.countSym x).treeValid = s.treeValid := rfl
@[simp] theorem State.countSym_codesValid (x : Sym) : (s.countSym x).codesValid = s.codesValid := rfl
@[simp] theorem State.countSym_errCode (x : Sym) : (s.countSym x).errCode = s.errCode := rfl
@[simp] theorem State.countSym_errInfo (x : Sym) : (s.countSym x).errInfo = s.errInfo := rfl
@[simp] theorem State.countSym_lastCmd (x : Sym) : (s.countSym x).lastCmd = s.lastCmd := rfl
@[simp] theorem State.countSym_text (x : Sym) : (s.countSym x).text = s.text := rfl
@[simp] theorem State.countSym_freq (x : Sym) : (s.countSym x).freq = s.freq.set x.toNat (s.freqAt x + 1) x.isLt := rfl
@[simp] theorem State.countSym_bits (x : Sym) : (s.countSym x).bits = s.bits := rfl
@[simp] theorem State.countSym_bitPos (x : Sym) : (s.countSym x).bitPos = s.bitPos := rfl
@[simp] theorem State.countSym_out (x : Sym) : (s.countSym x).out = s.out := rfl
@[simp] theorem State.countSym_nodes (x : Sym) : (s.countSym x).nodes = s.nodes := rfl
@[simp] theorem State.countSym_root (x : Sym) : (s.countSym x).root = s.root := rfl
@[simp] theorem State.countSym_code (x : Sym) : (s.countSym x).code = s.code := rfl
@[simp] theorem State.countSym_resLen (x : Sym) : (s.countSym x).resLen = s.resLen := rfl
@[simp] theorem State.countSym_resPath (x : Sym) : (s.countSym x).resPath = s.resPath := rfl
@[simp] theorem State.countSym_walkCur (x : Sym) : (s.countSym x).walkCur = s.walkCur := rfl
@[simp] theorem State.countSym_walkHit (x : Sym) : (s.countSym x).walkHit = s.walkHit := rfl
@[simp] theorem State.countSym_walkUsed (x : Sym) : (s.countSym x).walkUsed = s.walkUsed := rfl
@[simp] theorem State.countSym_walkSym (x : Sym) : (s.countSym x).walkSym = s.walkSym := rfl
@[simp] theorem State.countSym_agenda (x : Sym) : (s.countSym x).agenda = s.agenda := rfl
@[simp] theorem State.countSym_reply (x : Sym) : (s.countSym x).reply = s.reply := rfl
@[simp] theorem State.countSym_draws (x : Sym) : (s.countSym x).draws = s.draws := rfl

/-! ### appendSym -/

@[simp] theorem State.appendSym_busy (x : Sym) : (s.appendSym x).busy = s.busy := rfl
@[simp] theorem State.appendSym_done (x : Sym) : (s.appendSym x).done = s.done := rfl
@[simp] theorem State.appendSym_err (x : Sym) : (s.appendSym x).err = s.err := rfl
@[simp] theorem State.appendSym_ovr (x : Sym) : (s.appendSym x).ovr = s.ovr := rfl
@[simp] theorem State.appendSym_treeValid (x : Sym) : (s.appendSym x).treeValid = s.treeValid := rfl
@[simp] theorem State.appendSym_codesValid (x : Sym) : (s.appendSym x).codesValid = s.codesValid := rfl
@[simp] theorem State.appendSym_errCode (x : Sym) : (s.appendSym x).errCode = s.errCode := rfl
@[simp] theorem State.appendSym_errInfo (x : Sym) : (s.appendSym x).errInfo = s.errInfo := rfl
@[simp] theorem State.appendSym_lastCmd (x : Sym) : (s.appendSym x).lastCmd = s.lastCmd := rfl
@[simp] theorem State.appendSym_text (x : Sym) : (s.appendSym x).text = s.text ++ [x] := rfl
@[simp] theorem State.appendSym_freq (x : Sym) : (s.appendSym x).freq = s.freq := rfl
@[simp] theorem State.appendSym_bits (x : Sym) : (s.appendSym x).bits = s.bits := rfl
@[simp] theorem State.appendSym_bitPos (x : Sym) : (s.appendSym x).bitPos = s.bitPos := rfl
@[simp] theorem State.appendSym_out (x : Sym) : (s.appendSym x).out = s.out := rfl
@[simp] theorem State.appendSym_nodes (x : Sym) : (s.appendSym x).nodes = s.nodes := rfl
@[simp] theorem State.appendSym_root (x : Sym) : (s.appendSym x).root = s.root := rfl
@[simp] theorem State.appendSym_code (x : Sym) : (s.appendSym x).code = s.code := rfl
@[simp] theorem State.appendSym_resLen (x : Sym) : (s.appendSym x).resLen = s.resLen := rfl
@[simp] theorem State.appendSym_resPath (x : Sym) : (s.appendSym x).resPath = s.resPath := rfl
@[simp] theorem State.appendSym_walkCur (x : Sym) : (s.appendSym x).walkCur = s.walkCur := rfl
@[simp] theorem State.appendSym_walkHit (x : Sym) : (s.appendSym x).walkHit = s.walkHit := rfl
@[simp] theorem State.appendSym_walkUsed (x : Sym) : (s.appendSym x).walkUsed = s.walkUsed := rfl
@[simp] theorem State.appendSym_walkSym (x : Sym) : (s.appendSym x).walkSym = s.walkSym := rfl
@[simp] theorem State.appendSym_agenda (x : Sym) : (s.appendSym x).agenda = s.agenda := rfl
@[simp] theorem State.appendSym_reply (x : Sym) : (s.appendSym x).reply = s.reply := rfl
@[simp] theorem State.appendSym_draws (x : Sym) : (s.appendSym x).draws = s.draws := rfl

/-! ### clearText -/

@[simp] theorem State.clearText_busy : (s.clearText).busy = s.busy := rfl
@[simp] theorem State.clearText_done : (s.clearText).done = s.done := rfl
@[simp] theorem State.clearText_err : (s.clearText).err = s.err := rfl
@[simp] theorem State.clearText_ovr : (s.clearText).ovr = s.ovr := rfl
@[simp] theorem State.clearText_treeValid : (s.clearText).treeValid = s.treeValid := rfl
@[simp] theorem State.clearText_codesValid : (s.clearText).codesValid = s.codesValid := rfl
@[simp] theorem State.clearText_errCode : (s.clearText).errCode = s.errCode := rfl
@[simp] theorem State.clearText_errInfo : (s.clearText).errInfo = s.errInfo := rfl
@[simp] theorem State.clearText_lastCmd : (s.clearText).lastCmd = s.lastCmd := rfl
@[simp] theorem State.clearText_text : (s.clearText).text = [] := rfl
@[simp] theorem State.clearText_freq : (s.clearText).freq = Vector.replicate 128 0 := rfl
@[simp] theorem State.clearText_bits : (s.clearText).bits = s.bits := rfl
@[simp] theorem State.clearText_bitPos : (s.clearText).bitPos = s.bitPos := rfl
@[simp] theorem State.clearText_out : (s.clearText).out = s.out := rfl
@[simp] theorem State.clearText_nodes : (s.clearText).nodes = s.nodes := rfl
@[simp] theorem State.clearText_root : (s.clearText).root = s.root := rfl
@[simp] theorem State.clearText_code : (s.clearText).code = s.code := rfl
@[simp] theorem State.clearText_resLen : (s.clearText).resLen = s.resLen := rfl
@[simp] theorem State.clearText_resPath : (s.clearText).resPath = s.resPath := rfl
@[simp] theorem State.clearText_walkCur : (s.clearText).walkCur = s.walkCur := rfl
@[simp] theorem State.clearText_walkHit : (s.clearText).walkHit = s.walkHit := rfl
@[simp] theorem State.clearText_walkUsed : (s.clearText).walkUsed = s.walkUsed := rfl
@[simp] theorem State.clearText_walkSym : (s.clearText).walkSym = s.walkSym := rfl
@[simp] theorem State.clearText_agenda : (s.clearText).agenda = s.agenda := rfl
@[simp] theorem State.clearText_reply : (s.clearText).reply = s.reply := rfl
@[simp] theorem State.clearText_draws : (s.clearText).draws = s.draws := rfl

/-! ### appendBit -/

@[simp] theorem State.appendBit_busy (b : Bool) : (s.appendBit b).busy = s.busy := rfl
@[simp] theorem State.appendBit_done (b : Bool) : (s.appendBit b).done = s.done := rfl
@[simp] theorem State.appendBit_err (b : Bool) : (s.appendBit b).err = s.err := rfl
@[simp] theorem State.appendBit_ovr (b : Bool) : (s.appendBit b).ovr = s.ovr := rfl
@[simp] theorem State.appendBit_treeValid (b : Bool) : (s.appendBit b).treeValid = s.treeValid := rfl
@[simp] theorem State.appendBit_codesValid (b : Bool) : (s.appendBit b).codesValid = s.codesValid := rfl
@[simp] theorem State.appendBit_errCode (b : Bool) : (s.appendBit b).errCode = s.errCode := rfl
@[simp] theorem State.appendBit_errInfo (b : Bool) : (s.appendBit b).errInfo = s.errInfo := rfl
@[simp] theorem State.appendBit_lastCmd (b : Bool) : (s.appendBit b).lastCmd = s.lastCmd := rfl
@[simp] theorem State.appendBit_text (b : Bool) : (s.appendBit b).text = s.text := rfl
@[simp] theorem State.appendBit_freq (b : Bool) : (s.appendBit b).freq = s.freq := rfl
@[simp] theorem State.appendBit_bits (b : Bool) : (s.appendBit b).bits = s.bits ++ [b] := rfl
@[simp] theorem State.appendBit_bitPos (b : Bool) : (s.appendBit b).bitPos = s.bitPos := rfl
@[simp] theorem State.appendBit_out (b : Bool) : (s.appendBit b).out = s.out := rfl
@[simp] theorem State.appendBit_nodes (b : Bool) : (s.appendBit b).nodes = s.nodes := rfl
@[simp] theorem State.appendBit_root (b : Bool) : (s.appendBit b).root = s.root := rfl
@[simp] theorem State.appendBit_code (b : Bool) : (s.appendBit b).code = s.code := rfl
@[simp] theorem State.appendBit_resLen (b : Bool) : (s.appendBit b).resLen = s.resLen := rfl
@[simp] theorem State.appendBit_resPath (b : Bool) : (s.appendBit b).resPath = s.resPath := rfl
@[simp] theorem State.appendBit_walkCur (b : Bool) : (s.appendBit b).walkCur = s.walkCur := rfl
@[simp] theorem State.appendBit_walkHit (b : Bool) : (s.appendBit b).walkHit = s.walkHit := rfl
@[simp] theorem State.appendBit_walkUsed (b : Bool) : (s.appendBit b).walkUsed = s.walkUsed := rfl
@[simp] theorem State.appendBit_walkSym (b : Bool) : (s.appendBit b).walkSym = s.walkSym := rfl
@[simp] theorem State.appendBit_agenda (b : Bool) : (s.appendBit b).agenda = s.agenda := rfl
@[simp] theorem State.appendBit_reply (b : Bool) : (s.appendBit b).reply = s.reply := rfl
@[simp] theorem State.appendBit_draws (b : Bool) : (s.appendBit b).draws = s.draws := rfl

/-! ### clearBits -/

@[simp] theorem State.clearBits_busy : (s.clearBits).busy = s.busy := rfl
@[simp] theorem State.clearBits_done : (s.clearBits).done = s.done := rfl
@[simp] theorem State.clearBits_err : (s.clearBits).err = s.err := rfl
@[simp] theorem State.clearBits_ovr : (s.clearBits).ovr = s.ovr := rfl
@[simp] theorem State.clearBits_treeValid : (s.clearBits).treeValid = s.treeValid := rfl
@[simp] theorem State.clearBits_codesValid : (s.clearBits).codesValid = s.codesValid := rfl
@[simp] theorem State.clearBits_errCode : (s.clearBits).errCode = s.errCode := rfl
@[simp] theorem State.clearBits_errInfo : (s.clearBits).errInfo = s.errInfo := rfl
@[simp] theorem State.clearBits_lastCmd : (s.clearBits).lastCmd = s.lastCmd := rfl
@[simp] theorem State.clearBits_text : (s.clearBits).text = s.text := rfl
@[simp] theorem State.clearBits_freq : (s.clearBits).freq = s.freq := rfl
@[simp] theorem State.clearBits_bits : (s.clearBits).bits = [] := rfl
@[simp] theorem State.clearBits_bitPos : (s.clearBits).bitPos = 0 := rfl
@[simp] theorem State.clearBits_out : (s.clearBits).out = s.out := rfl
@[simp] theorem State.clearBits_nodes : (s.clearBits).nodes = s.nodes := rfl
@[simp] theorem State.clearBits_root : (s.clearBits).root = s.root := rfl
@[simp] theorem State.clearBits_code : (s.clearBits).code = s.code := rfl
@[simp] theorem State.clearBits_resLen : (s.clearBits).resLen = s.resLen := rfl
@[simp] theorem State.clearBits_resPath : (s.clearBits).resPath = s.resPath := rfl
@[simp] theorem State.clearBits_walkCur : (s.clearBits).walkCur = s.walkCur := rfl
@[simp] theorem State.clearBits_walkHit : (s.clearBits).walkHit = s.walkHit := rfl
@[simp] theorem State.clearBits_walkUsed : (s.clearBits).walkUsed = s.walkUsed := rfl
@[simp] theorem State.clearBits_walkSym : (s.clearBits).walkSym = s.walkSym := rfl
@[simp] theorem State.clearBits_agenda : (s.clearBits).agenda = s.agenda := rfl
@[simp] theorem State.clearBits_reply : (s.clearBits).reply = s.reply := rfl
@[simp] theorem State.clearBits_draws : (s.clearBits).draws = s.draws := rfl

/-! ### setBits -/

@[simp] theorem State.setBits_busy (seq : List Bool) : (s.setBits seq).busy = s.busy := rfl
@[simp] theorem State.setBits_done (seq : List Bool) : (s.setBits seq).done = s.done := rfl
@[simp] theorem State.setBits_err (seq : List Bool) : (s.setBits seq).err = s.err := rfl
@[simp] theorem State.setBits_ovr (seq : List Bool) : (s.setBits seq).ovr = s.ovr := rfl
@[simp] theorem State.setBits_treeValid (seq : List Bool) : (s.setBits seq).treeValid = s.treeValid := rfl
@[simp] theorem State.setBits_codesValid (seq : List Bool) : (s.setBits seq).codesValid = s.codesValid := rfl
@[simp] theorem State.setBits_errCode (seq : List Bool) : (s.setBits seq).errCode = s.errCode := rfl
@[simp] theorem State.setBits_errInfo (seq : List Bool) : (s.setBits seq).errInfo = s.errInfo := rfl
@[simp] theorem State.setBits_lastCmd (seq : List Bool) : (s.setBits seq).lastCmd = s.lastCmd := rfl
@[simp] theorem State.setBits_text (seq : List Bool) : (s.setBits seq).text = s.text := rfl
@[simp] theorem State.setBits_freq (seq : List Bool) : (s.setBits seq).freq = s.freq := rfl
@[simp] theorem State.setBits_bits (seq : List Bool) : (s.setBits seq).bits = seq := rfl
@[simp] theorem State.setBits_bitPos (seq : List Bool) : (s.setBits seq).bitPos = 0 := rfl
@[simp] theorem State.setBits_out (seq : List Bool) : (s.setBits seq).out = s.out := rfl
@[simp] theorem State.setBits_nodes (seq : List Bool) : (s.setBits seq).nodes = s.nodes := rfl
@[simp] theorem State.setBits_root (seq : List Bool) : (s.setBits seq).root = s.root := rfl
@[simp] theorem State.setBits_code (seq : List Bool) : (s.setBits seq).code = s.code := rfl
@[simp] theorem State.setBits_resLen (seq : List Bool) : (s.setBits seq).resLen = s.resLen := rfl
@[simp] theorem State.setBits_resPath (seq : List Bool) : (s.setBits seq).resPath = s.resPath := rfl
@[simp] theorem State.setBits_walkCur (seq : List Bool) : (s.setBits seq).walkCur = s.walkCur := rfl
@[simp] theorem State.setBits_walkHit (seq : List Bool) : (s.setBits seq).walkHit = s.walkHit := rfl
@[simp] theorem State.setBits_walkUsed (seq : List Bool) : (s.setBits seq).walkUsed = s.walkUsed := rfl
@[simp] theorem State.setBits_walkSym (seq : List Bool) : (s.setBits seq).walkSym = s.walkSym := rfl
@[simp] theorem State.setBits_agenda (seq : List Bool) : (s.setBits seq).agenda = s.agenda := rfl
@[simp] theorem State.setBits_reply (seq : List Bool) : (s.setBits seq).reply = s.reply := rfl
@[simp] theorem State.setBits_draws (seq : List Bool) : (s.setBits seq).draws = s.draws := rfl

/-! ### setOut -/

@[simp] theorem State.setOut_busy (o : List Sym) (p : Nat) : (s.setOut o p).busy = s.busy := rfl
@[simp] theorem State.setOut_done (o : List Sym) (p : Nat) : (s.setOut o p).done = s.done := rfl
@[simp] theorem State.setOut_err (o : List Sym) (p : Nat) : (s.setOut o p).err = s.err := rfl
@[simp] theorem State.setOut_ovr (o : List Sym) (p : Nat) : (s.setOut o p).ovr = s.ovr := rfl
@[simp] theorem State.setOut_treeValid (o : List Sym) (p : Nat) : (s.setOut o p).treeValid = s.treeValid := rfl
@[simp] theorem State.setOut_codesValid (o : List Sym) (p : Nat) : (s.setOut o p).codesValid = s.codesValid := rfl
@[simp] theorem State.setOut_errCode (o : List Sym) (p : Nat) : (s.setOut o p).errCode = s.errCode := rfl
@[simp] theorem State.setOut_errInfo (o : List Sym) (p : Nat) : (s.setOut o p).errInfo = s.errInfo := rfl
@[simp] theorem State.setOut_lastCmd (o : List Sym) (p : Nat) : (s.setOut o p).lastCmd = s.lastCmd := rfl
@[simp] theorem State.setOut_text (o : List Sym) (p : Nat) : (s.setOut o p).text = s.text := rfl
@[simp] theorem State.setOut_freq (o : List Sym) (p : Nat) : (s.setOut o p).freq = s.freq := rfl
@[simp] theorem State.setOut_bits (o : List Sym) (p : Nat) : (s.setOut o p).bits = s.bits := rfl
@[simp] theorem State.setOut_bitPos (o : List Sym) (p : Nat) : (s.setOut o p).bitPos = BitVec.ofNat 16 p := rfl
@[simp] theorem State.setOut_out (o : List Sym) (p : Nat) : (s.setOut o p).out = o := rfl
@[simp] theorem State.setOut_nodes (o : List Sym) (p : Nat) : (s.setOut o p).nodes = s.nodes := rfl
@[simp] theorem State.setOut_root (o : List Sym) (p : Nat) : (s.setOut o p).root = s.root := rfl
@[simp] theorem State.setOut_code (o : List Sym) (p : Nat) : (s.setOut o p).code = s.code := rfl
@[simp] theorem State.setOut_resLen (o : List Sym) (p : Nat) : (s.setOut o p).resLen = s.resLen := rfl
@[simp] theorem State.setOut_resPath (o : List Sym) (p : Nat) : (s.setOut o p).resPath = s.resPath := rfl
@[simp] theorem State.setOut_walkCur (o : List Sym) (p : Nat) : (s.setOut o p).walkCur = s.walkCur := rfl
@[simp] theorem State.setOut_walkHit (o : List Sym) (p : Nat) : (s.setOut o p).walkHit = s.walkHit := rfl
@[simp] theorem State.setOut_walkUsed (o : List Sym) (p : Nat) : (s.setOut o p).walkUsed = s.walkUsed := rfl
@[simp] theorem State.setOut_walkSym (o : List Sym) (p : Nat) : (s.setOut o p).walkSym = s.walkSym := rfl
@[simp] theorem State.setOut_agenda (o : List Sym) (p : Nat) : (s.setOut o p).agenda = s.agenda := rfl
@[simp] theorem State.setOut_reply (o : List Sym) (p : Nat) : (s.setOut o p).reply = s.reply := rfl
@[simp] theorem State.setOut_draws (o : List Sym) (p : Nat) : (s.setOut o p).draws = s.draws := rfl

/-! ### clearOut -/

@[simp] theorem State.clearOut_busy : (s.clearOut).busy = s.busy := rfl
@[simp] theorem State.clearOut_done : (s.clearOut).done = s.done := rfl
@[simp] theorem State.clearOut_err : (s.clearOut).err = s.err := rfl
@[simp] theorem State.clearOut_ovr : (s.clearOut).ovr = s.ovr := rfl
@[simp] theorem State.clearOut_treeValid : (s.clearOut).treeValid = s.treeValid := rfl
@[simp] theorem State.clearOut_codesValid : (s.clearOut).codesValid = s.codesValid := rfl
@[simp] theorem State.clearOut_errCode : (s.clearOut).errCode = s.errCode := rfl
@[simp] theorem State.clearOut_errInfo : (s.clearOut).errInfo = s.errInfo := rfl
@[simp] theorem State.clearOut_lastCmd : (s.clearOut).lastCmd = s.lastCmd := rfl
@[simp] theorem State.clearOut_text : (s.clearOut).text = s.text := rfl
@[simp] theorem State.clearOut_freq : (s.clearOut).freq = s.freq := rfl
@[simp] theorem State.clearOut_bits : (s.clearOut).bits = s.bits := rfl
@[simp] theorem State.clearOut_bitPos : (s.clearOut).bitPos = s.bitPos := rfl
@[simp] theorem State.clearOut_out : (s.clearOut).out = [] := rfl
@[simp] theorem State.clearOut_nodes : (s.clearOut).nodes = s.nodes := rfl
@[simp] theorem State.clearOut_root : (s.clearOut).root = s.root := rfl
@[simp] theorem State.clearOut_code : (s.clearOut).code = s.code := rfl
@[simp] theorem State.clearOut_resLen : (s.clearOut).resLen = s.resLen := rfl
@[simp] theorem State.clearOut_resPath : (s.clearOut).resPath = s.resPath := rfl
@[simp] theorem State.clearOut_walkCur : (s.clearOut).walkCur = s.walkCur := rfl
@[simp] theorem State.clearOut_walkHit : (s.clearOut).walkHit = s.walkHit := rfl
@[simp] theorem State.clearOut_walkUsed : (s.clearOut).walkUsed = s.walkUsed := rfl
@[simp] theorem State.clearOut_walkSym : (s.clearOut).walkSym = s.walkSym := rfl
@[simp] theorem State.clearOut_agenda : (s.clearOut).agenda = s.agenda := rfl
@[simp] theorem State.clearOut_reply : (s.clearOut).reply = s.reply := rfl
@[simp] theorem State.clearOut_draws : (s.clearOut).draws = s.draws := rfl

/-! ### setWalk -/

@[simp] theorem State.setWalk_busy (cur : Slot) (hit used : Bool) (x : Sym) : (s.setWalk cur hit used x).busy = s.busy := rfl
@[simp] theorem State.setWalk_done (cur : Slot) (hit used : Bool) (x : Sym) : (s.setWalk cur hit used x).done = s.done := rfl
@[simp] theorem State.setWalk_err (cur : Slot) (hit used : Bool) (x : Sym) : (s.setWalk cur hit used x).err = s.err := rfl
@[simp] theorem State.setWalk_ovr (cur : Slot) (hit used : Bool) (x : Sym) : (s.setWalk cur hit used x).ovr = s.ovr := rfl
@[simp] theorem State.setWalk_treeValid (cur : Slot) (hit used : Bool) (x : Sym) : (s.setWalk cur hit used x).treeValid = s.treeValid := rfl
@[simp] theorem State.setWalk_codesValid (cur : Slot) (hit used : Bool) (x : Sym) : (s.setWalk cur hit used x).codesValid = s.codesValid := rfl
@[simp] theorem State.setWalk_errCode (cur : Slot) (hit used : Bool) (x : Sym) : (s.setWalk cur hit used x).errCode = s.errCode := rfl
@[simp] theorem State.setWalk_errInfo (cur : Slot) (hit used : Bool) (x : Sym) : (s.setWalk cur hit used x).errInfo = s.errInfo := rfl
@[simp] theorem State.setWalk_lastCmd (cur : Slot) (hit used : Bool) (x : Sym) : (s.setWalk cur hit used x).lastCmd = s.lastCmd := rfl
@[simp] theorem State.setWalk_text (cur : Slot) (hit used : Bool) (x : Sym) : (s.setWalk cur hit used x).text = s.text := rfl
@[simp] theorem State.setWalk_freq (cur : Slot) (hit used : Bool) (x : Sym) : (s.setWalk cur hit used x).freq = s.freq := rfl
@[simp] theorem State.setWalk_bits (cur : Slot) (hit used : Bool) (x : Sym) : (s.setWalk cur hit used x).bits = s.bits := rfl
@[simp] theorem State.setWalk_bitPos (cur : Slot) (hit used : Bool) (x : Sym) : (s.setWalk cur hit used x).bitPos = s.bitPos := rfl
@[simp] theorem State.setWalk_out (cur : Slot) (hit used : Bool) (x : Sym) : (s.setWalk cur hit used x).out = s.out := rfl
@[simp] theorem State.setWalk_nodes (cur : Slot) (hit used : Bool) (x : Sym) : (s.setWalk cur hit used x).nodes = s.nodes := rfl
@[simp] theorem State.setWalk_root (cur : Slot) (hit used : Bool) (x : Sym) : (s.setWalk cur hit used x).root = s.root := rfl
@[simp] theorem State.setWalk_code (cur : Slot) (hit used : Bool) (x : Sym) : (s.setWalk cur hit used x).code = s.code := rfl
@[simp] theorem State.setWalk_resLen (cur : Slot) (hit used : Bool) (x : Sym) : (s.setWalk cur hit used x).resLen = s.resLen := rfl
@[simp] theorem State.setWalk_resPath (cur : Slot) (hit used : Bool) (x : Sym) : (s.setWalk cur hit used x).resPath = s.resPath := rfl
@[simp] theorem State.setWalk_walkCur (cur : Slot) (hit used : Bool) (x : Sym) : (s.setWalk cur hit used x).walkCur = cur := rfl
@[simp] theorem State.setWalk_walkHit (cur : Slot) (hit used : Bool) (x : Sym) : (s.setWalk cur hit used x).walkHit = hit := rfl
@[simp] theorem State.setWalk_walkUsed (cur : Slot) (hit used : Bool) (x : Sym) : (s.setWalk cur hit used x).walkUsed = used := rfl
@[simp] theorem State.setWalk_walkSym (cur : Slot) (hit used : Bool) (x : Sym) : (s.setWalk cur hit used x).walkSym = x := rfl
@[simp] theorem State.setWalk_agenda (cur : Slot) (hit used : Bool) (x : Sym) : (s.setWalk cur hit used x).agenda = s.agenda := rfl
@[simp] theorem State.setWalk_reply (cur : Slot) (hit used : Bool) (x : Sym) : (s.setWalk cur hit used x).reply = s.reply := rfl
@[simp] theorem State.setWalk_draws (cur : Slot) (hit used : Bool) (x : Sym) : (s.setWalk cur hit used x).draws = s.draws := rfl

/-! ### setTree -/

@[simp] theorem State.setTree_busy (arena : List Node) (rt : Slot) : (s.setTree arena rt).busy = s.busy := rfl
@[simp] theorem State.setTree_done (arena : List Node) (rt : Slot) : (s.setTree arena rt).done = s.done := rfl
@[simp] theorem State.setTree_err (arena : List Node) (rt : Slot) : (s.setTree arena rt).err = s.err := rfl
@[simp] theorem State.setTree_ovr (arena : List Node) (rt : Slot) : (s.setTree arena rt).ovr = s.ovr := rfl
@[simp] theorem State.setTree_treeValid (arena : List Node) (rt : Slot) : (s.setTree arena rt).treeValid = true := rfl
@[simp] theorem State.setTree_codesValid (arena : List Node) (rt : Slot) : (s.setTree arena rt).codesValid = false := rfl
@[simp] theorem State.setTree_errCode (arena : List Node) (rt : Slot) : (s.setTree arena rt).errCode = s.errCode := rfl
@[simp] theorem State.setTree_errInfo (arena : List Node) (rt : Slot) : (s.setTree arena rt).errInfo = s.errInfo := rfl
@[simp] theorem State.setTree_lastCmd (arena : List Node) (rt : Slot) : (s.setTree arena rt).lastCmd = s.lastCmd := rfl
@[simp] theorem State.setTree_text (arena : List Node) (rt : Slot) : (s.setTree arena rt).text = s.text := rfl
@[simp] theorem State.setTree_freq (arena : List Node) (rt : Slot) : (s.setTree arena rt).freq = s.freq := rfl
@[simp] theorem State.setTree_bits (arena : List Node) (rt : Slot) : (s.setTree arena rt).bits = s.bits := rfl
@[simp] theorem State.setTree_bitPos (arena : List Node) (rt : Slot) : (s.setTree arena rt).bitPos = s.bitPos := rfl
@[simp] theorem State.setTree_out (arena : List Node) (rt : Slot) : (s.setTree arena rt).out = s.out := rfl
@[simp] theorem State.setTree_nodes (arena : List Node) (rt : Slot) : (s.setTree arena rt).nodes = arena := rfl
@[simp] theorem State.setTree_root (arena : List Node) (rt : Slot) : (s.setTree arena rt).root = rt := rfl
@[simp] theorem State.setTree_code (arena : List Node) (rt : Slot) : (s.setTree arena rt).code = s.code := rfl
@[simp] theorem State.setTree_resLen (arena : List Node) (rt : Slot) : (s.setTree arena rt).resLen = s.resLen := rfl
@[simp] theorem State.setTree_resPath (arena : List Node) (rt : Slot) : (s.setTree arena rt).resPath = s.resPath := rfl
@[simp] theorem State.setTree_walkCur (arena : List Node) (rt : Slot) : (s.setTree arena rt).walkCur = rt := rfl
@[simp] theorem State.setTree_walkHit (arena : List Node) (rt : Slot) : (s.setTree arena rt).walkHit = false := rfl
@[simp] theorem State.setTree_walkUsed (arena : List Node) (rt : Slot) : (s.setTree arena rt).walkUsed = false := rfl
@[simp] theorem State.setTree_walkSym (arena : List Node) (rt : Slot) : (s.setTree arena rt).walkSym = 0 := rfl
@[simp] theorem State.setTree_agenda (arena : List Node) (rt : Slot) : (s.setTree arena rt).agenda = s.agenda := rfl
@[simp] theorem State.setTree_reply (arena : List Node) (rt : Slot) : (s.setTree arena rt).reply = s.reply := rfl
@[simp] theorem State.setTree_draws (arena : List Node) (rt : Slot) : (s.setTree arena rt).draws = s.draws := rfl

/-! ### dropTree -/

@[simp] theorem State.dropTree_busy : (s.dropTree).busy = s.busy := rfl
@[simp] theorem State.dropTree_done : (s.dropTree).done = s.done := rfl
@[simp] theorem State.dropTree_err : (s.dropTree).err = s.err := rfl
@[simp] theorem State.dropTree_ovr : (s.dropTree).ovr = s.ovr := rfl
@[simp] theorem State.dropTree_treeValid : (s.dropTree).treeValid = false := rfl
@[simp] theorem State.dropTree_codesValid : (s.dropTree).codesValid = s.codesValid := rfl
@[simp] theorem State.dropTree_errCode : (s.dropTree).errCode = s.errCode := rfl
@[simp] theorem State.dropTree_errInfo : (s.dropTree).errInfo = s.errInfo := rfl
@[simp] theorem State.dropTree_lastCmd : (s.dropTree).lastCmd = s.lastCmd := rfl
@[simp] theorem State.dropTree_text : (s.dropTree).text = s.text := rfl
@[simp] theorem State.dropTree_freq : (s.dropTree).freq = s.freq := rfl
@[simp] theorem State.dropTree_bits : (s.dropTree).bits = s.bits := rfl
@[simp] theorem State.dropTree_bitPos : (s.dropTree).bitPos = s.bitPos := rfl
@[simp] theorem State.dropTree_out : (s.dropTree).out = s.out := rfl
@[simp] theorem State.dropTree_nodes : (s.dropTree).nodes = [] := rfl
@[simp] theorem State.dropTree_root : (s.dropTree).root = 0 := rfl
@[simp] theorem State.dropTree_code : (s.dropTree).code = s.code := rfl
@[simp] theorem State.dropTree_resLen : (s.dropTree).resLen = s.resLen := rfl
@[simp] theorem State.dropTree_resPath : (s.dropTree).resPath = s.resPath := rfl
@[simp] theorem State.dropTree_walkCur : (s.dropTree).walkCur = 0 := rfl
@[simp] theorem State.dropTree_walkHit : (s.dropTree).walkHit = false := rfl
@[simp] theorem State.dropTree_walkUsed : (s.dropTree).walkUsed = false := rfl
@[simp] theorem State.dropTree_walkSym : (s.dropTree).walkSym = 0 := rfl
@[simp] theorem State.dropTree_agenda : (s.dropTree).agenda = s.agenda := rfl
@[simp] theorem State.dropTree_reply : (s.dropTree).reply = s.reply := rfl
@[simp] theorem State.dropTree_draws : (s.dropTree).draws = s.draws := rfl

/-! ### setCodes -/

@[simp] theorem State.setCodes_busy (c : Vector CodeEntry 128) : (s.setCodes c).busy = s.busy := rfl
@[simp] theorem State.setCodes_done (c : Vector CodeEntry 128) : (s.setCodes c).done = s.done := rfl
@[simp] theorem State.setCodes_err (c : Vector CodeEntry 128) : (s.setCodes c).err = s.err := rfl
@[simp] theorem State.setCodes_ovr (c : Vector CodeEntry 128) : (s.setCodes c).ovr = s.ovr := rfl
@[simp] theorem State.setCodes_treeValid (c : Vector CodeEntry 128) : (s.setCodes c).treeValid = s.treeValid := rfl
@[simp] theorem State.setCodes_codesValid (c : Vector CodeEntry 128) : (s.setCodes c).codesValid = true := rfl
@[simp] theorem State.setCodes_errCode (c : Vector CodeEntry 128) : (s.setCodes c).errCode = s.errCode := rfl
@[simp] theorem State.setCodes_errInfo (c : Vector CodeEntry 128) : (s.setCodes c).errInfo = s.errInfo := rfl
@[simp] theorem State.setCodes_lastCmd (c : Vector CodeEntry 128) : (s.setCodes c).lastCmd = s.lastCmd := rfl
@[simp] theorem State.setCodes_text (c : Vector CodeEntry 128) : (s.setCodes c).text = s.text := rfl
@[simp] theorem State.setCodes_freq (c : Vector CodeEntry 128) : (s.setCodes c).freq = s.freq := rfl
@[simp] theorem State.setCodes_bits (c : Vector CodeEntry 128) : (s.setCodes c).bits = s.bits := rfl
@[simp] theorem State.setCodes_bitPos (c : Vector CodeEntry 128) : (s.setCodes c).bitPos = s.bitPos := rfl
@[simp] theorem State.setCodes_out (c : Vector CodeEntry 128) : (s.setCodes c).out = s.out := rfl
@[simp] theorem State.setCodes_nodes (c : Vector CodeEntry 128) : (s.setCodes c).nodes = s.nodes := rfl
@[simp] theorem State.setCodes_root (c : Vector CodeEntry 128) : (s.setCodes c).root = s.root := rfl
@[simp] theorem State.setCodes_code (c : Vector CodeEntry 128) : (s.setCodes c).code = c := rfl
@[simp] theorem State.setCodes_resLen (c : Vector CodeEntry 128) : (s.setCodes c).resLen = s.resLen := rfl
@[simp] theorem State.setCodes_resPath (c : Vector CodeEntry 128) : (s.setCodes c).resPath = s.resPath := rfl
@[simp] theorem State.setCodes_walkCur (c : Vector CodeEntry 128) : (s.setCodes c).walkCur = s.walkCur := rfl
@[simp] theorem State.setCodes_walkHit (c : Vector CodeEntry 128) : (s.setCodes c).walkHit = s.walkHit := rfl
@[simp] theorem State.setCodes_walkUsed (c : Vector CodeEntry 128) : (s.setCodes c).walkUsed = s.walkUsed := rfl
@[simp] theorem State.setCodes_walkSym (c : Vector CodeEntry 128) : (s.setCodes c).walkSym = s.walkSym := rfl
@[simp] theorem State.setCodes_agenda (c : Vector CodeEntry 128) : (s.setCodes c).agenda = s.agenda := rfl
@[simp] theorem State.setCodes_reply (c : Vector CodeEntry 128) : (s.setCodes c).reply = s.reply := rfl
@[simp] theorem State.setCodes_draws (c : Vector CodeEntry 128) : (s.setCodes c).draws = s.draws := rfl

/-! ### dropCodes -/

@[simp] theorem State.dropCodes_busy : (s.dropCodes).busy = s.busy := rfl
@[simp] theorem State.dropCodes_done : (s.dropCodes).done = s.done := rfl
@[simp] theorem State.dropCodes_err : (s.dropCodes).err = s.err := rfl
@[simp] theorem State.dropCodes_ovr : (s.dropCodes).ovr = s.ovr := rfl
@[simp] theorem State.dropCodes_treeValid : (s.dropCodes).treeValid = s.treeValid := rfl
@[simp] theorem State.dropCodes_codesValid : (s.dropCodes).codesValid = false := rfl
@[simp] theorem State.dropCodes_errCode : (s.dropCodes).errCode = s.errCode := rfl
@[simp] theorem State.dropCodes_errInfo : (s.dropCodes).errInfo = s.errInfo := rfl
@[simp] theorem State.dropCodes_lastCmd : (s.dropCodes).lastCmd = s.lastCmd := rfl
@[simp] theorem State.dropCodes_text : (s.dropCodes).text = s.text := rfl
@[simp] theorem State.dropCodes_freq : (s.dropCodes).freq = s.freq := rfl
@[simp] theorem State.dropCodes_bits : (s.dropCodes).bits = s.bits := rfl
@[simp] theorem State.dropCodes_bitPos : (s.dropCodes).bitPos = s.bitPos := rfl
@[simp] theorem State.dropCodes_out : (s.dropCodes).out = s.out := rfl
@[simp] theorem State.dropCodes_nodes : (s.dropCodes).nodes = s.nodes := rfl
@[simp] theorem State.dropCodes_root : (s.dropCodes).root = s.root := rfl
@[simp] theorem State.dropCodes_code : (s.dropCodes).code = emptyCode := rfl
@[simp] theorem State.dropCodes_resLen : (s.dropCodes).resLen = s.resLen := rfl
@[simp] theorem State.dropCodes_resPath : (s.dropCodes).resPath = s.resPath := rfl
@[simp] theorem State.dropCodes_walkCur : (s.dropCodes).walkCur = s.walkCur := rfl
@[simp] theorem State.dropCodes_walkHit : (s.dropCodes).walkHit = s.walkHit := rfl
@[simp] theorem State.dropCodes_walkUsed : (s.dropCodes).walkUsed = s.walkUsed := rfl
@[simp] theorem State.dropCodes_walkSym : (s.dropCodes).walkSym = s.walkSym := rfl
@[simp] theorem State.dropCodes_agenda : (s.dropCodes).agenda = s.agenda := rfl
@[simp] theorem State.dropCodes_reply : (s.dropCodes).reply = s.reply := rfl
@[simp] theorem State.dropCodes_draws : (s.dropCodes).draws = s.draws := rfl

/-! ### setRes -/

@[simp] theorem State.setRes_busy (len : BitVec 8) (path : Path) : (s.setRes len path).busy = s.busy := rfl
@[simp] theorem State.setRes_done (len : BitVec 8) (path : Path) : (s.setRes len path).done = s.done := rfl
@[simp] theorem State.setRes_err (len : BitVec 8) (path : Path) : (s.setRes len path).err = s.err := rfl
@[simp] theorem State.setRes_ovr (len : BitVec 8) (path : Path) : (s.setRes len path).ovr = s.ovr := rfl
@[simp] theorem State.setRes_treeValid (len : BitVec 8) (path : Path) : (s.setRes len path).treeValid = s.treeValid := rfl
@[simp] theorem State.setRes_codesValid (len : BitVec 8) (path : Path) : (s.setRes len path).codesValid = s.codesValid := rfl
@[simp] theorem State.setRes_errCode (len : BitVec 8) (path : Path) : (s.setRes len path).errCode = s.errCode := rfl
@[simp] theorem State.setRes_errInfo (len : BitVec 8) (path : Path) : (s.setRes len path).errInfo = s.errInfo := rfl
@[simp] theorem State.setRes_lastCmd (len : BitVec 8) (path : Path) : (s.setRes len path).lastCmd = s.lastCmd := rfl
@[simp] theorem State.setRes_text (len : BitVec 8) (path : Path) : (s.setRes len path).text = s.text := rfl
@[simp] theorem State.setRes_freq (len : BitVec 8) (path : Path) : (s.setRes len path).freq = s.freq := rfl
@[simp] theorem State.setRes_bits (len : BitVec 8) (path : Path) : (s.setRes len path).bits = s.bits := rfl
@[simp] theorem State.setRes_bitPos (len : BitVec 8) (path : Path) : (s.setRes len path).bitPos = s.bitPos := rfl
@[simp] theorem State.setRes_out (len : BitVec 8) (path : Path) : (s.setRes len path).out = s.out := rfl
@[simp] theorem State.setRes_nodes (len : BitVec 8) (path : Path) : (s.setRes len path).nodes = s.nodes := rfl
@[simp] theorem State.setRes_root (len : BitVec 8) (path : Path) : (s.setRes len path).root = s.root := rfl
@[simp] theorem State.setRes_code (len : BitVec 8) (path : Path) : (s.setRes len path).code = s.code := rfl
@[simp] theorem State.setRes_resLen (len : BitVec 8) (path : Path) : (s.setRes len path).resLen = len := rfl
@[simp] theorem State.setRes_resPath (len : BitVec 8) (path : Path) : (s.setRes len path).resPath = path := rfl
@[simp] theorem State.setRes_walkCur (len : BitVec 8) (path : Path) : (s.setRes len path).walkCur = s.walkCur := rfl
@[simp] theorem State.setRes_walkHit (len : BitVec 8) (path : Path) : (s.setRes len path).walkHit = s.walkHit := rfl
@[simp] theorem State.setRes_walkUsed (len : BitVec 8) (path : Path) : (s.setRes len path).walkUsed = s.walkUsed := rfl
@[simp] theorem State.setRes_walkSym (len : BitVec 8) (path : Path) : (s.setRes len path).walkSym = s.walkSym := rfl
@[simp] theorem State.setRes_agenda (len : BitVec 8) (path : Path) : (s.setRes len path).agenda = s.agenda := rfl
@[simp] theorem State.setRes_reply (len : BitVec 8) (path : Path) : (s.setRes len path).reply = s.reply := rfl
@[simp] theorem State.setRes_draws (len : BitVec 8) (path : Path) : (s.setRes len path).draws = s.draws := rfl

/-! ### answer -/

@[simp] theorem State.answer_busy (r : Reply) : (s.answer r).busy = s.busy := rfl
@[simp] theorem State.answer_done (r : Reply) : (s.answer r).done = s.done := rfl
@[simp] theorem State.answer_err (r : Reply) : (s.answer r).err = s.err := rfl
@[simp] theorem State.answer_ovr (r : Reply) : (s.answer r).ovr = s.ovr := rfl
@[simp] theorem State.answer_treeValid (r : Reply) : (s.answer r).treeValid = s.treeValid := rfl
@[simp] theorem State.answer_codesValid (r : Reply) : (s.answer r).codesValid = s.codesValid := rfl
@[simp] theorem State.answer_errCode (r : Reply) : (s.answer r).errCode = s.errCode := rfl
@[simp] theorem State.answer_errInfo (r : Reply) : (s.answer r).errInfo = s.errInfo := rfl
@[simp] theorem State.answer_lastCmd (r : Reply) : (s.answer r).lastCmd = s.lastCmd := rfl
@[simp] theorem State.answer_text (r : Reply) : (s.answer r).text = s.text := rfl
@[simp] theorem State.answer_freq (r : Reply) : (s.answer r).freq = s.freq := rfl
@[simp] theorem State.answer_bits (r : Reply) : (s.answer r).bits = s.bits := rfl
@[simp] theorem State.answer_bitPos (r : Reply) : (s.answer r).bitPos = s.bitPos := rfl
@[simp] theorem State.answer_out (r : Reply) : (s.answer r).out = s.out := rfl
@[simp] theorem State.answer_nodes (r : Reply) : (s.answer r).nodes = s.nodes := rfl
@[simp] theorem State.answer_root (r : Reply) : (s.answer r).root = s.root := rfl
@[simp] theorem State.answer_code (r : Reply) : (s.answer r).code = s.code := rfl
@[simp] theorem State.answer_resLen (r : Reply) : (s.answer r).resLen = s.resLen := rfl
@[simp] theorem State.answer_resPath (r : Reply) : (s.answer r).resPath = s.resPath := rfl
@[simp] theorem State.answer_walkCur (r : Reply) : (s.answer r).walkCur = s.walkCur := rfl
@[simp] theorem State.answer_walkHit (r : Reply) : (s.answer r).walkHit = s.walkHit := rfl
@[simp] theorem State.answer_walkUsed (r : Reply) : (s.answer r).walkUsed = s.walkUsed := rfl
@[simp] theorem State.answer_walkSym (r : Reply) : (s.answer r).walkSym = s.walkSym := rfl
@[simp] theorem State.answer_agenda (r : Reply) : (s.answer r).agenda = s.agenda := rfl
@[simp] theorem State.answer_reply (r : Reply) : (s.answer r).reply = some r := rfl
@[simp] theorem State.answer_draws (r : Reply) : (s.answer r).draws = s.draws := rfl

/-! ### answerDraw -/

@[simp] theorem State.answerDraw_busy : (s.answerDraw).busy = s.busy := rfl
@[simp] theorem State.answerDraw_done : (s.answerDraw).done = s.done := rfl
@[simp] theorem State.answerDraw_err : (s.answerDraw).err = s.err := rfl
@[simp] theorem State.answerDraw_ovr : (s.answerDraw).ovr = s.ovr := rfl
@[simp] theorem State.answerDraw_treeValid : (s.answerDraw).treeValid = s.treeValid := rfl
@[simp] theorem State.answerDraw_codesValid : (s.answerDraw).codesValid = s.codesValid := rfl
@[simp] theorem State.answerDraw_errCode : (s.answerDraw).errCode = s.errCode := rfl
@[simp] theorem State.answerDraw_errInfo : (s.answerDraw).errInfo = s.errInfo := rfl
@[simp] theorem State.answerDraw_lastCmd : (s.answerDraw).lastCmd = s.lastCmd := rfl
@[simp] theorem State.answerDraw_text : (s.answerDraw).text = s.text := rfl
@[simp] theorem State.answerDraw_freq : (s.answerDraw).freq = s.freq := rfl
@[simp] theorem State.answerDraw_bits : (s.answerDraw).bits = s.bits := rfl
@[simp] theorem State.answerDraw_bitPos : (s.answerDraw).bitPos = s.bitPos := rfl
@[simp] theorem State.answerDraw_out : (s.answerDraw).out = s.out := rfl
@[simp] theorem State.answerDraw_nodes : (s.answerDraw).nodes = s.nodes := rfl
@[simp] theorem State.answerDraw_root : (s.answerDraw).root = s.root := rfl
@[simp] theorem State.answerDraw_code : (s.answerDraw).code = s.code := rfl
@[simp] theorem State.answerDraw_resLen : (s.answerDraw).resLen = s.resLen := rfl
@[simp] theorem State.answerDraw_resPath : (s.answerDraw).resPath = s.resPath := rfl
@[simp] theorem State.answerDraw_walkCur : (s.answerDraw).walkCur = s.walkCur := rfl
@[simp] theorem State.answerDraw_walkHit : (s.answerDraw).walkHit = s.walkHit := rfl
@[simp] theorem State.answerDraw_walkUsed : (s.answerDraw).walkUsed = s.walkUsed := rfl
@[simp] theorem State.answerDraw_walkSym : (s.answerDraw).walkSym = s.walkSym := rfl
@[simp] theorem State.answerDraw_agenda : (s.answerDraw).agenda = s.agenda := rfl
@[simp] theorem State.answerDraw_reply : (s.answerDraw).reply = some (.readData (Config.busyRead s.draws) .okay) := rfl
@[simp] theorem State.answerDraw_draws : (s.answerDraw).draws = s.draws + 1 := rfl

/-! ### Reads an update does not touch -/

@[simp] theorem State.accept_textLen (v : Word) : (s.accept v).textLen = s.textLen := rfl
@[simp] theorem State.accept_bitLen (v : Word) : (s.accept v).bitLen = s.bitLen := rfl
@[simp] theorem State.accept_outLen (v : Word) : (s.accept v).outLen = s.outLen := rfl
@[simp] theorem State.accept_nodeCount (v : Word) : (s.accept v).nodeCount = s.nodeCount := rfl
@[simp] theorem State.accept_freqAt (v : Word) (y : Sym) : (s.accept v).freqAt y = s.freqAt y := rfl
@[simp] theorem State.accept_codeAt (v : Word) (y : Sym) : (s.accept v).codeAt y = s.codeAt y := rfl
@[simp] theorem State.accept_nodeAt (v : Word) (i : Slot) : (s.accept v).nodeAt i = s.nodeAt i := rfl
@[simp] theorem State.accept_child (v : Word) (i : Slot) (br : Bool) : (s.accept v).child i br = s.child i br := rfl
@[simp] theorem State.accept_usedSyms (v : Word) : (s.accept v).usedSyms = s.usedSyms := rfl

@[simp] theorem State.overrun_textLen : (s.overrun).textLen = s.textLen := rfl
@[simp] theorem State.overrun_bitLen : (s.overrun).bitLen = s.bitLen := rfl
@[simp] theorem State.overrun_outLen : (s.overrun).outLen = s.outLen := rfl
@[simp] theorem State.overrun_nodeCount : (s.overrun).nodeCount = s.nodeCount := rfl
@[simp] theorem State.overrun_freqAt (y : Sym) : (s.overrun).freqAt y = s.freqAt y := rfl
@[simp] theorem State.overrun_codeAt (y : Sym) : (s.overrun).codeAt y = s.codeAt y := rfl
@[simp] theorem State.overrun_nodeAt (i : Slot) : (s.overrun).nodeAt i = s.nodeAt i := rfl
@[simp] theorem State.overrun_child (i : Slot) (br : Bool) : (s.overrun).child i br = s.child i br := rfl
@[simp] theorem State.overrun_usedSyms : (s.overrun).usedSyms = s.usedSyms := rfl

@[simp] theorem State.completeOk_textLen : (s.completeOk).textLen = s.textLen := rfl
@[simp] theorem State.completeOk_bitLen : (s.completeOk).bitLen = s.bitLen := rfl
@[simp] theorem State.completeOk_outLen : (s.completeOk).outLen = s.outLen := rfl
@[simp] theorem State.completeOk_nodeCount : (s.completeOk).nodeCount = s.nodeCount := rfl
@[simp] theorem State.completeOk_freqAt (y : Sym) : (s.completeOk).freqAt y = s.freqAt y := rfl
@[simp] theorem State.completeOk_codeAt (y : Sym) : (s.completeOk).codeAt y = s.codeAt y := rfl
@[simp] theorem State.completeOk_nodeAt (i : Slot) : (s.completeOk).nodeAt i = s.nodeAt i := rfl
@[simp] theorem State.completeOk_child (i : Slot) (br : Bool) : (s.completeOk).child i br = s.child i br := rfl
@[simp] theorem State.completeOk_usedSyms : (s.completeOk).usedSyms = s.usedSyms := rfl

@[simp] theorem State.completeErr_textLen (c : ErrCode) (info : Word) : (s.completeErr c info).textLen = s.textLen := rfl
@[simp] theorem State.completeErr_bitLen (c : ErrCode) (info : Word) : (s.completeErr c info).bitLen = s.bitLen := rfl
@[simp] theorem State.completeErr_outLen (c : ErrCode) (info : Word) : (s.completeErr c info).outLen = s.outLen := rfl
@[simp] theorem State.completeErr_nodeCount (c : ErrCode) (info : Word) : (s.completeErr c info).nodeCount = s.nodeCount := rfl
@[simp] theorem State.completeErr_freqAt (c : ErrCode) (info : Word) (y : Sym) : (s.completeErr c info).freqAt y = s.freqAt y := rfl
@[simp] theorem State.completeErr_codeAt (c : ErrCode) (info : Word) (y : Sym) : (s.completeErr c info).codeAt y = s.codeAt y := rfl
@[simp] theorem State.completeErr_nodeAt (c : ErrCode) (info : Word) (i : Slot) : (s.completeErr c info).nodeAt i = s.nodeAt i := rfl
@[simp] theorem State.completeErr_child (c : ErrCode) (info : Word) (i : Slot) (br : Bool) : (s.completeErr c info).child i br = s.child i br := rfl
@[simp] theorem State.completeErr_usedSyms (c : ErrCode) (info : Word) : (s.completeErr c info).usedSyms = s.usedSyms := rfl

@[simp] theorem State.countSym_textLen (x : Sym) : (s.countSym x).textLen = s.textLen := rfl
@[simp] theorem State.countSym_bitLen (x : Sym) : (s.countSym x).bitLen = s.bitLen := rfl
@[simp] theorem State.countSym_outLen (x : Sym) : (s.countSym x).outLen = s.outLen := rfl
@[simp] theorem State.countSym_nodeCount (x : Sym) : (s.countSym x).nodeCount = s.nodeCount := rfl
@[simp] theorem State.countSym_codeAt (x : Sym) (y : Sym) : (s.countSym x).codeAt y = s.codeAt y := rfl
@[simp] theorem State.countSym_nodeAt (x : Sym) (i : Slot) : (s.countSym x).nodeAt i = s.nodeAt i := rfl
@[simp] theorem State.countSym_child (x : Sym) (i : Slot) (br : Bool) : (s.countSym x).child i br = s.child i br := rfl

@[simp] theorem State.appendSym_bitLen (x : Sym) : (s.appendSym x).bitLen = s.bitLen := rfl
@[simp] theorem State.appendSym_outLen (x : Sym) : (s.appendSym x).outLen = s.outLen := rfl
@[simp] theorem State.appendSym_nodeCount (x : Sym) : (s.appendSym x).nodeCount = s.nodeCount := rfl
@[simp] theorem State.appendSym_freqAt (x : Sym) (y : Sym) : (s.appendSym x).freqAt y = s.freqAt y := rfl
@[simp] theorem State.appendSym_codeAt (x : Sym) (y : Sym) : (s.appendSym x).codeAt y = s.codeAt y := rfl
@[simp] theorem State.appendSym_nodeAt (x : Sym) (i : Slot) : (s.appendSym x).nodeAt i = s.nodeAt i := rfl
@[simp] theorem State.appendSym_child (x : Sym) (i : Slot) (br : Bool) : (s.appendSym x).child i br = s.child i br := rfl
@[simp] theorem State.appendSym_usedSyms (x : Sym) : (s.appendSym x).usedSyms = s.usedSyms := rfl

@[simp] theorem State.clearText_bitLen : (s.clearText).bitLen = s.bitLen := rfl
@[simp] theorem State.clearText_outLen : (s.clearText).outLen = s.outLen := rfl
@[simp] theorem State.clearText_nodeCount : (s.clearText).nodeCount = s.nodeCount := rfl
@[simp] theorem State.clearText_codeAt (y : Sym) : (s.clearText).codeAt y = s.codeAt y := rfl
@[simp] theorem State.clearText_nodeAt (i : Slot) : (s.clearText).nodeAt i = s.nodeAt i := rfl
@[simp] theorem State.clearText_child (i : Slot) (br : Bool) : (s.clearText).child i br = s.child i br := rfl

@[simp] theorem State.appendBit_textLen (b : Bool) : (s.appendBit b).textLen = s.textLen := rfl
@[simp] theorem State.appendBit_outLen (b : Bool) : (s.appendBit b).outLen = s.outLen := rfl
@[simp] theorem State.appendBit_nodeCount (b : Bool) : (s.appendBit b).nodeCount = s.nodeCount := rfl
@[simp] theorem State.appendBit_freqAt (b : Bool) (y : Sym) : (s.appendBit b).freqAt y = s.freqAt y := rfl
@[simp] theorem State.appendBit_codeAt (b : Bool) (y : Sym) : (s.appendBit b).codeAt y = s.codeAt y := rfl
@[simp] theorem State.appendBit_nodeAt (b : Bool) (i : Slot) : (s.appendBit b).nodeAt i = s.nodeAt i := rfl
@[simp] theorem State.appendBit_child (b : Bool) (i : Slot) (br : Bool) : (s.appendBit b).child i br = s.child i br := rfl
@[simp] theorem State.appendBit_usedSyms (b : Bool) : (s.appendBit b).usedSyms = s.usedSyms := rfl

@[simp] theorem State.clearBits_textLen : (s.clearBits).textLen = s.textLen := rfl
@[simp] theorem State.clearBits_outLen : (s.clearBits).outLen = s.outLen := rfl
@[simp] theorem State.clearBits_nodeCount : (s.clearBits).nodeCount = s.nodeCount := rfl
@[simp] theorem State.clearBits_freqAt (y : Sym) : (s.clearBits).freqAt y = s.freqAt y := rfl
@[simp] theorem State.clearBits_codeAt (y : Sym) : (s.clearBits).codeAt y = s.codeAt y := rfl
@[simp] theorem State.clearBits_nodeAt (i : Slot) : (s.clearBits).nodeAt i = s.nodeAt i := rfl
@[simp] theorem State.clearBits_child (i : Slot) (br : Bool) : (s.clearBits).child i br = s.child i br := rfl
@[simp] theorem State.clearBits_usedSyms : (s.clearBits).usedSyms = s.usedSyms := rfl

@[simp] theorem State.setBits_textLen (seq : List Bool) : (s.setBits seq).textLen = s.textLen := rfl
@[simp] theorem State.setBits_outLen (seq : List Bool) : (s.setBits seq).outLen = s.outLen := rfl
@[simp] theorem State.setBits_nodeCount (seq : List Bool) : (s.setBits seq).nodeCount = s.nodeCount := rfl
@[simp] theorem State.setBits_freqAt (seq : List Bool) (y : Sym) : (s.setBits seq).freqAt y = s.freqAt y := rfl
@[simp] theorem State.setBits_codeAt (seq : List Bool) (y : Sym) : (s.setBits seq).codeAt y = s.codeAt y := rfl
@[simp] theorem State.setBits_nodeAt (seq : List Bool) (i : Slot) : (s.setBits seq).nodeAt i = s.nodeAt i := rfl
@[simp] theorem State.setBits_child (seq : List Bool) (i : Slot) (br : Bool) : (s.setBits seq).child i br = s.child i br := rfl
@[simp] theorem State.setBits_usedSyms (seq : List Bool) : (s.setBits seq).usedSyms = s.usedSyms := rfl

@[simp] theorem State.setOut_textLen (o : List Sym) (p : Nat) : (s.setOut o p).textLen = s.textLen := rfl
@[simp] theorem State.setOut_bitLen (o : List Sym) (p : Nat) : (s.setOut o p).bitLen = s.bitLen := rfl
@[simp] theorem State.setOut_nodeCount (o : List Sym) (p : Nat) : (s.setOut o p).nodeCount = s.nodeCount := rfl
@[simp] theorem State.setOut_freqAt (o : List Sym) (p : Nat) (y : Sym) : (s.setOut o p).freqAt y = s.freqAt y := rfl
@[simp] theorem State.setOut_codeAt (o : List Sym) (p : Nat) (y : Sym) : (s.setOut o p).codeAt y = s.codeAt y := rfl
@[simp] theorem State.setOut_nodeAt (o : List Sym) (p : Nat) (i : Slot) : (s.setOut o p).nodeAt i = s.nodeAt i := rfl
@[simp] theorem State.setOut_child (o : List Sym) (p : Nat) (i : Slot) (br : Bool) : (s.setOut o p).child i br = s.child i br := rfl
@[simp] theorem State.setOut_usedSyms (o : List Sym) (p : Nat) : (s.setOut o p).usedSyms = s.usedSyms := rfl

@[simp] theorem State.clearOut_textLen : (s.clearOut).textLen = s.textLen := rfl
@[simp] theorem State.clearOut_bitLen : (s.clearOut).bitLen = s.bitLen := rfl
@[simp] theorem State.clearOut_nodeCount : (s.clearOut).nodeCount = s.nodeCount := rfl
@[simp] theorem State.clearOut_freqAt (y : Sym) : (s.clearOut).freqAt y = s.freqAt y := rfl
@[simp] theorem State.clearOut_codeAt (y : Sym) : (s.clearOut).codeAt y = s.codeAt y := rfl
@[simp] theorem State.clearOut_nodeAt (i : Slot) : (s.clearOut).nodeAt i = s.nodeAt i := rfl
@[simp] theorem State.clearOut_child (i : Slot) (br : Bool) : (s.clearOut).child i br = s.child i br := rfl
@[simp] theorem State.clearOut_usedSyms : (s.clearOut).usedSyms = s.usedSyms := rfl

@[simp] theorem State.setWalk_textLen (cur : Slot) (hit used : Bool) (x : Sym) : (s.setWalk cur hit used x).textLen = s.textLen := rfl
@[simp] theorem State.setWalk_bitLen (cur : Slot) (hit used : Bool) (x : Sym) : (s.setWalk cur hit used x).bitLen = s.bitLen := rfl
@[simp] theorem State.setWalk_outLen (cur : Slot) (hit used : Bool) (x : Sym) : (s.setWalk cur hit used x).outLen = s.outLen := rfl
@[simp] theorem State.setWalk_nodeCount (cur : Slot) (hit used : Bool) (x : Sym) : (s.setWalk cur hit used x).nodeCount = s.nodeCount := rfl
@[simp] theorem State.setWalk_freqAt (cur : Slot) (hit used : Bool) (x : Sym) (y : Sym) : (s.setWalk cur hit used x).freqAt y = s.freqAt y := rfl
@[simp] theorem State.setWalk_codeAt (cur : Slot) (hit used : Bool) (x : Sym) (y : Sym) : (s.setWalk cur hit used x).codeAt y = s.codeAt y := rfl
@[simp] theorem State.setWalk_nodeAt (cur : Slot) (hit used : Bool) (x : Sym) (i : Slot) : (s.setWalk cur hit used x).nodeAt i = s.nodeAt i := rfl
@[simp] theorem State.setWalk_child (cur : Slot) (hit used : Bool) (x : Sym) (i : Slot) (br : Bool) : (s.setWalk cur hit used x).child i br = s.child i br := rfl
@[simp] theorem State.setWalk_usedSyms (cur : Slot) (hit used : Bool) (x : Sym) : (s.setWalk cur hit used x).usedSyms = s.usedSyms := rfl

@[simp] theorem State.setTree_textLen (arena : List Node) (rt : Slot) : (s.setTree arena rt).textLen = s.textLen := rfl
@[simp] theorem State.setTree_bitLen (arena : List Node) (rt : Slot) : (s.setTree arena rt).bitLen = s.bitLen := rfl
@[simp] theorem State.setTree_outLen (arena : List Node) (rt : Slot) : (s.setTree arena rt).outLen = s.outLen := rfl
@[simp] theorem State.setTree_freqAt (arena : List Node) (rt : Slot) (y : Sym) : (s.setTree arena rt).freqAt y = s.freqAt y := rfl
@[simp] theorem State.setTree_codeAt (arena : List Node) (rt : Slot) (y : Sym) : (s.setTree arena rt).codeAt y = s.codeAt y := rfl
@[simp] theorem State.setTree_usedSyms (arena : List Node) (rt : Slot) : (s.setTree arena rt).usedSyms = s.usedSyms := rfl

@[simp] theorem State.dropTree_textLen : (s.dropTree).textLen = s.textLen := rfl
@[simp] theorem State.dropTree_bitLen : (s.dropTree).bitLen = s.bitLen := rfl
@[simp] theorem State.dropTree_outLen : (s.dropTree).outLen = s.outLen := rfl
@[simp] theorem State.dropTree_freqAt (y : Sym) : (s.dropTree).freqAt y = s.freqAt y := rfl
@[simp] theorem State.dropTree_codeAt (y : Sym) : (s.dropTree).codeAt y = s.codeAt y := rfl
@[simp] theorem State.dropTree_usedSyms : (s.dropTree).usedSyms = s.usedSyms := rfl

@[simp] theorem State.setCodes_textLen (c : Vector CodeEntry 128) : (s.setCodes c).textLen = s.textLen := rfl
@[simp] theorem State.setCodes_bitLen (c : Vector CodeEntry 128) : (s.setCodes c).bitLen = s.bitLen := rfl
@[simp] theorem State.setCodes_outLen (c : Vector CodeEntry 128) : (s.setCodes c).outLen = s.outLen := rfl
@[simp] theorem State.setCodes_nodeCount (c : Vector CodeEntry 128) : (s.setCodes c).nodeCount = s.nodeCount := rfl
@[simp] theorem State.setCodes_freqAt (c : Vector CodeEntry 128) (y : Sym) : (s.setCodes c).freqAt y = s.freqAt y := rfl
@[simp] theorem State.setCodes_nodeAt (c : Vector CodeEntry 128) (i : Slot) : (s.setCodes c).nodeAt i = s.nodeAt i := rfl
@[simp] theorem State.setCodes_child (c : Vector CodeEntry 128) (i : Slot) (br : Bool) : (s.setCodes c).child i br = s.child i br := rfl
@[simp] theorem State.setCodes_usedSyms (c : Vector CodeEntry 128) : (s.setCodes c).usedSyms = s.usedSyms := rfl

@[simp] theorem State.dropCodes_textLen : (s.dropCodes).textLen = s.textLen := rfl
@[simp] theorem State.dropCodes_bitLen : (s.dropCodes).bitLen = s.bitLen := rfl
@[simp] theorem State.dropCodes_outLen : (s.dropCodes).outLen = s.outLen := rfl
@[simp] theorem State.dropCodes_nodeCount : (s.dropCodes).nodeCount = s.nodeCount := rfl
@[simp] theorem State.dropCodes_freqAt (y : Sym) : (s.dropCodes).freqAt y = s.freqAt y := rfl
@[simp] theorem State.dropCodes_nodeAt (i : Slot) : (s.dropCodes).nodeAt i = s.nodeAt i := rfl
@[simp] theorem State.dropCodes_child (i : Slot) (br : Bool) : (s.dropCodes).child i br = s.child i br := rfl
@[simp] theorem State.dropCodes_usedSyms : (s.dropCodes).usedSyms = s.usedSyms := rfl

@[simp] theorem State.setRes_textLen (len : BitVec 8) (path : Path) : (s.setRes len path).textLen = s.textLen := rfl
@[simp] theorem State.setRes_bitLen (len : BitVec 8) (path : Path) : (s.setRes len path).bitLen = s.bitLen := rfl
@[simp] theorem State.setRes_outLen (len : BitVec 8) (path : Path) : (s.setRes len path).outLen = s.outLen := rfl
@[simp] theorem State.setRes_nodeCount (len : BitVec 8) (path : Path) : (s.setRes len path).nodeCount = s.nodeCount := rfl
@[simp] theorem State.setRes_freqAt (len : BitVec 8) (path : Path) (y : Sym) : (s.setRes len path).freqAt y = s.freqAt y := rfl
@[simp] theorem State.setRes_codeAt (len : BitVec 8) (path : Path) (y : Sym) : (s.setRes len path).codeAt y = s.codeAt y := rfl
@[simp] theorem State.setRes_nodeAt (len : BitVec 8) (path : Path) (i : Slot) : (s.setRes len path).nodeAt i = s.nodeAt i := rfl
@[simp] theorem State.setRes_child (len : BitVec 8) (path : Path) (i : Slot) (br : Bool) : (s.setRes len path).child i br = s.child i br := rfl
@[simp] theorem State.setRes_usedSyms (len : BitVec 8) (path : Path) : (s.setRes len path).usedSyms = s.usedSyms := rfl

@[simp] theorem State.answer_textLen (r : Reply) : (s.answer r).textLen = s.textLen := rfl
@[simp] theorem State.answer_bitLen (r : Reply) : (s.answer r).bitLen = s.bitLen := rfl
@[simp] theorem State.answer_outLen (r : Reply) : (s.answer r).outLen = s.outLen := rfl
@[simp] theorem State.answer_nodeCount (r : Reply) : (s.answer r).nodeCount = s.nodeCount := rfl
@[simp] theorem State.answer_freqAt (r : Reply) (y : Sym) : (s.answer r).freqAt y = s.freqAt y := rfl
@[simp] theorem State.answer_codeAt (r : Reply) (y : Sym) : (s.answer r).codeAt y = s.codeAt y := rfl
@[simp] theorem State.answer_nodeAt (r : Reply) (i : Slot) : (s.answer r).nodeAt i = s.nodeAt i := rfl
@[simp] theorem State.answer_child (r : Reply) (i : Slot) (br : Bool) : (s.answer r).child i br = s.child i br := rfl
@[simp] theorem State.answer_usedSyms (r : Reply) : (s.answer r).usedSyms = s.usedSyms := rfl

@[simp] theorem State.answerDraw_textLen : (s.answerDraw).textLen = s.textLen := rfl
@[simp] theorem State.answerDraw_bitLen : (s.answerDraw).bitLen = s.bitLen := rfl
@[simp] theorem State.answerDraw_outLen : (s.answerDraw).outLen = s.outLen := rfl
@[simp] theorem State.answerDraw_nodeCount : (s.answerDraw).nodeCount = s.nodeCount := rfl
@[simp] theorem State.answerDraw_freqAt (y : Sym) : (s.answerDraw).freqAt y = s.freqAt y := rfl
@[simp] theorem State.answerDraw_codeAt (y : Sym) : (s.answerDraw).codeAt y = s.codeAt y := rfl
@[simp] theorem State.answerDraw_usedSyms : (s.answerDraw).usedSyms = s.usedSyms := rfl

end Sys2Proof.Machine
end

