-- ==== Sys2Proof/Laws/Aperture.lean ====
section
/-! SUPPORT. The address map, and what each window word packs. -/

namespace Sys2Proof.Machine

/-! ### The map -/

/-- An aligned word access reaches the location its offset maps to. -/
theorem accessLoc_ofNat (n : Nat) (h : n < 65536) (h4 : n % 4 = 0) : accessLoc (BitVec.ofNat 16 n) 4 = locate n := by
  have : (BitVec.ofNat 16 n).toNat = n := by simp; omega
  simp [accessLoc, accessOk, this, h4]

/-- What a location holds does not depend on the agenda. -/
theorem locWord_agenda (s : State) (r : List Event) (l : Loc) : ({ s with agenda := r } : State).locWord l = s.locWord l := by
  cases l <;> rfl

/-- A host read at the head of the agenda is the step. -/
theorem step_hostRead (s : State) (a : Offset) (size : Nat) (rest : List Event) :
    step { s with agenda := .hostRead a size :: rest } = .next (hostRead { s with agenda := rest } a size) := rfl

/-- An aligned offset that maps to l reads the word of l, while idle or where R72 lets it be read while busy. -/
theorem readsAs_of_locate (s : State) (n : Nat) (l : Loc) (h : n < 65536) (h4 : n % 4 = 0) (hl : locate n = some l)
    (hb : s.busy = false ∨ l.readableBusy = true) : s.ReadsAs n (s.locWord l) := by
  intro rest
  have hc : (s.busy && !l.readableBusy) = false := by rcases hb with h | h <;> simp [h]
  rw [step_hostRead, hostRead, accessLoc_ofNat n h h4, hl]
  simp only [hc, locWord_agenda, State.answer]
  rfl

/-- locations -/
theorem locate_freq (x : Sym) : locate (0x0400 + 4 * x.toNat) = some (.freq x) := by
  have := x.isLt
  have h1 : ¬ (0x0400 + 4 * x.toNat < 0x44) := by omega
  have h2 : ¬ (0x0400 + 4 * x.toNat < 0x400) := by omega
  have h3 : (0x0400 + 4 * x.toNat < 0x600) := by omega
  have h4 : (0x0400 + 4 * x.toNat - 0x400) / 4 = x.toNat := by omega
  simp only [locate, h1, h2, h3, h4, if_true, if_false, BitVec.ofNat_toNat, BitVec.setWidth_eq]

/-- The NODE window (R69). -/
theorem locate_node (i w : Nat) (hi : i < 256) (hw : w < 2) : locate (0x1000 + 8 * i + 4 * w) = some (.node i w) := by
  unfold locate
  repeat (rw [if_neg (by omega)])
  rw [if_pos (by omega)]
  congr 2 <;> omega

/-- The CODE window (R70). -/
theorem locate_code (x : Sym) (k : Nat) (hk : k < 8) : locate (0x2000 + 32 * x.toNat + 4 * k) = some (.code x k) := by
  have := x.isLt
  unfold locate
  repeat (rw [if_neg (by omega)])
  rw [if_pos (by omega), show (0x2000 + 32 * x.toNat + 4 * k - 0x2000) / 32 = x.toNat by omega,
    show (0x2000 + 32 * x.toNat + 4 * k - 0x2000) / 4 % 8 = k by omega]
  simp

/-- The TEXT window (R71). -/
theorem locate_text (j : Nat) (hj : j < 1024) : locate (0x4000 + 4 * j) = some (.text j) := by
  unfold locate
  repeat (rw [if_neg (by omega)])
  rw [if_pos (by omega)]
  congr 2; omega

/-- The OUT window (R71). -/
theorem locate_out (j : Nat) (hj : j < 1024) : locate (0x5000 + 4 * j) = some (.out j) := by
  unfold locate
  repeat (rw [if_neg (by omega)])
  rw [if_pos (by omega)]
  congr 2; omega

/-- The BITS window (R73). -/
theorem locate_bits (j : Nat) (hj : j < 1024) : locate (0x8000 + 4 * j) = some (.bits j) := by
  unfold locate
  repeat (rw [if_neg (by omega)])
  rw [if_pos (by omega)]
  congr 2; omega

/-- The mapped offsets (R63). -/
theorem locate_isSome (n : Nat) : (locate n).isSome = true ↔
    n < 0x044 ∨ (0x0400 ≤ n ∧ n < 0x0600) ∨ (0x1000 ≤ n ∧ n < 0x1800) ∨ (0x2000 ≤ n ∧ n < 0x3000) ∨ (0x4000 ≤ n ∧ n < 0x6000) ∨ (0x8000 ≤ n ∧ n < 0x9000) := by
  have reg : n < 0x044 → (registerLocs[n / 4]?).isSome = true := by
    intro h
    have : n / 4 < registerLocs.length := by simp [registerLocs]; omega
    rw [List.getElem?_eq_getElem this]; rfl
  rw [locate]
  by_cases h : n < 0x044
  · rw [if_pos h]; exact iff_of_true (reg h) (.inl h)
  rw [if_neg h]
  by_cases h0 : n < 0x0400
  · rw [if_pos h0]; exact iff_of_false (by decide) (by omega)
  rw [if_neg h0]
  by_cases h1 : n < 0x0600
  · rw [if_pos h1]; exact iff_of_true rfl (by omega)
  rw [if_neg h1]
  by_cases h2 : n < 0x1000
  · rw [if_pos h2]; exact iff_of_false (by decide) (by omega)
  rw [if_neg h2]
  by_cases h3 : n < 0x1800
  · rw [if_pos h3]; exact iff_of_true rfl (by omega)
  rw [if_neg h3]
  by_cases h4 : n < 0x2000
  · rw [if_pos h4]; exact iff_of_false (by decide) (by omega)
  rw [if_neg h4]
  by_cases h5 : n < 0x3000
  · rw [if_pos h5]; exact iff_of_true rfl (by omega)
  rw [if_neg h5]
  by_cases h6 : n < 0x4000
  · rw [if_pos h6]; exact iff_of_false (by decide) (by omega)
  rw [if_neg h6]
  by_cases h7 : n < 0x5000
  · rw [if_pos h7]; exact iff_of_true rfl (by omega)
  rw [if_neg h7]
  by_cases h8 : n < 0x6000
  · rw [if_pos h8]; exact iff_of_true rfl (by omega)
  rw [if_neg h8]
  by_cases h9 : n < 0x8000
  · rw [if_pos h9]; exact iff_of_false (by decide) (by omega)
  rw [if_neg h9]
  by_cases h10 : n < 0x9000
  · rw [if_pos h10]; exact iff_of_true rfl (by omega)
  rw [if_neg h10]
  exact iff_of_false (by decide) (by omega)

/-- The accesses that get OKAY (R62). -/
theorem accessLoc_isSome (a : Offset) (size : Nat) : (accessLoc a size).isSome = true ↔ a.toNat % 4 = 0 ∧ size = 4 ∧ MappedOffset a := by
  unfold accessLoc accessOk MappedOffset
  split
  · rename_i h; simp only [Bool.and_eq_true, decide_eq_true_eq] at h
    rw [locate_isSome]; simp [h]
  · rename_i h; simp only [Bool.and_eq_true, decide_eq_true_eq] at h
    simp; intro h1 h2; exact absurd ⟨h2, h1⟩ h

/-- A bad access reaches nothing. -/
theorem accessLoc_none (a : Offset) (size : Nat) (h : a.toNat % 4 ≠ 0 ∨ size ≠ 4 ∨ ¬ MappedOffset a) : accessLoc a size = none := by
  have := accessLoc_isSome a size
  rw [← Option.not_isSome_iff_eq_none, this]; tauto

/-- An aligned word access at a mapped offset reaches a location. -/
theorem accessLoc_some (a : Offset) (h1 : a.toNat % 4 = 0) (h2 : MappedOffset a) : ∃ l, accessLoc a 4 = some l :=
  Option.isSome_iff_exists.1 ((accessLoc_isSome a 4).2 ⟨h1, rfl, h2⟩)

/-- The only offsets that reach ID, CMD and STATUS. -/
theorem locate_active (n : Nat) (l : Loc) (h : locate n = some l) (h4 : n % 4 = 0) : 
   (l = .cmd → n = 4) ∧ (l = .status → n = 8) ∧ (l = .id → n = 0) := by
  rw [locate] at h
  by_cases h' : n < 0x044
  · rw [if_pos h'] at h
    obtain ⟨k, rfl⟩ : ∃ k, n = 4 * k := ⟨n / 4, by omega⟩
    rw [show 4 * k / 4 = k by omega] at h
    have hk : k < 17 := by omega
    interval_cases k <;> simp [registerLocs] at h <;> subst h <;> decide
  rw [if_neg h'] at h
  by_cases h0 : n < 0x0400
  · rw [if_pos h0] at h; cases h
  rw [if_neg h0] at h
  by_cases h1 : n < 0x0600
  · rw [if_pos h1] at h; cases h; exact ⟨nofun, nofun, nofun⟩
  rw [if_neg h1] at h
  by_cases h2 : n < 0x1000
  · rw [if_pos h2] at h; cases h
  rw [if_neg h2] at h
  by_cases h3 : n < 0x1800
  · rw [if_pos h3] at h; cases h; exact ⟨nofun, nofun, nofun⟩
  rw [if_neg h3] at h
  by_cases h4 : n < 0x2000
  · rw [if_pos h4] at h; cases h
  rw [if_neg h4] at h
  by_cases h5 : n < 0x3000
  · rw [if_pos h5] at h; cases h; exact ⟨nofun, nofun, nofun⟩
  rw [if_neg h5] at h
  by_cases h6 : n < 0x4000
  · rw [if_pos h6] at h; cases h
  rw [if_neg h6] at h
  by_cases h7 : n < 0x5000
  · rw [if_pos h7] at h; cases h; exact ⟨nofun, nofun, nofun⟩
  rw [if_neg h7] at h
  by_cases h8 : n < 0x6000
  · rw [if_pos h8] at h; cases h; exact ⟨nofun, nofun, nofun⟩
  rw [if_neg h8] at h
  by_cases h9 : n < 0x8000
  · rw [if_pos h9] at h; cases h
  rw [if_neg h9] at h
  by_cases h10 : n < 0x9000
  · rw [if_pos h10] at h; cases h; exact ⟨nofun, nofun, nofun⟩
  rw [if_neg h10] at h
  cases h

/-! ### Packing -/

/-- Bit m of a bit sequence as a number. -/
theorem getLsbD_bitsToNat (bs : List Bool) (m : Nat) : (bitsToNat bs).testBit m = (bs[m]?).getD false := by
  induction bs generalizing m with
  | nil => simp [bitsToNat]
  | cons b bs ih =>
    cases m with
    | zero => cases b <;> simp [bitsToNat, Nat.testBit_zero]
    | succ m => 
      rw [Nat.testBit_succ, show (bitsToNat (b :: bs)) / 2 = bitsToNat bs by cases b <;> simp [bitsToNat] <;> omega, ih]; simp

/-- Bit m of a BITS word (R73). -/
theorem getLsbD_packBits (bs : List Bool) (j m : Nat) (hm : m < 32) : (packBits bs j).getLsbD m = (bs[32 * j + m]?).getD false := by
  rw [packBits, BitVec.getLsbD_ofNat, getLsbD_bitsToNat]
  simp [List.getElem?_take, List.getElem?_drop, hm]

/-- Byte m of a TEXT or OUT word (R71). -/
theorem extract_packSyms (xs : List Sym) (j m : Nat) (hm : m < 4) : (packSyms xs j).extractLsb' (8 * m) 8 = symByte xs (4 * j + m) := by
  have key : ∀ a b c d : BitVec 8, ∀ m < 4, ((a ++ (b ++ (c ++ d)) : BitVec 32)).extractLsb' (8 * m) 8 = if m = 0 then d else if m = 1 then c else if m = 2 then b else a := by
    intro a b c d m hm
    apply BitVec.eq_of_getLsbD_eq
    intro k hk
    rw [BitVec.getLsbD_extractLsb']
    show (decide (k < 8) && (a ++ (b ++ (c ++ d)) : BitVec (8 + (8 + (8 + 8)))).getLsbD _) = _
    rw [BitVec.getLsbD_append, BitVec.getLsbD_append, BitVec.getLsbD_append]
    have : m = 0 ∨ m = 1 ∨ m = 2 ∨ m = 3 := by omega
    rcases this with rfl | rfl | rfl | rfl <;> interval_cases k <;> simp
  rw [packSyms, key _ _ _ _ m hm]
  have : m = 0 ∨ m = 1 ∨ m = 2 ∨ m = 3 := by omega
  rcases this with rfl | rfl | rfl | rfl <;> simp

/-- The fields of word 1 of a node (R69). -/
theorem nodeWord1_fields : ∀ n : Node, (nodeWord1 n).getLsbD 31 = true ∧ (nodeWord1 n).getLsbD 30 = n.leaf ∧
        (nodeWord1 n).getLsbD 29 = n.consumed ∧ (nodeWord1 n).extractLsb' 23 6 = 0 ∧ (nodeWord1 n).extractLsb' 16 7 = n.sym ∧
        (nodeWord1 n).extractLsb' 8 8 = n.left ∧ (nodeWord1 n).extractLsb' 0 8 = n.right := by
  intro n
  have key : ∀ j, (nodeWord1 n).getLsbD j = if j < 8 then n.right.getLsbD j else if j < 16 then n.left.getLsbD (j-8) else if j < 23 then n.sym.getLsbD (j - 16) else if j < 29 then false else if j = 29 then n.consumed else if j = 30 then n.leaf else decide (j = 31) := by
    intro j
    show (1#1 ++ (flagBit n.leaf ++ (flagBit n.consumed ++ (0#6 ++ (n.sym ++ (n.left ++ n.right))))) : BitVec (1 + (1 + (1 + (6 + (7 + (8 + 8))))))).getLsbD j = _
    simp only [BitVec.getLsbD_append, flagBit, BitVec.getLsbD_ofBool]
    split_ifs <;> (try omega) <;> (try simp) <;> (try rfl) <;> (try omega) <;> (try (congr 1; omega))
    all_goals (simp [BitVec.getLsbD_one]; try omega)
  refine ⟨by rw [key]; simp, by rw [key]; simp, by rw [key]; simp, ?_, ?_, ?_, ?_⟩ <;>
    (apply BitVec.eq_of_getLsbD_eq; intro j hj; rw [BitVec.getLsbD_extractLsb', key]; interval_cases j <;> simp)

/-- The fields of word 0 of a code entry (R70). -/
theorem codeWord0_fields : ∀ e : CodeEntry, (codeWord0 e).getLsbD 31 = e.present ∧ (codeWord0 e).extractLsb' 8 23 = 0 ∧ (codeWord0 e).extractLsb' 0 8 = e.len := by
  intro e
  have key : ∀ j, (codeWord0 e).getLsbD j = if j < 8 then e.len.getLsbD j else if j < 31 then false else decide (j = 31) && e.present := by
    intro j
    show (flagBit e.present ++ (0#23 ++ e.len) : BitVec (1 + (23 + 8))).getLsbD j = _
    simp only [BitVec.getLsbD_append, flagBit, BitVec.getLsbD_ofBool]
    split_ifs <;> (try omega) <;> (try simp) <;> (try omega)
    congr 2; apply propext; omega
  refine ⟨by rw [key]; simp, ?_, ?_⟩ <;>
    (apply BitVec.eq_of_getLsbD_eq; intro j hj; rw [BitVec.getLsbD_extractLsb', key]; interval_cases j <;> simp)

end Sys2Proof.Machine
end

