-- ==== Sys2Proof/Laws/MergeEngine.lean ====
section
/-! SUPPORT. The merge engine: the least pair, the candidates, and what one round does to the arena (R134-R136). -/

namespace Sys2Proof.Machine

/-! ### The least pair -/

/-- Only an empty list has no least candidate. -/
theorem leastOf_eq_none {cs : List Candidate} : leastOf cs = none ↔ cs = [] := by
  cases cs with
  | nil => simp [leastOf]
  | cons c cs => simp only [leastOf, reduceCtorEq, iff_false]; split <;> (try split) <;> simp

/-- The least candidate is a candidate. -/
theorem leastOf_mem {cs : List Candidate} {c : Candidate} (h : leastOf cs = some c) : c ∈ cs := by
  induction cs generalizing c with
  | nil => simp [leastOf] at h
  | cons d cs ih =>
    simp only [leastOf] at h
    split at h
    · simp_all
    · rename_i e he
      split at h
      · obtain rfl : e = c := by simpa using h
        exact List.mem_cons_of_mem _ (ih he)
      · simp_all

/-- Not below: the key order is total. -/
theorem keyBelow_false {a b : Candidate} (h : keyBelow a b = false) :
    b.1.weight.toNat < a.1.weight.toNat ∨ (b.1.weight.toNat = a.1.weight.toNat ∧ b.2 ≤ a.2) := by
  simp [keyBelow] at h; omega

/-- A key below another. -/
theorem keyBelow_true {a b : Candidate} (h : keyBelow a b = true) :
    a.1.weight.toNat < b.1.weight.toNat ∨ (a.1.weight.toNat = b.1.weight.toNat ∧ a.2 < b.2) := by
  simp [keyBelow] at h; omega

/-- The least candidate is at most every candidate, by (weight, slot) (R134). -/
theorem leastOf_le {cs : List Candidate} {c d : Candidate} (h : leastOf cs = some c) (hd : d ∈ cs) :
    c.1.weight.toNat < d.1.weight.toNat ∨ (c.1.weight.toNat = d.1.weight.toNat ∧ c.2 ≤ d.2) := by
  induction cs generalizing c with
  | nil => simp at hd
  | cons e cs ih =>
    simp only [leastOf] at h
    split at h
    · rename_i hn
      rw [leastOf_eq_none] at hn
      subst hn
      simp_all
    · rename_i f hf
      split at h
      · rename_i hk
        obtain rfl : f = c := by simpa using h
        have := keyBelow_true hk
        rcases List.mem_cons.1 hd with rfl | hd
        · omega
        · exact ih hf hd
      · rename_i hk
        obtain rfl : e = c := by simpa using h
        have := keyBelow_false (by simpa using hk)
        rcases List.mem_cons.1 hd with rfl | hd
        · omega
        · have := ih hf hd
          omega

/-- What the least and the second-least are. -/
theorem leastTwo_eq_some {cs : List Candidate} {lo lo2 : Candidate} :
    leastTwo cs = some (lo, lo2) ↔ leastOf cs = some lo ∧ leastOf (cs.filter fun c => c.2 ≠ lo.2) = some lo2 := by
  unfold leastTwo
  split
  · simp_all
  · rename_i l hl
    split
    · rename_i hn; simp only [reduceCtorEq, false_iff, not_and, hl]; rintro h; obtain rfl : l = lo := by simpa using h
      rw [hn]; simp
    · rename_i l2 hl2
      simp only [Option.some.injEq, Prod.mk.injEq, hl]
      constructor
      · rintro ⟨rfl, rfl⟩; exact ⟨rfl, hl2⟩
      · rintro ⟨rfl, h⟩; rw [hl2] at h; exact ⟨rfl, by simpa using h⟩

/-! ### Candidates -/

/-- A candidate is an unconsumed node in its slot (R134). -/
theorem mem_candidates {A : List Node} {c : Candidate} :
    c ∈ candidates A ↔ A[c.2]? = some c.1 ∧ c.1.consumed = false := by
  obtain ⟨n, i⟩ := c
  simp [candidates, List.mem_zipIdx_iff_getElem?]

/-- A new unconsumed node is the last candidate. -/
theorem candidates_append_one (A : List Node) (n : Node) (h : n.consumed = false) :
    candidates (A ++ [n]) = candidates A ++ [(n, A.length)] := by
  simp [candidates, List.zipIdx_append, h]

/-- What marking a slot does to each slot. -/
theorem markConsumed_getElem? (A : List Node) (i j : Nat) :
    (markConsumed A i)[j]? = if i = j then (A[j]?).map (fun n => { n with consumed := true }) else A[j]? := by
  simp only [markConsumed, List.getElem?_modify]
  split <;> simp

/-- Marking keeps the length. -/
theorem length_markConsumed (A : List Node) (i : Nat) : (markConsumed A i).length = A.length := by
  simp [markConsumed]

/-- Marking slot i takes it out of the numbered unconsumed nodes. -/
theorem zipIdx_modify_filter (A : List Node) (i k : Nat) :
    ((A.modify i fun n => { n with consumed := true }).zipIdx k).filter (fun c => !c.1.consumed) =
    ((A.zipIdx k).filter fun c => !c.1.consumed).filter fun c => c.2 ≠ i + k := by
  induction A generalizing i k with
  | nil => simp
  | cons a A ih =>
    cases i with
    | zero =>
      simp only [List.modify_zero_cons, List.zipIdx_cons, List.filter_filter]
      rw [List.filter_cons_of_neg (by simp), List.filter_cons_of_neg (by simp)]
      apply List.filter_congr
      intro c hc
      have := List.le_snd_of_mem_zipIdx hc
      simp; omega
    | succ i =>
      have := ih i (k+1)
      simp only [List.modify_succ_cons, List.zipIdx_cons, List.filter_cons]
      have hk : k ≠ i + 1 + k := by omega
      cases hc : a.consumed <;> simp [hk, this, show i + (k+1) = i + 1 + k by omega]

/-- Marking a slot takes it out of the candidates. -/
theorem candidates_markConsumed (A : List Node) (i : Nat) :
    candidates (markConsumed A i) = (candidates A).filter fun c => c.2 ≠ i := by
  simpa [candidates, markConsumed] using zipIdx_modify_filter A i 0

/-- The candidates stand in slot order. -/
theorem candidates_pairwise (A : List Node) : ((candidates A).map (·.2)).Pairwise (· < ·) := by
  have : (A.zipIdx.map (·.2)).Pairwise (· < ·) := by
    simp [List.zipIdx_map_snd, List.pairwise_lt_range']
  exact this.sublist ((List.filter_sublist).map _)

/-- No slot is a candidate twice. -/
theorem candidates_nodup (A : List Node) : ((candidates A).map (·.2)).Nodup :=
  (candidates_pairwise A).imp fun h => Nat.ne_of_lt h

/-- A member first, the others after it. -/
theorem nodup_perm_filter (cs : List Candidate) (h : (cs.map (·.2)).Nodup) (c : Candidate) (hc : c ∈ cs) :
    cs.Perm (c :: cs.filter fun d => d.2 ≠ c.2) := by
  induction cs with
  | nil => simp at hc
  | cons e cs ih =>
    simp only [List.map_cons, List.nodup_cons, List.mem_map, not_exists, not_and] at h
    rcases List.mem_cons.1 hc with rfl | hc
    · rw [List.filter_cons_of_neg (by simp)]
      rw [List.filter_eq_self.2]
      intro d hd; simpa using h.1 d hd
    · have : e.2 ≠ c.2 := fun he => h.1 c hc he.symm
      rw [List.filter_cons_of_pos (by simpa using this)]
      exact ((ih h.2 hc).cons e).trans (List.Perm.swap _ _ _)

/-- Two candidates have a least and a second-least. -/
theorem leastTwo_isSome {cs : List Candidate} (h : 2 ≤ cs.length) (nd : (cs.map (·.2)).Nodup) :
    ∃ p, leastTwo cs = some p := by
  cases h1 : leastOf cs with
  | none => rw [leastOf_eq_none] at h1; simp [h1] at h
  | some lo =>
    have hp := nodup_perm_filter cs nd lo (leastOf_mem h1)
    cases h2 : leastOf (cs.filter fun c => c.2 ≠ lo.2) with
    | none => rw [leastOf_eq_none] at h2; rw [h2] at hp; have := hp.length_eq; simp at this; omega
    | some lo2 => exact ⟨(lo, lo2), leastTwo_eq_some.2 ⟨h1, h2⟩⟩

/-! ### One round -/

/-- The candidates before a round are the pair and the rest; after it, the rest and the new node. -/
theorem mergeRound_candidates {A : List Node} {lo lo2 : Candidate} (h : leastTwo (candidates A) = some (lo, lo2)) :
    mergeRound A = markConsumed (markConsumed A lo.2) lo2.2 ++ [mergedNode lo lo2] ∧
    ∃ rest, (candidates A).Perm (lo :: lo2 :: rest) ∧
      candidates (mergeRound A) = rest ++ [(mergedNode lo lo2, A.length)] := by
  have hm : mergeRound A = markConsumed (markConsumed A lo.2) lo2.2 ++ [mergedNode lo lo2] := by
    simp [mergeRound, h]
  refine ⟨hm, ((candidates A).filter fun c => c.2 ≠ lo.2).filter fun c => c.2 ≠ lo2.2, ?_, ?_⟩
  · obtain ⟨h1, h2⟩ := leastTwo_eq_some.1 h
    have nd : ((candidates A).map (·.2)).Nodup := (candidates_pairwise A).imp (fun h => Nat.ne_of_lt h)
    refine (nodup_perm_filter _ nd lo (leastOf_mem h1)).trans (List.Perm.cons _ ?_)
    exact nodup_perm_filter _ (nd.sublist ((List.filter_sublist).map _)) lo2 (leastOf_mem h2)
  · rw [hm, candidates_append_one _ _ rfl, candidates_markConsumed, candidates_markConsumed,
      length_markConsumed, length_markConsumed]

/-- A round adds one slot (R136). -/
theorem mergeRound_length {A : List Node} {lo lo2 : Candidate} (h : leastTwo (candidates A) = some (lo, lo2)) :
    (mergeRound A).length = A.length + 1 := by
  rw [(mergeRound_candidates h).1]; simp [length_markConsumed]

/-- A round changes only the consumed marks of the pair. -/
theorem mergeRound_lt {A : List Node} {lo lo2 : Candidate} (h : leastTwo (candidates A) = some (lo, lo2)) {j : Nat} {n : Node}
    (hj : A[j]? = some n) :
    (mergeRound A)[j]? = some { n with consumed := n.consumed || decide (j = lo.2) || decide (j = lo2.2) } := by
  have hlt : j < A.length := (List.getElem?_eq_some_iff.1 hj).1
  rw [(mergeRound_candidates h).1, List.getElem?_append_left (by simpa [length_markConsumed] using hlt),
    markConsumed_getElem?, markConsumed_getElem?, hj]
  by_cases h1 : lo.2 = j <;> by_cases h2 : lo2.2 = j <;>
    simp [h1, h2, eq_comm] <;> simp [h1, h2, Ne.symm h1, Ne.symm h2]

/-- The new slot holds the merged node (R135, R136). -/
theorem mergeRound_new {A : List Node} {lo lo2 : Candidate} (h : leastTwo (candidates A) = some (lo, lo2)) :
    (mergeRound A)[A.length]? = some (mergedNode lo lo2) := by
  rw [(mergeRound_candidates h).1, List.getElem?_append_right (by simp [length_markConsumed])]
  simp [length_markConsumed]

/-- What each slot holds after a round. -/
theorem mergeRound_inv {A : List Node} {lo lo2 : Candidate} (h : leastTwo (candidates A) = some (lo, lo2)) {j : Nat} {n' : Node}
    (hj : (mergeRound A)[j]? = some n') :
    (j = A.length ∧ n' = mergedNode lo lo2) ∨
    ∃ n, A[j]? = some n ∧ n' = { n with consumed := n.consumed || decide (j = lo.2) || decide (j = lo2.2) } := by
  have hlt : j < A.length + 1 := by rw [← mergeRound_length h]; exact (List.getElem?_eq_some_iff.1 hj).1
  by_cases hjl : j = A.length
  · left; subst hjl; rw [mergeRound_new h] at hj; exact ⟨rfl, by simpa using hj.symm⟩
  · right
    obtain ⟨n, hn⟩ : ∃ n, A[j]? = some n := ⟨A[j]'(by omega), List.getElem?_eq_getElem (by omega)⟩
    refine ⟨n, hn, ?_⟩
    rw [mergeRound_lt h hn] at hj; simpa using hj.symm

/-- The pair of a round: two different unconsumed slots. -/
theorem pair_facts {A : List Node} {lo lo2 : Candidate} (h : leastTwo (candidates A) = some (lo, lo2)) :
    A[lo.2]? = some lo.1 ∧ lo.1.consumed = false ∧ A[lo2.2]? = some lo2.1 ∧ lo2.1.consumed = false ∧ lo2.2 ≠ lo.2 ∧
      lo.2 < A.length ∧ lo2.2 < A.length := by
  obtain ⟨h1, h2⟩ := leastTwo_eq_some.1 h
  have m1 := mem_candidates.1 (leastOf_mem h1)
  have m2 := leastOf_mem h2
  rw [List.mem_filter] at m2
  have m2' := mem_candidates.1 m2.1
  exact ⟨m1.1, m1.2, m2'.1, m2'.2, by simpa using m2.2, (List.getElem?_eq_some_iff.1 m1.1).1, (List.getElem?_eq_some_iff.1 m2'.1).1⟩

/-- A round leaves the links below the new slot alone. -/
theorem usedBelow_mergeRound {A : List Node} {lo lo2 : Candidate} (h : leastTwo (candidates A) = some (lo, lo2)) {m i : Nat}
    (hm : m ≤ A.length) : UsedBelow (mergeRound A) m i ↔ UsedBelow A m i := by
  constructor
  · rintro ⟨j, n', hj, hn', hl, hc⟩
    rcases mergeRound_inv h hn' with ⟨rfl, -⟩ | ⟨n, hn, rfl⟩
    · omega
    · exact ⟨j, n, hj, hn, hl, hc⟩
  · rintro ⟨j, n, hj, hn, hl, hc⟩
    exact ⟨j, _, hj, mergeRound_lt h hn, hl, hc⟩

/-- A child of a slot below m is one below any greater bound. -/
theorem usedBelow_mono {A : List Node} {m m' i : Nat} (h : UsedBelow A m i) (hm : m ≤ m') : UsedBelow A m' i := by
  obtain ⟨j, n, hj, r⟩ := h
  exact ⟨j, n, by omega, r⟩

/-- The weight in a populated slot. -/
theorem weightAt_eq {A : List Node} {i : Nat} {n : Node} (h : A[i]? = some n) : weightAt A i = n.weight.toNat := by
  simp [weightAt, h]

/-- A round changes no weight. -/
theorem weightAt_mergeRound {A : List Node} {lo lo2 : Candidate} (h : leastTwo (candidates A) = some (lo, lo2)) {i : Nat}
    (hi : i < A.length) : weightAt (mergeRound A) i = weightAt A i := by
  have hn : A[i]? = some (A[i]'hi) := List.getElem?_eq_getElem hi
  rw [weightAt, weightAt, mergeRound_lt h hn, hn]

/-- The links of the merged node name the pair (R135). -/
theorem mergedNode_left {A : List Node} {lo lo2 : Candidate} (h : leastTwo (candidates A) = some (lo, lo2)) (hA : A.length ≤ 256) :
    (mergedNode lo lo2).left.toNat = lo2.2 ∧ (mergedNode lo lo2).right.toNat = lo.2 := by
  have := pair_facts h
  simp [mergedNode]; omega

/-- A round makes no leaf. -/
theorem countP_leaf_mergeRound {A : List Node} {lo lo2 : Candidate} (h : leastTwo (candidates A) = some (lo, lo2)) :
    (mergeRound A).countP (fun n => n.leaf) = A.countP fun n => n.leaf := by
  have mark : ∀ (B : List Node) i, (markConsumed B i).countP (fun n => n.leaf) = B.countP fun n => n.leaf := by
    intro B i
    induction B generalizing i with
    | nil => simp [markConsumed]
    | cons b B ih =>
      cases i with
      | zero => simp [markConsumed, List.countP_cons]
      | succ i => have := ih i; simp [markConsumed, List.countP_cons] at *; omega
  rw [(mergeRound_candidates h).1, List.countP_append, mark, mark]
  simp [mergedNode]

/-! ### The forest -/

/-- What every arena of BUILD's merge engine satisfies. -/
structure Forest (A : List Node) : Prop where
  leafLinks : ∀ n ∈ A, n.leaf = true → n.left = Config.nil ∧ n.right = Config.nil
  links : ∀ (i : Nat) (n : Node), A[i]? = some n → n.leaf = false →
    n.left.toNat < i ∧ n.right.toNat < i ∧ n.left ≠ n.right ∧ n.sym = 0
  consumed : ∀ (j : Nat) (n : Node), A[j]? = some n → (n.consumed = true ↔ UsedBelow A A.length j)
  oneParent : ∀ (i i' j : Nat) (n n' : Node), A[i]? = some n → A[i']? = some n' → n.leaf = false → n'.leaf = false →
    (n.left.toNat = j ∨ n.right.toNat = j) → (n'.left.toNat = j ∨ n'.right.toNat = j) → i = i'
  merged : ∀ (m : Nat) (n : Node), A[m]? = some n → n.leaf = false → MergedAt A m n

/-- Every round keeps the forest: the new node is what R134 and R135 say. -/
theorem Forest.mergeRound {A : List Node} (F : Forest A) (hA : A.length ≤ 255) {lo lo2 : Candidate}
    (h : leastTwo (candidates A) = some (lo, lo2)) : Forest (mergeRound A) := by
  obtain ⟨p1, p2, p3, p4, p5, p6, p7⟩ := pair_facts h
  obtain ⟨q1, q2⟩ := mergedNode_left h (by omega)
  have usedLast : ∀ i, UsedBelow (Machine.mergeRound A) (A.length + 1) i ↔ UsedBelow A A.length i ∨ i = lo.2 ∨ i = lo2.2 := by
    intro i
    constructor
    · rintro ⟨j, n', hj, hn', hl, hc⟩
      rcases mergeRound_inv h hn' with ⟨rfl, rfl⟩ | ⟨n, hn, rfl⟩
      · rw [q1, q2] at hc; right; omega
      · exact .inl ⟨j, n, (List.getElem?_eq_some_iff.1 hn).1, hn, hl, hc⟩
    · rintro (h' | h')
      · exact usedBelow_mono ((usedBelow_mergeRound h (Nat.le_refl _)).2 h') (by omega)
      · exact ⟨A.length, _, by omega, mergeRound_new h, rfl, by rw [q1, q2]; omega⟩
  have notUsed1 : ¬ UsedBelow A A.length lo.2 := by
    intro hu; have := (F.consumed _ _ p1).2 hu; simp [p2] at this
  have notUsed2 : ¬ UsedBelow A A.length lo2.2 := by
    intro hu; have := (F.consumed _ _ p3).2 hu; simp [p4] at this
  constructor
  · intro n' hn' hl
    obtain ⟨j, hj⟩ := List.mem_iff_getElem?.1 hn'
    rcases mergeRound_inv h hj with ⟨-, rfl⟩ | ⟨n, hn, rfl⟩
    · simp [mergedNode] at hl
    · exact F.leafLinks n (List.mem_of_getElem? hn) hl
  · intro i n' hn' hl
    rcases mergeRound_inv h hn' with ⟨rfl, rfl⟩ | ⟨n, hn, rfl⟩
    · refine ⟨by omega, by omega, fun he => ?_, rfl⟩
      have := congrArg BitVec.toNat he; omega
    · exact F.links i n hn hl
  · intro j n' hn'
    rw [mergeRound_length h, usedLast]
    rcases mergeRound_inv h hn' with ⟨rfl, rfl⟩ | ⟨n, hn, rfl⟩
    · simp only [mergedNode, Bool.false_eq_true, false_iff, not_or]
      refine ⟨?_, by omega, by omega⟩
      rintro ⟨i, n, hi, hn, hl, hc⟩
      have := F.links i n hn hl
      omega
    · have := F.consumed j n hn
      simp only [Bool.or_eq_true, decide_eq_true_eq, this]
      tauto
  · intro i i' j n n' hn hn' hl hl' hc hc'
    have key : ∀ {i : Nat} {n : Node}, A[i]? = some n → n.leaf = false → (n.left.toNat = j ∨ n.right.toNat = j) → (j = lo.2 ∨ j = lo2.2) → False := by
      intro i n hn hl hc hj
      have : UsedBelow A A.length j := ⟨i, n, (List.getElem?_eq_some_iff.1 hn).1, hn, hl, hc⟩
      rcases hj with rfl | rfl
      · exact notUsed1 this
      · exact notUsed2 this
    rcases mergeRound_inv h hn with ⟨rfl, rfl⟩ | ⟨m, hm, rfl⟩ <;> rcases mergeRound_inv h hn' with ⟨rfl, rfl⟩ | ⟨m', hm', rfl⟩
    · rfl
    · rw [q1, q2] at hc; exact (key hm' hl' hc' (by omega)).elim
    · rw [q1, q2] at hc'; exact (key hm hl hc (by omega)).elim
    · exact F.oneParent i i' j m m' hm hm' hl hl' hc hc'
  · intro m n' hn' hl
    have wt : ∀ i, i < A.length → weightAt (Machine.mergeRound A) i = weightAt A i := fun i hi => weightAt_mergeRound h hi
    rcases mergeRound_inv h hn' with ⟨rfl, rfl⟩ | ⟨n, hn, rfl⟩
    · obtain ⟨l1, l2⟩ := leastTwo_eq_some.1 h
      have cand : ∀ i, CandidateAt (Machine.mergeRound A) A.length i → ∃ n, (n, i) ∈ candidates A ∧ weightAt A i = n.weight.toNat := by
        rintro i ⟨hi, hu⟩
        rw [usedBelow_mergeRound h (Nat.le_refl _)] at hu
        have hn : A[i]? = some (A[i]'hi) := List.getElem?_eq_getElem hi
        refine ⟨A[i]'hi, mem_candidates.2 ⟨hn, ?_⟩, by simp [weightAt, hn]⟩
        cases hc : (A[i]'hi).consumed with
        | false => rfl
        | true => exact absurd ((F.consumed i _ hn).1 hc) hu
      have w1 : weightAt A lo.2 = lo.1.weight.toNat := by simp [weightAt, p1]
      have w2 : weightAt A lo2.2 = lo2.1.weight.toNat := by simp [weightAt, p3]
      refine ⟨rfl, rfl, ?_, ?_, ?_, ?_, ?_, ?_⟩
      · rw [q2]; exact ⟨p6, by rwa [usedBelow_mergeRound h (Nat.le_refl _)]⟩
      · intro i hi
        obtain ⟨n, hn, hw⟩ := cand i hi
        rw [q2, KeyLe, wt _ p6, wt _ hi.1, w1, hw]
        exact leastOf_le l1 hn
      · rw [q1]; exact ⟨p7, by rwa [usedBelow_mergeRound h (Nat.le_refl _)]⟩
      · intro he; have := congrArg BitVec.toNat he; omega
      · intro i hi hne
        obtain ⟨n, hn, hw⟩ := cand i hi
        rw [q2] at hne
        rw [q1, KeyLe, wt _ p7, wt _ hi.1, w2, hw]
        exact leastOf_le l2 (List.mem_filter.2 ⟨hn, by simpa using hne⟩)
      · intro l r hl' hr
        rw [q1, mergeRound_lt h p3] at hl'
        rw [q2, mergeRound_lt h p1] at hr
        obtain rfl := Option.some.inj hl'
        obtain rfl := Option.some.inj hr
        simp [mergedNode, BitVec.add_comm]
    · have M := F.merged m n hn hl
      have hm : m < A.length := (List.getElem?_eq_some_iff.1 hn).1
      have cand : ∀ i, CandidateAt (Machine.mergeRound A) m i ↔ CandidateAt A m i := by
        intro i; rw [CandidateAt, CandidateAt, usedBelow_mergeRound h (by omega)]
      have key : ∀ i j, i < A.length → j < A.length → (KeyLe (Machine.mergeRound A) i j ↔ KeyLe A i j) := by
        intro i j hi hj; rw [KeyLe, KeyLe, wt i hi, wt j hj]
      refine ⟨M.internal, M.noSym, (cand _).2 M.rightCandidate, ?_, (cand _).2 M.leftCandidate, M.distinct, ?_, ?_⟩
      · intro i hi
        have := M.rightCandidate.1
        have := hi.1
        exact (key _ _ (by simp only []; omega) (by omega)).2 (M.rightLeast i ((cand i).1 hi))
      · intro i hi hne
        have := M.leftCandidate.1
        have := hi.1
        exact (key _ _ (by simp only []; omega) (by omega)).2 (M.leftSecond i ((cand i).1 hi) hne)
      · intro l r hl' hr
        rcases mergeRound_inv h hl' with ⟨he, -⟩ | ⟨l', hl'', rfl⟩
        · have := M.leftCandidate.1; simp only [] at he; omega
        · rcases mergeRound_inv h hr with ⟨he, -⟩ | ⟨r', hr'', rfl⟩
          · have := M.rightCandidate.1; simp only [] at he; omega
          · exact M.weight l' r' hl'' hr''

/-- Unconsumed leaves are a forest. -/
theorem forest_of_leaves {A : List Node} (h : ∀ n ∈ A, n.leaf = true ∧ n.consumed = false ∧ n.left = Config.nil ∧ n.right = Config.nil) : Forest A := by
  have hl : ∀ {i : Nat} {n : Node}, A[i]? = some n → n.leaf = false → False := fun hn hf => by
    have := (h _ (List.mem_of_getElem? hn)).1; simp [hf] at this
  refine ⟨fun n hn _ => (h n hn).2.2, fun i n hn hf => (hl hn hf).elim, fun j n hn => ?_, fun i i' j n n' hn _ hf => (hl hn hf).elim, fun m n hn hf => (hl hn hf).elim⟩
  rw [(h n (List.mem_of_getElem? hn)).2.1]
  simp only [Bool.false_eq_true, false_iff]
  rintro ⟨i, m, -, hm, hf, -⟩
  exact hl hm hf

/-- The induction over merge rounds: with more candidates than rounds, every round merges a pair. -/
theorem mergeRounds_induction {P : List Node → Prop} (r : Nat) (A : List Node) (hc : r < (candidates A).length) (h0 : P A)
    (hstep : ∀ B lo lo2, leastTwo (candidates B) = some (lo, lo2) → B.length < A.length + r → P B → P (mergeRound B)) :
    P (mergeRounds r A) ∧ (mergeRounds r A).length = A.length + r ∧
      (candidates (mergeRounds r A)).length + r = (candidates A).length := by
  induction r generalizing A with
  | zero => exact ⟨h0, rfl, rfl⟩
  | succ r ih =>
    obtain ⟨⟨lo, lo2⟩, hp⟩ := leastTwo_isSome (cs := candidates A) (by omega) (candidates_nodup A)
    obtain ⟨-, rest, hperm, hcand⟩ := mergeRound_candidates hp
    have hl := mergeRound_length hp
    have h1 := hperm.length_eq
    have h2 : (candidates (mergeRound A)).length = rest.length + 1 := by rw [hcand]; simp
    simp only [List.length_cons] at h1
    obtain ⟨i1, i2, i3⟩ := ih (mergeRound A) (by omega) (hstep A lo lo2 hp (by omega) h0)
      (fun B lo lo2 hB hlt => hstep B lo lo2 hB (by omega))
    exact ⟨i1, by rw [mergeRounds]; omega, by rw [mergeRounds]; omega⟩

/-! ### Weights -/

/-- The total weight of the candidates. -/
def candidateWeight (A : List Node) : Nat := ((candidates A).map fun c => c.1.weight.toNat).sum

/-- A round conserves the total weight, and its sum does not wrap (R139). -/
theorem candidateWeight_mergeRound {A : List Node} {lo lo2 : Candidate} (h : leastTwo (candidates A) = some (lo, lo2))
    (hW : candidateWeight A < 2 ^ 32) :
    candidateWeight (mergeRound A) = candidateWeight A ∧
      (mergedNode lo lo2).weight.toNat = lo.1.weight.toNat + lo2.1.weight.toNat := by
  obtain ⟨-, rest, hperm, hcand⟩ := mergeRound_candidates h
  have hs := (hperm.map fun c => c.1.weight.toNat).sum_eq
  simp only [List.map_cons, List.sum_cons] at hs
  have hw : (mergedNode lo lo2).weight.toNat = lo.1.weight.toNat + lo2.1.weight.toNat := by
    simp only [candidateWeight, hs] at hW
    simp only [mergedNode, BitVec.toNat_add]
    omega
  refine ⟨?_, hw⟩
  rw [candidateWeight, hcand, List.map_append, List.sum_append, candidateWeight, hs]
  simp only [List.map_cons, List.map_nil, List.sum_cons, List.sum_nil, hw]
  omega

/-- The weights of a merge arena: every weight in 1..L, sums exact, and the candidates' total L. -/
structure Weights (L : Nat) (A : List Node) : Prop where
  total : candidateWeight A = L
  range : ∀ n ∈ A, 1 ≤ n.weight.toNat ∧ n.weight.toNat ≤ L
  sum : ∀ (i : Nat) (n : Node), A[i]? = some n → n.leaf = false →
    n.weight.toNat = weightAt A n.left.toNat + weightAt A n.right.toNat

/-- Every round keeps the weights. -/
theorem Weights.mergeRound {L : Nat} {A : List Node} (W : Weights L A) (F : Forest A) (hL : L < 2 ^ 32) (hA : A.length ≤ 255)
    {lo lo2 : Candidate} (h : leastTwo (candidates A) = some (lo, lo2)) : Weights L (mergeRound A) := by
  obtain ⟨e1, e2⟩ := candidateWeight_mergeRound h (by rw [W.total]; exact hL)
  obtain ⟨p1, p2, p3, p4, p5, p6, p7⟩ := pair_facts h
  obtain ⟨q1, q2⟩ := mergedNode_left h (by omega)
  have m1 := List.mem_of_getElem? p1
  have m2 := List.mem_of_getElem? p3
  have hle : lo.1.weight.toNat + lo2.1.weight.toNat ≤ L := by
    rw [← W.total, candidateWeight]
    obtain ⟨-, rest, hp, -⟩ := mergeRound_candidates h
    rw [(hp.map fun c => c.1.weight.toNat).sum_eq]
    simp
  refine ⟨by rw [e1, W.total], fun n' hn' => ?_, fun i n' hn' hl => ?_⟩
  · obtain ⟨j, hj⟩ := List.mem_iff_getElem?.1 hn'
    rcases mergeRound_inv h hj with ⟨-, rfl⟩ | ⟨n, hn, rfl⟩
    · have := (W.range _ m1).1
      rw [e2]; omega
    · exact W.range n (List.mem_of_getElem? hn)
  · rcases mergeRound_inv h hn' with ⟨-, rfl⟩ | ⟨n, hn, rfl⟩
    · rw [q1, q2, weightAt_mergeRound h p6, weightAt_mergeRound h p7, e2]
      simp [weightAt, p1, p3]; omega
    · have lk := F.links i n hn hl
      have hi := (List.getElem?_eq_some_iff.1 hn).1
      rw [weightAt_mergeRound h (by simp only []; omega), weightAt_mergeRound h (by simp only []; omega)]
      exact W.sum i n hn hl

end Sys2Proof.Machine
end

