-- ==== Sys2Proof/Laws/Symbols.lean ====
section
/-! SUPPORT. The used symbols, and sums of their frequencies (R36, R37). -/

namespace Sys2Proof.Machine

/-- No symbol is listed twice. -/
theorem allSyms_nodup : allSyms.Nodup := by decide +kernel

/-- Every symbol is listed. -/
theorem mem_allSyms (x : Sym) : x ∈ allSyms := by revert x; decide +kernel

/-- The symbols are listed ascending. -/
theorem allSyms_ascending : allSyms.Pairwise fun x y => x.toNat < y.toNat := by decide +kernel

/-- No used symbol is listed twice. -/
theorem usedSyms_nodup (s : State) : s.usedSyms.Nodup := allSyms_nodup.filter _

/-- The used symbols are those with FREQ > 0. -/
theorem mem_usedSyms (s : State) (x : Sym) : x ∈ s.usedSyms ↔ s.freqAt x ≠ 0 := by
  simp only [State.usedSyms, List.mem_filter, mem_allSyms, true_and, decide_eq_true_eq]
  rw [← not_iff_not]; simp [BitVec.toNat_eq]

/-- The used symbols are ascending. -/
theorem usedSyms_ascending (s : State) : s.usedSyms.Pairwise fun x y => x.toNat < y.toNat :=
  allSyms_ascending.sublist List.filter_sublist

/-- At most NSYM symbols are used. -/
theorem usedSyms_length_le (s : State) : s.usedSyms.length ≤ 128 := by
  have : s.usedSyms.length ≤ allSyms.length := List.filter_sublist.length_le
  have h : allSyms.length = 128 := by decide +kernel
  omega

/-- The counts of all symbols add up to the length. -/
theorem sum_map_count {α : Type} [BEq α] [LawfulBEq α] (l u : List α) (hn : u.Nodup) (h : ∀ x ∈ l, x ∈ u) : (u.map fun x => l.count x).sum = l.length := by
  induction l with
  | nil => simp
  | cons a l ih =>
    have ih := ih fun x hx => h x (List.mem_cons_of_mem _ hx)
    have : ∀ u : List α, (u.map fun x => (a :: l).count x).sum = (u.map fun x => l.count x).sum + u.count a := by
      intro u
      induction u with
      | nil => simp
      | cons b u ihu =>
        have e : (a :: l).count b = l.count b + if a == b then 1 else 0 := List.count_cons
        have e2 : (b :: u).count a = u.count a + if b == a then 1 else 0 := List.count_cons
        rw [List.map_cons, List.sum_cons, ihu, List.map_cons, List.sum_cons, e, e2, BEq.comm (a := a)]
        omega
    rw [this, ih, List.count_eq_one_of_mem hn (h a List.mem_cons_self)]
    simp

/-- The frequencies add up to TEXT_LEN (R37). -/
theorem usedSyms_sum {s : State} (h : s.BuffersOk) : (s.usedSyms.map fun x => (s.freqAt x).toNat).sum = s.text.length := by
  have e : (s.usedSyms.map fun x => (s.freqAt x).toNat) = s.usedSyms.map fun x => s.text.count x := by
    simp only [h.freqCounts]
  rw [e]
  apply sum_map_count _ _ (usedSyms_nodup s)
  intro x hx
  rw [mem_usedSyms]
  have := h.freqCounts x
  have hp := List.count_pos_iff.2 hx
  intro h0; rw [h0] at this; simp at this; omega

/-- One symbol with FREQ > 0 is the only used symbol. -/
theorem usedSyms_one {s : State} {x : Sym} (h1 : s.freqAt x ≠ 0) (h2 : ∀ y, s.freqAt y ≠ 0 → y = x) : s.usedSyms = [x] := by
  have nd := usedSyms_nodup s
  have m := (mem_usedSyms s x).2 h1
  have a : ∀ y ∈ s.usedSyms, y = x := fun y hy => h2 y ((mem_usedSyms s y).1 hy)
  match hu : s.usedSyms with
  | [] => simp [hu] at m
  | [y] => rw [hu] at a; simp at a; rw [a]
  | y :: z :: r =>
    rw [hu] at a nd
    have := a y (by simp); have := a z (by simp)
    simp_all

/-- A text has a used symbol. -/
theorem usedSyms_ne_nil {s : State} (hb : s.BuffersOk) (ht : s.text ≠ []) : s.usedSyms ≠ [] := by
  intro h
  have := usedSyms_sum hb
  rw [h] at this
  simp at this
  exact ht (List.eq_nil_of_length_eq_zero this.symm)

/-- A sum over the text is one over the used symbols. -/
theorem text_sum {s : State} (hb : s.BuffersOk) (f : Sym → Nat) : (s.text.map f).sum = (s.usedSyms.map fun x => f x * (s.freqAt x).toNat).sum := by
  have e : (s.usedSyms.map fun x => f x * (s.freqAt x).toNat) = s.usedSyms.map fun x => f x * s.text.count x := by simp only [hb.freqCounts]
  have mem : ∀ x ∈ s.text, x ∈ s.usedSyms := by
    intro x hx
    rw [mem_usedSyms]
    have := hb.freqCounts x
    have hp := List.count_pos_iff.2 hx
    intro h0; rw [h0] at this; simp at this; omega
  rw [e]
  have key : ∀ (l u : List Sym), u.Nodup → (∀ x ∈ l, x ∈ u) → (l.map f).sum = (u.map fun x => f x * l.count x).sum := by
    intro l u hn
    induction l with
    | nil => intro _; simp
    | cons a l ih =>
      intro h
      have ih := ih fun x hx => h x (List.mem_cons_of_mem _ hx)
      have step : ∀ v : List Sym, (v.map fun x => f x * (a :: l).count x).sum = (v.map fun x => f x * l.count x).sum + f a * v.count a := by
        intro v
        induction v with
        | nil => simp
        | cons b v ihv =>
          have e : (a :: l).count b = l.count b + if a == b then 1 else 0 := List.count_cons
          have e2 : (b :: v).count a = v.count a + if b == a then 1 else 0 := List.count_cons
          rw [List.map_cons, List.sum_cons, ihv, List.map_cons, List.sum_cons, e, e2]
          by_cases hab : a = b
          · subst hab; simp; ring
          · simp [hab, Ne.symm hab]; ring
      rw [step, ← ih, List.count_eq_one_of_mem hn (h a List.mem_cons_self), List.map_cons, List.sum_cons]; ring
  exact key _ _ (usedSyms_nodup s) mem

end Sys2Proof.Machine
end

