-- ==== Sys2Proof/Laws/TreeBuilder.lean ====
section
/-! SUPPORT. What BUILD makes: leaves, merged nodes, the tree and its weights (R132-R139). -/

namespace Sys2Proof.Machine

/-- Slot j before the first round (R132). -/
theorem leafArena_get {s : State} {j : Nat} {n : Node} : (leafArena s)[j]? = some n ↔ ∃ x, s.usedSyms[j]? = some x ∧ n = leafNode x (s.freqAt x) := by
  rw [leafArena, List.getElem?_map, Option.map_eq_some_iff]
  exact ⟨fun ⟨x, h, e⟩ => ⟨x, h, e.symm⟩, fun ⟨x, h, e⟩ => ⟨x, h, e.symm⟩⟩

/-- Before the first round every node is an unconsumed leaf. -/
theorem leafArena_leaf {s : State} {n : Node} (h : n ∈ leafArena s) : n.leaf = true ∧ n.consumed = false := by
  simp only [leafArena, List.mem_map] at h
  obtain ⟨x, -, rfl⟩ := h
  exact ⟨rfl, rfl⟩

/-- The leaves BUILD starts from are a forest. -/
theorem forest_leafArena (s : State) : Forest (leafArena s) := by
  apply forest_of_leaves
  intro n hn
  simp only [leafArena, List.mem_map] at hn
  obtain ⟨x, -, rfl⟩ := hn
  exact ⟨rfl, rfl, rfl, rfl⟩

/-- Before the first round every slot is a candidate. -/
theorem candidates_leafArena (s : State) : candidates (leafArena s) = (leafArena s).zipIdx := by
  rw [candidates, List.filter_eq_self]
  rintro ⟨n, i⟩ hc
  rw [List.mem_zipIdx_iff_getElem?] at hc
  have := (leafArena_leaf (List.mem_of_getElem? hc)).2
  simp only at this
  simp [this]

/-- The weights before the first round. -/
theorem weights_leafArena {s : State} (h : s.BuffersOk) : Weights s.text.length (leafArena s) := by
  have hs := usedSyms_sum h
  refine ⟨?_, fun n hn => ?_, fun i n hn hl => ?_⟩
  · rw [candidateWeight, candidates_leafArena, ← hs]
    have : ((leafArena s).zipIdx.map fun c => c.1.weight.toNat) = ((leafArena s).zipIdx.map (·.1)).map fun n => n.weight.toNat := by
      rw [List.map_map]; rfl
    rw [this, List.zipIdx_map_fst, leafArena, List.map_map]; rfl
  · simp only [leafArena, List.mem_map] at hn
    obtain ⟨x, hx, rfl⟩ := hn
    have h0 := (mem_usedSyms s x).1 hx
    have hc := h.freqCounts x
    have : s.text.count x ≤ s.text.length := List.count_le_length
    have : (s.freqAt x).toNat ≠ 0 := by intro h'; exact h0 (BitVec.eq_of_toNat_eq (by simpa using h'))
    simp only [leafNode]; omega
  · have := (leafArena_leaf (List.mem_of_getElem? hn)).1
    simp [hl] at this

/-- BUILD of two or more distinct symbols. -/
theorem builtArena_two {s : State} (h : 2 ≤ s.usedSyms.length) :
    builtArena s = mergeRounds (s.usedSyms.length - 1) (leafArena s) := by
  unfold builtArena
  split
  · rename_i he; simp [he] at h
  · rename_i he; simp [he] at h
  · rfl

/-- BUILD of one distinct symbol (R133). -/
theorem builtArena_one {s : State} {x : Sym} (h : s.usedSyms = [x]) : builtArena s = [leafNode x (countWord s.textLen)] := by
  simp [builtArena, h]

/-- Everything BUILD's arena satisfies for two or more distinct symbols. -/
structure Built (s : State) (A : List Node) : Prop where
  forest : Forest A
  length : A.length + 1 = 2 * s.usedSyms.length
  oneCandidate : (candidates A).length = 1
  leaves : ∀ (j : Nat) (x : Sym), s.usedSyms[j]? = some x → ∃ c, A[j]? = some { leafNode x (s.freqAt x) with consumed := c }
  internal : ∀ (j : Nat) (n : Node), A[j]? = some n → s.usedSyms.length ≤ j → n.leaf = false
  leafCount : A.countP (fun n => n.leaf) = s.usedSyms.length

/-- What BUILD makes of two or more distinct symbols. -/
theorem built_of_two {s : State} (h : 2 ≤ s.usedSyms.length) : Built s (mergeRounds (s.usedSyms.length - 1) (leafArena s)) := by
  have hlen : (leafArena s).length = s.usedSyms.length := by simp [leafArena]
  have hcl : (candidates (leafArena s)).length = s.usedSyms.length := by rw [candidates_leafArena]; simp [hlen]
  have h128 := usedSyms_length_le s
  obtain ⟨⟨a, b, c, d⟩, e, f⟩ := mergeRounds_induction (s.usedSyms.length - 1) (leafArena s) (by omega)
    (P := fun A => Forest A ∧ (∀ (j : Nat) (x : Sym), s.usedSyms[j]? = some x → ∃ c, A[j]? = some { leafNode x (s.freqAt x) with consumed := c }) ∧
      (∀ (j : Nat) (n : Node), A[j]? = some n → s.usedSyms.length ≤ j → n.leaf = false) ∧ A.countP (fun n => n.leaf) = s.usedSyms.length)
    ⟨forest_leafArena s, fun j x hx => ⟨false, leafArena_get.2 ⟨x, hx, rfl⟩⟩, fun j n hn hj => by
      have := (List.getElem?_eq_some_iff.1 hn).1; omega, by
      rw [← hlen]; exact List.countP_eq_length.2 fun n hn => (leafArena_leaf hn).1⟩
    (by
      rintro B lo lo2 hp hB ⟨F, hl, hi, hc⟩
      refine ⟨F.mergeRound (by omega) hp, fun j x hx => ?_, fun j n' hn' hj => ?_, by rw [countP_leaf_mergeRound hp, hc]⟩
      · obtain ⟨c, hc⟩ := hl j x hx
        have := mergeRound_lt hp hc
        exact ⟨_, this⟩
      · rcases mergeRound_inv hp hn' with ⟨-, rfl⟩ | ⟨n, hn, rfl⟩
        · rfl
        · exact hi j n hn hj)
  exact ⟨a, by omega, by omega, b, c, d⟩

/-- Only the last slot is unconsumed (R43, R137). -/
theorem Built.consumedIff {s : State} {A : List Node} (B : Built s A) (j : Nat) (n : Node) (hn : A[j]? = some n) :
    n.consumed = false ↔ j + 1 = A.length := by
  have last : ∀ n, A[A.length - 1]? = some n → n.consumed = false := by
    intro n hn
    cases hc : n.consumed with
    | false => rfl
    | true =>
      obtain ⟨i, m, hi, hm, hf, hch⟩ := (B.forest.consumed _ _ hn).1 hc
      have := B.forest.links i m hm hf
      omega
  constructor
  · intro h
    obtain ⟨c, hc⟩ := List.length_eq_one_iff.1 B.oneCandidate
    have hj : j < A.length := (List.getElem?_eq_some_iff.1 hn).1
    have hl : A[A.length - 1]? = some (A[A.length - 1]'(by omega)) := List.getElem?_eq_getElem (by omega)
    have m1 : (n, j) ∈ candidates A := mem_candidates.2 ⟨hn, h⟩
    have m2 : (A[A.length - 1]'(by omega), A.length - 1) ∈ candidates A := mem_candidates.2 ⟨hl, last _ hl⟩
    rw [hc, List.mem_singleton] at m1 m2
    have := congrArg Prod.snd (m1.trans m2.symm)
    simp only [] at this
    omega
  · intro h
    apply last; rw [← hn]; congr 1; omega

/-- ROOT is the last slot (R137). -/
theorem Built.root {s : State} {A : List Node} (B : Built s A) : (builtRoot A).toNat = A.length - 1 := by
  have := usedSyms_length_le s
  have := B.length
  simp [builtRoot]; omega

/-- The weights of the built arena (R139). -/
theorem weights_built {s : State} (h : 2 ≤ s.usedSyms.length) (hb : s.BuffersOk) : Weights s.text.length (builtArena s) := by
  have hlen : (leafArena s).length = s.usedSyms.length := by simp [leafArena]
  have hcl : (candidates (leafArena s)).length = s.usedSyms.length := by rw [candidates_leafArena]; simp [hlen]
  have h128 := usedSyms_length_le s
  have hcap : s.text.length ≤ 4096 := hb.textCap
  rw [builtArena_two h]
  exact (mergeRounds_induction (s.usedSyms.length - 1) (leafArena s) (by omega)
    (P := fun A => Forest A ∧ Weights s.text.length A) ⟨forest_leafArena s, weights_leafArena hb⟩
    (by
      rintro B lo lo2 hp hB ⟨F, W⟩
      exact ⟨F.mergeRound (by omega) hp, W.mergeRound F (by omega) (by omega) hp⟩)).1.2

/-- A state that differs from another in no node reads the same nodes in range. -/
theorem nodeAt_of_getElem? {s : State} {i : Slot} {n : Node} (h : s.nodes[i.toNat]? = some n) : s.nodeAt i = n := by
  simp [State.nodeAt, h]

/-- A state that holds the built arena holds a tree (R44, R139). -/
theorem treeOk_built {s t : State} (hb : s.BuffersOk) (ht : s.text ≠ []) (hn : t.nodes = builtArena s)
    (hr : t.root = builtRoot (builtArena s)) :
    t.TreeOk ∧ (t.nodeAt t.root).weight.toNat = s.text.length ∧ (∀ n ∈ t.nodes, n.leaf = true → n.weight = s.freqAt n.sym) ∧
      (∀ n ∈ t.nodes, 1 ≤ n.weight.toNat ∧ n.weight.toNat ≤ s.text.length) ∧
      (∀ x, x ∈ s.usedSyms ↔ ∃ n ∈ t.nodes, n.leaf = true ∧ n.sym = x) := by
  have hne := usedSyms_ne_nil hb ht
  have hcap : s.text.length ≤ 4096 := hb.textCap
  have hpos : 0 < s.text.length := List.length_pos_iff.2 ht
  by_cases h2 : 2 ≤ s.usedSyms.length
  · have B := built_of_two h2
    rw [← builtArena_two h2] at B
    have W := weights_built h2 hb
    have h128 := usedSyms_length_le s
    have hlen := B.length
    have hroot : t.root.toNat = (builtArena s).length - 1 := by rw [hr, B.root]
    have leafIn : ∀ (i : Nat) (n : Node), (builtArena s)[i]? = some n → n.leaf = true →
        ∃ x c, s.usedSyms[i]? = some x ∧ n = { leafNode x (s.freqAt x) with consumed := c } := by
      intro i n hn hl
      have hi : i < s.usedSyms.length := by
        by_contra hc
        have := B.internal i n hn (by omega); simp [hl] at this
      obtain ⟨c, hc⟩ := B.leaves i _ (List.getElem?_eq_getElem hi)
      exact ⟨_, c, List.getElem?_eq_getElem hi, by rw [hn] at hc; simpa using hc⟩
    have inRange : ∀ (i : Nat), i < (builtArena s).length → ∃ n, (builtArena s)[i]? = some n := fun i hi => ⟨_, List.getElem?_eq_getElem hi⟩
    have wNode : ∀ j : Slot, j.toNat < (builtArena s).length → (t.nodeAt j).weight.toNat = weightAt (builtArena s) j.toNat := by
      intro j hj
      obtain ⟨n, hn'⟩ := inRange _ hj
      rw [nodeAt_of_getElem? (by rw [hn]; exact hn'), weightAt_eq hn']
    refine ⟨⟨?_, ?_, ?_, ?_, ?_, ?_, ?_, ?_, ?_, ?_, ?_⟩, ?_, ?_, ?_, ?_⟩
    · rw [hn, hroot]; omega
    · rw [hn]; show _ ≤ 255; omega
    · rw [hn, B.leafCount]; omega
    · rw [hn]; exact B.forest.leafLinks
    · rw [hn]; intro n hm hl
      obtain ⟨i, hi⟩ := List.mem_iff_getElem?.1 hm
      exact (B.forest.links i n hi hl).2.2.2
    · rw [hn]; intro i n hi hl
      have := B.forest.links i n hi hl
      exact ⟨this.1, this.2.1, this.2.2.1⟩
    · rw [hn]; intro j hj
      obtain ⟨n, hn'⟩ := inRange j (by omega)
      have hc : n.consumed = true := by
        cases hc : n.consumed with
        | true => rfl
        | false => have := (B.consumedIff j n hn').1 hc; omega
      obtain ⟨i, m, hi, hm, hl, hch⟩ := (B.forest.consumed j n hn').1 hc
      exact ⟨i, m, hm, hl, hch, fun i' n' h1 h2 h3 => B.forest.oneParent i' i j n' m h1 hm h2 hl h3 hch⟩
    · rw [hn]; intro n hm hl
      obtain ⟨i, hi⟩ := List.mem_iff_getElem?.1 hm
      have lk := B.forest.links i n hi hl
      have hi' := (List.getElem?_eq_some_iff.1 hi).1
      rw [W.sum i n hi hl, wNode _ (by omega), wNode _ (by omega)]
    · rw [hn]; intro n hm
      have := W.range n hm
      exact ⟨this.1, this.2.trans hcap⟩
    · rw [hn]; intro i j m n hm hn' hl hl' hs
      obtain ⟨x, c, hx, rfl⟩ := leafIn i m hm hl
      obtain ⟨y, d, hy, rfl⟩ := leafIn j n hn' hl'
      obtain rfl : x = y := hs
      obtain ⟨hi', e1⟩ := List.getElem?_eq_some_iff.1 hx
      obtain ⟨hj', e2⟩ := List.getElem?_eq_some_iff.1 hy
      exact (usedSyms_nodup s).getElem_inj_iff.1 (e1.trans e2.symm)
    · rw [hn]; exact B.consumedIff
    · obtain ⟨n, hn'⟩ := inRange t.root.toNat (by omega)
      rw [nodeAt_of_getElem? (by rw [hn]; exact hn')]
      have hc : n.consumed = false := (B.consumedIff _ n hn').2 (by omega)
      obtain ⟨c, hcs⟩ := List.length_eq_one_iff.1 B.oneCandidate
      have m1 : (n, t.root.toNat) ∈ candidates (builtArena s) := mem_candidates.2 ⟨hn', hc⟩
      have := W.total
      rw [candidateWeight, hcs] at this
      rw [hcs, List.mem_singleton] at m1
      rw [← m1] at this
      simpa using this
    · rw [hn]; intro n hm hl
      obtain ⟨i, hi⟩ := List.mem_iff_getElem?.1 hm
      obtain ⟨x, c, -, rfl⟩ := leafIn i n hi hl
      rfl
    · rw [hn]; exact W.range
    · rw [hn]; intro x
      constructor
      · intro hx
        obtain ⟨j, hj⟩ := List.mem_iff_getElem?.1 hx
        obtain ⟨c, hc⟩ := B.leaves j x hj
        exact ⟨_, List.mem_of_getElem? hc, rfl, rfl⟩
      · rintro ⟨n, hm, hl, rfl⟩
        obtain ⟨i, hi⟩ := List.mem_iff_getElem?.1 hm
        obtain ⟨x, c, hx, rfl⟩ := leafIn i n hi hl
        exact List.mem_of_getElem? hx
  · obtain ⟨x, hu⟩ : ∃ x, s.usedSyms = [x] := by
      match hu : s.usedSyms with
      | [] => exact absurd hu hne
      | [x] => exact ⟨x, rfl⟩
      | _ :: _ :: _ => rw [hu] at h2; simp at h2
    have hA := builtArena_one hu
    rw [hA] at hn hr
    have hw : (countWord s.textLen).toNat = s.text.length := by simp [countWord, State.textLen]; omega
    have hr0 : t.root = 0 := by rw [hr]; rfl
    have hf : s.freqAt x = countWord s.textLen := by
      have := usedSyms_sum hb
      rw [hu] at this
      apply BitVec.eq_of_toNat_eq; rw [hw]; simpa using this
    have one : ∀ (i : Nat) (n : Node), ([leafNode x (countWord s.textLen)] : List Node)[i]? = some n → i = 0 ∧ n = leafNode x (countWord s.textLen) := by
      intro i n hi
      cases i with
      | zero => simpa [eq_comm] using hi
      | succ i => simp at hi
    have mem : ∀ n, n ∈ t.nodes → n = leafNode x (countWord s.textLen) := by
      intro n h; rw [hn] at h; simpa using h
    refine ⟨⟨?_, ?_, ?_, ?_, ?_, ?_, ?_, ?_, ?_, ?_, ?_⟩, ?_, ?_, ?_, ?_⟩
    · rw [hn, hr0]; rfl
    · rw [hn]; show 1 ≤ 255; omega
    · rw [hn]; rfl
    · intro n hm _; rw [mem n hm]; exact ⟨rfl, rfl⟩
    · intro n hm hl; rw [mem n hm] at hl; cases hl
    · rw [hn]; intro i n hi hl; rw [(one i n hi).2] at hl; cases hl
    · rw [hn]; intro j hj; simp at hj
    · intro n hm hl; rw [mem n hm] at hl; cases hl
    · intro n hm; rw [mem n hm]; show 1 ≤ (countWord s.textLen).toNat ∧ (countWord s.textLen).toNat ≤ 4096; omega
    · rw [hn]; intro i j m n hm hn' _ _ _; rw [(one i m hm).1, (one j n hn').1]
    · rw [hn]; intro i n hi; rw [(one i n hi).1, (one i n hi).2]; simp [leafNode]
    · rw [hr0, nodeAt_of_getElem? (n := leafNode x (countWord s.textLen)) (by rw [hn]; rfl)]; exact hw
    · intro n hm _; rw [mem n hm]; exact hf.symm
    · intro n hm; rw [mem n hm]; show 1 ≤ (countWord s.textLen).toNat ∧ (countWord s.textLen).toNat ≤ s.text.length; omega
    · intro y; rw [hu, hn]
      simp only [List.mem_singleton, exists_eq_left]
      exact ⟨fun h => ⟨rfl, h.symm⟩, fun h => h.2.symm⟩

end Sys2Proof.Machine
end

