-- ==== Sys2Proof/Laws/Paths.lean ====
section
/-! SUPPORT. Paths in a tree: they descend, they are unique, and every slot has one (R44, R141, R151). -/

namespace Sys2Proof.Machine

/-- A path, one branch longer. -/
theorem pathTo_snoc {s : State} {i j : Slot} {bs : List Bool} {b : Bool} :
    s.PathTo i (bs ++ [b]) j ↔ ∃ k, s.PathTo i bs k ∧ (s.nodeAt k).leaf = false ∧ s.child k b = j := by
  induction bs generalizing i with
  | nil => exact ⟨fun ⟨h, e⟩ => ⟨i, rfl, h, e⟩, fun ⟨k, e, h, e2⟩ => by rw [← (show i = k from e)] at h e2; exact ⟨h, e2⟩⟩
  | cons c bs ih =>
    show (_ ∧ s.PathTo _ (bs ++ [b]) j) ↔ _
    rw [ih]
    exact ⟨fun ⟨h, k, p, q⟩ => ⟨k, ⟨h, p⟩, q⟩, fun ⟨k, ⟨h, p⟩, q⟩ => ⟨h, k, p, q⟩⟩

/-- Paths one after the other. -/
theorem pathTo_append {s : State} {i j : Slot} {as bs : List Bool} :
    s.PathTo i (as ++ bs) j ↔ ∃ k, s.PathTo i as k ∧ s.PathTo k bs j := by
  induction as generalizing i with
  | nil => exact ⟨fun h => ⟨i, rfl, h⟩, fun ⟨k, e, h⟩ => by rw [← (show i = k from e)] at h; exact h⟩
  | cons a as ih =>
    show (_ ∧ s.PathTo _ (as ++ bs) j) ↔ _
    rw [ih]
    exact ⟨fun ⟨h, k, p, q⟩ => ⟨k, ⟨h, p⟩, q⟩, fun ⟨k, ⟨h, p⟩, q⟩ => ⟨h, k, p, q⟩⟩

/-- The bits of a path determine its end. -/
theorem pathTo_functional {s : State} {i j k : Slot} {bs : List Bool} (p : s.PathTo i bs j) (q : s.PathTo i bs k) : j = k := by
  induction bs generalizing i with
  | nil => exact (show i = j from p).symm.trans q
  | cons b bs ih => exact ih p.2 q.2

/-- A leaf root has the empty path alone. -/
theorem path_of_leaf_root {s : State} {bs : List Bool} {j : Slot} (hr : (s.nodeAt s.root).leaf = true) (p : s.PathTo s.root bs j) : bs = [] ∧ j = s.root := by
  cases bs with
  | nil => exact ⟨rfl, Eq.symm p⟩
  | cons b bs => have := p.1; rw [hr] at this; cases this

section
variable {s : State} (T : s.TreeOk)
include T

/-- A slot of the tree holds its node. -/
theorem State.TreeOk.get (i : Slot) (h : i.toNat < s.nodes.length) : s.nodes[i.toNat]? = some (s.nodeAt i) := by
  have := List.getElem?_eq_getElem h
  rw [nodeAt_of_getElem? this]; exact this

/-- ROOT is a slot of the tree. -/
theorem State.TreeOk.root_lt : s.root.toNat < s.nodes.length := by have := T.rootLast; omega

/-- A child stands below its parent. -/
theorem State.TreeOk.child_lt (i : Slot) (h : i.toNat < s.nodes.length) (hl : (s.nodeAt i).leaf = false) (b : Bool) :
    (s.child i b).toNat < i.toNat := by
  have := T.internalLinks _ _ (T.get i h) hl
  cases b
  · exact this.1
  · exact this.2.1

/-- A path only descends. -/
theorem State.TreeOk.path_bound {i j : Slot} {bs : List Bool} (h : i.toNat < s.nodes.length) (p : s.PathTo i bs j) :
    bs.length + j.toNat ≤ i.toNat := by
  induction bs generalizing i with
  | nil => rw [show i = j from p]; simp
  | cons b bs ih =>
    obtain ⟨hl, p⟩ := p
    have hc := T.child_lt i h hl b
    have := ih (by omega) p
    simp only [List.length_cons]; omega

/-- A path ends in a slot of the tree. -/
theorem State.TreeOk.path_lt {i j : Slot} {bs : List Bool} (h : i.toNat < s.nodes.length) (p : s.PathTo i bs j) :
    j.toNat < s.nodes.length := by have := T.path_bound h p; omega

/-- A slot has one parent and one branch (R44 b). -/
theorem State.TreeOk.parent_unique {k k' : Slot} {b b' : Bool} (h : k.toNat < s.nodes.length) (h' : k'.toNat < s.nodes.length)
    (hl : (s.nodeAt k).leaf = false) (hl' : (s.nodeAt k').leaf = false) (e : s.child k b = s.child k' b') : k = k' ∧ b = b' := by
  have c1 := T.child_lt k h hl b
  obtain ⟨i, n, -, -, -, u⟩ := T.oneParent (s.child k b).toNat (by omega)
  have side : ∀ (k : Slot) (b : Bool), (s.nodeAt k).left.toNat = (s.child k b).toNat ∨ (s.nodeAt k).right.toNat = (s.child k b).toNat := by
    intro k b; cases b <;> simp [State.child]
  have e1 := u _ _ (T.get k h) hl (side k b)
  have e2 := u _ _ (T.get k' h') hl' (by rw [e]; exact side k' b')
  have hk : k = k' := BitVec.eq_of_toNat_eq (e1.trans e2.symm)
  refine ⟨hk, ?_⟩
  subst hk
  have ne := (T.internalLinks _ _ (T.get k h) hl).2.2
  cases b <;> cases b' <;> simp [State.child] at e ⊢
  · exact ne e
  · exact ne e.symm

/-- A slot is reached by one path. -/
theorem State.TreeOk.path_unique {i j : Slot} {bs bs' : List Bool} (h : i.toNat < s.nodes.length) (p : s.PathTo i bs j)
    (q : s.PathTo i bs' j) : bs = bs' := by
  induction bs using List.reverseRecOn generalizing bs' j with
  | nil =>
    have e : i = j := p
    subst e
    have := T.path_bound h q
    exact (List.eq_nil_of_length_eq_zero (by omega)).symm
  | append_singleton bs b ih =>
    rcases List.eq_nil_or_concat bs' with rfl | ⟨bs', b', rfl⟩
    · have e : i = j := q
      subst e
      have := T.path_bound h p
      simp at this
    · simp only [List.concat_eq_append] at q ⊢
      obtain ⟨k, p1, p2, p3⟩ := pathTo_snoc.1 p
      obtain ⟨k', q1, q2, q3⟩ := pathTo_snoc.1 q
      obtain ⟨rfl, rfl⟩ := T.parent_unique (T.path_lt h p1) (T.path_lt h q1) p2 q2 (p3.trans q3.symm)
      rw [ih p1 q1]

/-- Every slot is reached from the root. -/
theorem State.TreeOk.path_exists (j : Slot) (h : j.toNat < s.nodes.length) : ∃ bs, s.PathTo s.root bs j := by
  have hroot := T.rootLast
  have hcap : s.nodes.length ≤ 255 := T.countCap
  obtain ⟨m, hm⟩ : ∃ m, m = s.root.toNat - j.toNat := ⟨_, rfl⟩
  induction m using Nat.strongRecOn generalizing j with
  | ind m ih =>
    by_cases hj : j.toNat + 1 < s.nodes.length
    · obtain ⟨i, n, hn, hl, hc, -⟩ := T.oneParent j.toNat hj
      have hi : i < s.nodes.length := (List.getElem?_eq_some_iff.1 hn).1
      have lk := T.internalLinks i n hn hl
      have hI : (BitVec.ofNat 8 i : Slot).toNat = i := by simp; omega
      have hnode : s.nodeAt (BitVec.ofNat 8 i) = n := nodeAt_of_getElem? (by rw [hI]; exact hn)
      obtain ⟨bs, p⟩ := ih (s.root.toNat - i) (by omega) (BitVec.ofNat 8 i) (by omega) (by rw [hI])
      rcases hc with hc | hc
      · exact ⟨bs ++ [false], pathTo_snoc.2 ⟨_, p, by rw [hnode]; exact hl, by simp only [State.child, hnode]; exact BitVec.eq_of_toNat_eq hc⟩⟩
      · exact ⟨bs ++ [true], pathTo_snoc.2 ⟨_, p, by rw [hnode]; exact hl, by simp only [State.child, hnode]; exact BitVec.eq_of_toNat_eq hc⟩⟩
    · exact ⟨[], BitVec.eq_of_toNat_eq (by omega)⟩

/-- A path is no longer than the internal nodes at and below its start. -/
theorem State.TreeOk.path_depth {i j : Slot} {bs : List Bool} (h : i.toNat < s.nodes.length) (p : s.PathTo i bs j) :
    bs.length ≤ (s.nodes.take (i.toNat + 1)).countP fun n => !n.leaf := by
  induction bs generalizing i with
  | nil => simp
  | cons b bs ih =>
    obtain ⟨hl, p⟩ := p
    have hc := T.child_lt i h hl b
    have h1 := ih (by omega) p
    have h2 : (s.nodes.take ((s.child i b).toNat + 1)).countP (fun n => !n.leaf) ≤ (s.nodes.take i.toNat).countP fun n => !n.leaf :=
      (List.take_sublist_take_left (by omega)).countP_le
    have h3 : s.nodes.take (i.toNat + 1) = s.nodes.take i.toNat ++ [s.nodeAt i] := by
      rw [List.take_add_one, T.get i h]; rfl
    rw [h3, List.countP_append]
    simp only [List.length_cons, List.countP_singleton, hl]
    simp; omega

/-- A path is shorter than the number of leaves (R141). -/
theorem State.TreeOk.code_depth {j : Slot} {bs : List Bool} (p : s.PathTo s.root bs j) :
    bs.length + 1 ≤ (s.nodes.countP fun n => n.leaf) ∧ bs.length ≤ 127 := by
  have h := T.path_depth T.root_lt p
  have hroot := T.rootLast
  rw [hroot, List.take_length] at h
  have e := List.length_eq_countP_add_countP (fun n : Node => n.leaf) (l := s.nodes)
  have hcap : s.nodes.length ≤ 255 := T.countCap
  have hk := T.leafCount
  have e2 : (s.nodes.countP fun n => !n.leaf) = s.nodes.countP fun n => ¬ n.leaf = true := by
    congr 1; funext n; cases n.leaf <;> rfl
  omega

/-- A symbol has one leaf (R44 e). -/
theorem State.TreeOk.leaf_slot_unique {i j : Slot} (hi : i.toNat < s.nodes.length) (hj : j.toNat < s.nodes.length)
    (li : (s.nodeAt i).leaf = true) (lj : (s.nodeAt j).leaf = true) (e : (s.nodeAt i).sym = (s.nodeAt j).sym) : i = j :=
  BitVec.eq_of_toNat_eq (T.leafSyms _ _ _ _ (T.get i hi) (T.get j hj) li lj e)

end

/-- The symbols with a leaf are those with a path. -/
theorem codePath_iff_leaf {s : State} (T : s.TreeOk) (x : Sym) : (∃ n ∈ s.nodes, n.leaf = true ∧ n.sym = x) ↔ ∃ bs, s.CodePath bs x := by
  constructor
  · rintro ⟨n, hn, hl, rfl⟩
    obtain ⟨i, hi⟩ := List.mem_iff_getElem?.1 hn
    have hlt := (List.getElem?_eq_some_iff.1 hi).1
    have hcap : s.nodes.length ≤ 255 := T.countCap
    have hI : (BitVec.ofNat 8 i : Slot).toNat = i := by simp; omega
    have hnode : s.nodeAt (BitVec.ofNat 8 i) = n := nodeAt_of_getElem? (by rw [hI]; exact hi)
    obtain ⟨bs, p⟩ := T.path_exists (BitVec.ofNat 8 i) (by omega)
    exact ⟨bs, _, p, by rw [hnode]; exact hl, by rw [hnode]⟩
  · rintro ⟨bs, j, p, hl, rfl⟩
    exact ⟨_, List.mem_of_getElem? (T.get j (T.path_lt T.root_lt p)), hl, rfl⟩

/-! ### The same tree in another state -/

/-- The nodes of the tree are read from NODE alone. -/
theorem nodeAt_congr {s t : State} (h : t.nodes = s.nodes) {i : Slot} (hi : i.toNat < s.nodes.length) : t.nodeAt i = s.nodeAt i := by
  rw [State.nodeAt, State.nodeAt, h, List.getElem?_eq_getElem hi]; rfl

/-- A tree is NODE and ROOT. -/
theorem treeOk_congr {s t : State} (T : s.TreeOk) (h : t.nodes = s.nodes) (hr : t.root = s.root) : t.TreeOk := by
  refine ⟨by rw [h, hr]; exact T.rootLast, by rw [h]; exact T.countCap, by rw [h]; exact T.leafCount, by rw [h]; exact T.leafLinks,
    by rw [h]; exact T.internalSym, by rw [h]; exact T.internalLinks, by rw [h]; exact T.oneParent, ?_, by rw [h]; exact T.weightRange,
    by rw [h]; exact T.leafSyms, by rw [h]; exact T.consumed⟩
  rw [h]; intro n hn hl
  obtain ⟨i, hi⟩ := List.mem_iff_getElem?.1 hn
  have lk := T.internalLinks i n hi hl
  have hlt := (List.getElem?_eq_some_iff.1 hi).1
  rw [nodeAt_congr h (by omega), nodeAt_congr h (by omega)]
  exact T.weightSum n hn hl

/-- The paths are those of NODE. -/
theorem pathTo_congr {s t : State} (T : s.TreeOk) (h : t.nodes = s.nodes) {i j : Slot} {bs : List Bool} (hi : i.toNat < s.nodes.length) :
    t.PathTo i bs j ↔ s.PathTo i bs j := by
  induction bs generalizing i with
  | nil => exact Iff.rfl
  | cons b bs ih =>
    have n := nodeAt_congr h hi
    have c : t.child i b = s.child i b := by simp only [State.child, n]
    show (_ ∧ t.PathTo _ bs j) ↔ (_ ∧ s.PathTo _ bs j)
    rw [n, c]
    constructor
    · rintro ⟨hl, p⟩
      exact ⟨hl, (ih (by have := T.child_lt i hi hl b; omega)).1 p⟩
    · rintro ⟨hl, p⟩
      exact ⟨hl, (ih (by have := T.child_lt i hi hl b; omega)).2 p⟩

/-- The codes of a tree are those of NODE and ROOT. -/
theorem codePath_congr {s t : State} (T : s.TreeOk) (h : t.nodes = s.nodes) (hr : t.root = s.root) {bs : List Bool} {x : Sym} :
    t.CodePath bs x ↔ s.CodePath bs x := by
  have key : ∀ j, (t.PathTo t.root bs j ∧ (t.nodeAt j).leaf = true ∧ (t.nodeAt j).sym = x) ↔ (s.PathTo s.root bs j ∧ (s.nodeAt j).leaf = true ∧ (s.nodeAt j).sym = x) := by
    intro j
    rw [hr, pathTo_congr T h T.root_lt]
    refine and_congr_right fun p => ?_
    rw [nodeAt_congr h (T.path_lt T.root_lt p)]
  exact exists_congr key

end Sys2Proof.Machine
end

