-- ==== Sys2Proof/Laws/CodeMapper.lean ====
section
/-! SUPPORT. The code ROM: what GENCODE stores, and the codes as bit sequences (R150-R153). -/

namespace Sys2Proof.Machine

/-- The path after the branch bits bs below depth d. -/
def writeBits : Path → Nat → List Bool → Path
  | p, _, [] => p
  | p, d, b :: bs => writeBits (extendPath p d b) (d + 1) bs

/-- Bit k of a stored path (R152). -/
theorem writeBits_bit (p : Path) (d : Nat) (bs : List Bool) (hp : ∀ k, d ≤ k → p.getLsbD k = false) (hd : d + bs.length ≤ 128) (k : Nat) :
    (writeBits p d bs).getLsbD k = if k < d then p.getLsbD k else (bs[k - d]?).getD false := by
  induction bs generalizing p d with
  | nil => 
    simp only [writeBits]
    split
    · rfl
    · simp; exact hp k (by omega)
  | cons b bs ih =>
    simp only [List.length_cons] at hd
    have eb : ∀ k, (extendPath p d b).getLsbD k = if k = d then b else p.getLsbD k := by
      intro k
      cases b
      · simp only [extendPath, Bool.false_eq_true, if_false]
        split
        · rename_i h; rw [h]; exact hp d (Nat.le_refl _)
        · rfl
      · simp only [extendPath, if_true, BitVec.getLsbD_or, BitVec.getLsbD_shiftLeft, BitVec.getLsbD_one]
        split
        · rename_i h; subst h; simp; right; omega
        · rename_i h
          by_cases hk : k < d
          · simp [hk]
          · simp [show k - d ≠ 0 by omega]
    rw [writeBits, ih _ _ (fun k hk => by rw [eb, if_neg (by omega)]; exact hp k (by omega)) (by omega), eb]
    split
    · split
      · rw [if_neg (by omega)]; rename_i h; subst h; simp
      · rw [if_pos (by omega)]
    · rw [if_neg (by omega), show k - d = (k - (d + 1)) + 1 by omega]; rfl

/-- An entry after a write. -/
theorem setEntry_get (m : Vector CodeEntry 128) (x y : Sym) (e : CodeEntry) :
    (setEntry m x e)[y.toNat]'y.isLt = if x = y then e else m[y.toNat]'y.isLt := by
  rw [setEntry, Vector.getElem_set]
  by_cases h : x = y
  · subst h; simp
  · rw [if_neg h, if_neg (fun e => h (BitVec.eq_of_toNat_eq e))]

/-- What visit writes: one entry per leaf below i, the rest stays. -/
theorem visit_spec {s : State} (T : s.TreeOk) (levels : Nat) (i : Slot) (d : Nat) (p : Path) (m : Vector CodeEntry 128)
    (hl : i.toNat < levels) (hi : i.toNat < s.nodes.length) :
    ∃ m', visit s levels i d p m = some m' ∧
      (∀ bs j, s.PathTo i bs j → (s.nodeAt j).leaf = true →
        m'[(s.nodeAt j).sym.toNat]'(s.nodeAt j).sym.isLt = { present := true, len := BitVec.ofNat 8 (d + bs.length), path := writeBits p d bs }) ∧
      (∀ x : Sym, (∀ bs j, s.PathTo i bs j → (s.nodeAt j).leaf = true → (s.nodeAt j).sym ≠ x) → m'[x.toNat]'x.isLt = m[x.toNat]'x.isLt) := by
  induction levels generalizing i d p m with
  | zero => omega
  | succ levels ih =>
    rw [visit]
    by_cases leaf : (s.nodeAt i).leaf = true
    · rw [if_pos leaf]
      have only : ∀ {bs j}, s.PathTo i bs j → bs = [] ∧ j = i := by
        intro bs j q
        cases bs with
        | nil => exact ⟨rfl, Eq.symm q⟩
        | cons b bs => have := q.1; rw [leaf] at this; cases this
      refine ⟨_, rfl, fun bs j q _ => ?_, fun x hx => ?_⟩
      · obtain ⟨rfl, rfl⟩ := only q
        rw [setEntry_get, if_pos rfl]; rfl
      · rw [setEntry_get, if_neg (hx [] i rfl leaf)]
    · have leaf' : (s.nodeAt i).leaf = false := by simpa using leaf
      rw [if_neg leaf]
      have cl := T.child_lt i hi leaf' false
      have cr := T.child_lt i hi leaf' true
      obtain ⟨c1, v1, a1, b1⟩ := ih (s.nodeAt i).left (d + 1) p m (by simp only [State.child] at cl; simp at cl; omega) (by simp only [State.child] at cl; simp at cl; omega)
      obtain ⟨c2, v2, a2, b2⟩ := ih (s.nodeAt i).right (d + 1) (extendPath p d true) c1 (by simp only [State.child] at cr; simp at cr; omega) (by simp only [State.child] at cr; simp at cr; omega)
      rw [v1]
      refine ⟨c2, v2, fun bs j q lj => ?_, fun x hx => ?_⟩
      · cases bs with
        | nil => rw [show j = i from (show i = j from q).symm] at lj; exact absurd lj leaf
        | cons b bs =>
          obtain ⟨-, q'⟩ := q
          cases b with
          | true =>
            rw [a2 bs j q' lj]
            simp only [List.length_cons, writeBits]; congr 2; omega
          | false =>
            rw [b2, a1 bs j q' lj]
            · simp only [List.length_cons, writeBits, extendPath, Bool.false_eq_true, if_false]; congr 2; omega
            · intro bs' j' r lj' e
              have hj := T.path_lt hi (show s.PathTo i (false :: bs) j from ⟨leaf', q'⟩)
              have hj' := T.path_lt hi (show s.PathTo i (true :: bs') j' from ⟨leaf', r⟩)
              have := T.leaf_slot_unique hj' hj lj' lj e
              subst this
              have := T.path_unique hi (show s.PathTo i (false :: bs) j' from ⟨leaf', q'⟩) (show s.PathTo i (true :: bs') j' from ⟨leaf', r⟩)
              cases this
      · rw [b2, b1]
        · exact fun bs j q lj => hx (false :: bs) j ⟨leaf', q⟩ lj
        · exact fun bs j q lj => hx (true :: bs) j ⟨leaf', q⟩ lj

/-- The code ROM of a tree (R151-R153). -/
theorem generatedCode_spec {s : State} (T : s.TreeOk) : ∃ rom, generatedCode s = some rom ∧
    (∀ bs (x : Sym), s.CodePath bs x → (rom[x.toNat]'x.isLt).present = true ∧ (rom[x.toNat]'x.isLt).len.toNat = bs.length ∧
      ∀ d, (rom[x.toNat]'x.isLt).path.getLsbD d = (bs[d]?).getD false) ∧
    (∀ x : Sym, (∀ bs, ¬ s.CodePath bs x) → rom[x.toNat]'x.isLt = ⟨false, 0, 0⟩) := by
  obtain ⟨rom, h1, h2, h3⟩ := visit_spec T 256 s.root 0 0 emptyCode (by have := s.root.isLt; omega) T.root_lt
  refine ⟨rom, h1, fun bs x ⟨j, p, lj, e⟩ => ?_, fun x hx => ?_⟩
  · subst e
    have := (T.code_depth p).2
    rw [h2 bs j p lj]
    refine ⟨rfl, by simp; omega, fun d => ?_⟩
    rw [writeBits_bit _ _ _ (by simp) (by omega)]; simp
  · rw [h3 x fun bs j p lj e => hx bs ⟨j, p, lj, e⟩]
    simp [emptyCode]

/-- CODES_VALID implies TREE_VALID (R30). -/
theorem treeValid_of_codes {s : State} (hI : s.TreeStateOk) (hc : s.codesValid = true) : s.treeValid = true := by
  cases h : s.treeValid with
  | true => rfl
  | false => have := (hI.noTree h).2.2.1; rw [hc] at this; cases this

/-- A present code is a path. -/
theorem codePath_of_present {s : State} (hI : s.TreeStateOk) (hc : s.codesValid = true) {x : Sym} (hp : (s.codeAt x).present = true) :
    ∃ bs, s.CodePath bs x ∧ (s.codeAt x).len.toNat = bs.length ∧ ∀ d, (s.codeAt x).path.getLsbD d = (bs[d]?).getD false := by
  obtain ⟨h1, h2⟩ := hI.codes hc x
  by_cases h : ∃ bs, s.CodePath bs x
  · obtain ⟨bs, h⟩ := h
    exact ⟨bs, h, (h1 bs h).2⟩
  · have := h2 (not_exists.1 h)
    rw [this] at hp; cases hp

/-- The bits of an entry that stores a path (R152). -/
theorem codeBits_eq {e : CodeEntry} {bs : List Bool} (h1 : e.len.toNat = bs.length) (h2 : ∀ d, e.path.getLsbD d = (bs[d]?).getD false) :
    codeBits e = bs := by
  apply List.ext_getElem
  · simp [codeBits, h1]
  · intro d h3 h4
    simp [codeBits, h2, h4]

end Sys2Proof.Machine
end

