-- ==== Sys2Proof/Laws/Commands.lean ====
section
/-! SUPPORT. What each command can do: one inversion lemma per meaning, and how a command and an engine step end. -/

namespace Sys2Proof.Machine

/-- How a command succeeds. -/
theorem succeed_next {s t : State} : succeed s = .next t ↔ t = s.completeOk := by
  simp only [succeed, Host.Outcome.next.injEq]; exact eq_comm

/-- How a command raises an error. -/
theorem raise_next {s t : State} {c : ErrCode} {info : Word} : raise s c info = .next t ↔ t = s.completeErr c info := by
  simp only [raise, Host.Outcome.next.injEq]; exact eq_comm

/-- What PUSHS can do. -/
theorem execPushs_cases {x : BitVec 8} {s t : State} (h : execPushs x s = .next t) :
    (¬ x.toNat < 128 ∧ t = s.completeErr .symbolRange (operandInfo x)) ∨
    (x.toNat < 128 ∧ s.text.length = 4096 ∧ t = s.completeErr .textFull (countWord s.textLen)) ∨
    (x.toNat < 128 ∧ s.text.length ≠ 4096 ∧ t = ((s.countSym (symbolOf x)).appendSym (symbolOf x)).completeOk) := by
  unfold execPushs at h
  split at h
  · exact .inl ⟨by simpa [symbolInRange, Config.nsym] using ‹symbolInRange x = false›, raise_next.1 h⟩
  · rename_i hr
    have hr : x.toNat < 128 := by simpa [symbolInRange, Config.nsym] using hr
    split at h
    · exact .inr (.inl ⟨hr, ‹_›, raise_next.1 h⟩)
    · exact .inr (.inr ⟨hr, ‹_›, succeed_next.1 h⟩)

/-- What PUSHB can do. -/
theorem execPushb_cases {b : Bool} {s t : State} (h : execPushb b s = .next t) :
    (s.bits.length = 32768 ∧ t = s.completeErr .bitsFull (countWord s.bitLen)) ∨
    (s.bits.length ≠ 32768 ∧ t = (s.appendBit b).completeOk) := by
  unfold execPushb at h
  split at h
  · exact .inl ⟨‹_›, raise_next.1 h⟩
  · exact .inr ⟨‹_›, succeed_next.1 h⟩

/-- What BUILD can do. -/
theorem execBuild_cases {s t : State} (h : execBuild s = .next t) :
    (s.text = [] ∧ t = s.completeErr .invalidInput 0) ∨
    (s.text ≠ [] ∧ t = (s.setTree (builtArena s) (builtRoot (builtArena s))).completeOk) := by
  unfold execBuild at h
  split at h
  · exact .inl ⟨List.length_eq_zero_iff.1 ‹_›, raise_next.1 h⟩
  · exact .inr ⟨fun he => ‹¬ _› (by simp [State.textLen, he]), succeed_next.1 h⟩

/-- What GENCODE can do. -/
theorem execGencode_cases {s t : State} (h : execGencode s = .next t) :
    (s.treeValid = false ∧ t = s.completeErr .noTree 0) ∨
    (s.treeValid = true ∧ ∃ rom, generatedCode s = some rom ∧ t = (s.setCodes rom).completeOk) := by
  unfold execGencode at h
  split at h
  · exact .inl ⟨‹_›, raise_next.1 h⟩
  · rename_i ht
    split at h
    · exact .inr ⟨by simpa using ht, _, ‹_›, succeed_next.1 h⟩
    · cases h

/-- What LOOKUP can do. -/
theorem execLookup_cases {x : BitVec 8} {s t : State} (h : execLookup x s = .next t) :
    (s.treeValid = false ∧ t = s.completeErr .noTree 0) ∨
    (s.treeValid = true ∧ s.codesValid = false ∧ t = s.completeErr .noCodes 0) ∨
    (s.treeValid = true ∧ s.codesValid = true ∧ ¬ x.toNat < 128 ∧ t = s.completeErr .symbolRange (operandInfo x)) ∨
    (s.treeValid = true ∧ s.codesValid = true ∧ x.toNat < 128 ∧ (s.codeAt (symbolOf x)).present = false ∧
      t = s.completeErr .symbolAbsent (operandInfo x)) ∨
    (s.treeValid = true ∧ s.codesValid = true ∧ x.toNat < 128 ∧ (s.codeAt (symbolOf x)).present = true ∧
      t = (s.setRes (s.codeAt (symbolOf x)).len (s.codeAt (symbolOf x)).path).completeOk) := by
  unfold execLookup at h
  split at h
  · exact .inl ⟨‹_›, raise_next.1 h⟩
  · rename_i ht
    have ht : s.treeValid = true := by simpa using ht
    split at h
    · exact .inr (.inl ⟨ht, ‹_›, raise_next.1 h⟩)
    · rename_i hc
      have hc : s.codesValid = true := by simpa using hc
      split at h
      · exact .inr (.inr (.inl ⟨ht, hc, by simpa [symbolInRange, Config.nsym] using ‹symbolInRange x = false›, raise_next.1 h⟩))
      · rename_i hr
        have hr : x.toNat < 128 := by simpa [symbolInRange, Config.nsym] using hr
        split at h
        · exact .inr (.inr (.inr (.inl ⟨ht, hc, hr, ‹_›, raise_next.1 h⟩)))
        · exact .inr (.inr (.inr (.inr ⟨ht, hc, hr, Bool.eq_true_of_not_eq_false ‹¬ (s.codeAt (symbolOf x)).present = false›, succeed_next.1 h⟩)))

/-- What ENCODE can do. -/
theorem execEncode_cases {s t : State} (h : execEncode s = .next t) :
    (s.treeValid = false ∧ t = s.completeErr .noTree 0) ∨
    (s.treeValid = true ∧ s.codesValid = false ∧ t = s.completeErr .noCodes 0) ∨
    (s.treeValid = true ∧ s.codesValid = true ∧ s.text.length < 2 ∧ t = s.completeErr .notEncodable (countWord s.textLen)) ∨
    (s.treeValid = true ∧ s.codesValid = true ∧ 2 ≤ s.text.length ∧ ∃ i, firstAbsent s = some i ∧
      t = s.completeErr .symbolAbsent (countWord i)) ∨
    (s.treeValid = true ∧ s.codesValid = true ∧ 2 ≤ s.text.length ∧ firstAbsent s = none ∧ 32768 < encodedLength s ∧
      t = s.completeErr .bitsFull (countWord (encodedLength s))) ∨
    (s.treeValid = true ∧ s.codesValid = true ∧ 2 ≤ s.text.length ∧ firstAbsent s = none ∧ encodedLength s ≤ 32768 ∧
      t = (s.setBits (encodedBits s)).completeOk) := by
  unfold execEncode at h
  split at h
  · exact .inl ⟨‹_›, raise_next.1 h⟩
  · rename_i ht
    have ht : s.treeValid = true := by simpa using ht
    split at h
    · exact .inr (.inl ⟨ht, ‹_›, raise_next.1 h⟩)
    · rename_i hc
      have hc : s.codesValid = true := by simpa using hc
      split at h
      · exact .inr (.inr (.inl ⟨ht, hc, ‹_›, raise_next.1 h⟩))
      · rename_i hl
        have hl : 2 ≤ s.text.length := Nat.not_lt.1 hl
        split at h
        · exact .inr (.inr (.inr (.inl ⟨ht, hc, hl, _, ‹_›, raise_next.1 h⟩)))
        · split at h
          · exact .inr (.inr (.inr (.inr (.inl ⟨ht, hc, hl, ‹_›, ‹_›, raise_next.1 h⟩))))
          · exact .inr (.inr (.inr (.inr (.inr ⟨ht, hc, hl, ‹_›, Nat.not_lt.1 ‹_›, succeed_next.1 h⟩))))

/-- What DECODE can do. -/
theorem execDecode_cases {s t : State} (h : execDecode s = .next t) :
    (s.treeValid = false ∧ t = s.completeErr .noTree 0) ∨
    (s.treeValid = true ∧ (s.nodeAt s.root).leaf = true ∧
      t = (s.setOut (List.replicate (symbolCount s) (s.nodeAt s.root).sym) 0).completeOk) ∨
    (s.treeValid = true ∧ (s.nodeAt s.root).leaf = false ∧ ∃ m, walkSymbols s (symbolCount s) s.bits = .error m ∧
      t = s.completeErr .bitsUnderrun (countWord m)) ∨
    (s.treeValid = true ∧ (s.nodeAt s.root).leaf = false ∧ ∃ o rest, walkSymbols s (symbolCount s) s.bits = .ok (o, rest) ∧
      t = (s.setOut o (s.bitLen - rest.length)).completeOk) := by
  unfold execDecode at h
  split at h
  · exact .inl ⟨‹_›, raise_next.1 h⟩
  · rename_i ht
    have ht : s.treeValid = true := by simpa using ht
    split at h
    · exact .inr (.inl ⟨ht, ‹_›, succeed_next.1 h⟩)
    · rename_i hl
      have hl : (s.nodeAt s.root).leaf = false := by simpa using hl
      split at h
      · exact .inr (.inr (.inl ⟨ht, hl, _, ‹_›, raise_next.1 h⟩))
      · exact .inr (.inr (.inr ⟨ht, hl, _, _, ‹_›, succeed_next.1 h⟩))

/-- What WALK can do. -/
theorem execWalk_cases {b : Bool} {s t : State} (h : execWalk b s = .next t) :
    (s.treeValid = false ∧ t = s.completeErr .noTree 0) ∨
    (s.treeValid = true ∧ (s.nodeAt s.root).leaf = true ∧
      t = (s.setWalk s.root true false (s.nodeAt s.root).sym).completeOk) ∨
    (s.treeValid = true ∧ (s.nodeAt s.root).leaf = false ∧ (s.nodeAt (s.child s.walkCur b)).leaf = true ∧
      t = (s.setWalk s.root true true (s.nodeAt (s.child s.walkCur b)).sym).completeOk) ∨
    (s.treeValid = true ∧ (s.nodeAt s.root).leaf = false ∧ (s.nodeAt (s.child s.walkCur b)).leaf = false ∧
      t = (s.setWalk (s.child s.walkCur b) false true 0).completeOk) := by
  unfold execWalk at h
  split at h
  · exact .inl ⟨‹_›, raise_next.1 h⟩
  · rename_i ht
    have ht : s.treeValid = true := by simpa using ht
    split at h
    · exact .inr (.inl ⟨ht, ‹_›, succeed_next.1 h⟩)
    · rename_i hl
      have hl : (s.nodeAt s.root).leaf = false := by simpa using hl
      split at h
      · exact .inr (.inr (.inl ⟨ht, hl, ‹_›, succeed_next.1 h⟩))
      · exact .inr (.inr (.inr ⟨ht, hl, by simpa using ‹¬ (s.nodeAt (s.child s.walkCur b)).leaf = true›, succeed_next.1 h⟩))

/-- What WRST can do. -/
theorem execWrst_cases {s t : State} (h : execWrst s = .next t) :
    (s.treeValid = false ∧ t = s.completeErr .noTree 0) ∨
    (s.treeValid = true ∧ t = (s.setWalk s.root false false 0).completeOk) := by
  unfold execWrst at h
  split at h
  · exact .inl ⟨‹_›, raise_next.1 h⟩
  · exact .inr ⟨by simpa using ‹¬ s.treeValid = false›, succeed_next.1 h⟩

/-- How any command ends: an error that changes nothing else, or a successful completion of its writes. -/
theorem exec_cases {i : Instr} {s t : State} (h : exec i s = .next t) :
    (∃ c info, c ≠ .none ∧ t = s.completeErr c info) ∨ ∃ u : State, t = u.completeOk := by
  cases i with
  | nop => exact .inr ⟨_, succeed_next.1 h⟩
  | clear => exact .inr ⟨_, succeed_next.1 h⟩
  | clrtxt => exact .inr ⟨_, succeed_next.1 h⟩
  | clrbits => exact .inr ⟨_, succeed_next.1 h⟩
  | pushs x =>
    rcases execPushs_cases h with ⟨-, h⟩ | ⟨-, -, h⟩ | ⟨-, -, h⟩
    · exact .inl ⟨_, _, by decide, h⟩
    · exact .inl ⟨_, _, by decide, h⟩
    · exact .inr ⟨_, h⟩
  | pushb b =>
    rcases execPushb_cases h with ⟨-, h⟩ | ⟨-, h⟩
    · exact .inl ⟨_, _, by decide, h⟩
    · exact .inr ⟨_, h⟩
  | build =>
    rcases execBuild_cases h with ⟨-, h⟩ | ⟨-, h⟩
    · exact .inl ⟨_, _, by decide, h⟩
    · exact .inr ⟨_, h⟩
  | gencode =>
    rcases execGencode_cases h with ⟨-, h⟩ | ⟨-, _, -, h⟩
    · exact .inl ⟨_, _, by decide, h⟩
    · exact .inr ⟨_, h⟩
  | lookup x =>
    rcases execLookup_cases h with ⟨-, h⟩ | ⟨-, -, h⟩ | ⟨-, -, -, h⟩ | ⟨-, -, -, -, h⟩ | ⟨-, -, -, -, h⟩
    · exact .inl ⟨_, _, by decide, h⟩
    · exact .inl ⟨_, _, by decide, h⟩
    · exact .inl ⟨_, _, by decide, h⟩
    · exact .inl ⟨_, _, by decide, h⟩
    · exact .inr ⟨_, h⟩
  | encode =>
    rcases execEncode_cases h with ⟨-, h⟩ | ⟨-, -, h⟩ | ⟨-, -, -, h⟩ | ⟨-, -, -, _, -, h⟩ | ⟨-, -, -, -, -, h⟩ | ⟨-, -, -, -, -, h⟩
    · exact .inl ⟨_, _, by decide, h⟩
    · exact .inl ⟨_, _, by decide, h⟩
    · exact .inl ⟨_, _, by decide, h⟩
    · exact .inl ⟨_, _, by decide, h⟩
    · exact .inl ⟨_, _, by decide, h⟩
    · exact .inr ⟨_, h⟩
  | decode =>
    rcases execDecode_cases h with ⟨-, h⟩ | ⟨-, -, h⟩ | ⟨-, -, _, -, h⟩ | ⟨-, -, _, _, -, h⟩
    · exact .inl ⟨_, _, by decide, h⟩
    · exact .inr ⟨_, h⟩
    · exact .inl ⟨_, _, by decide, h⟩
    · exact .inr ⟨_, h⟩
  | walk b =>
    rcases execWalk_cases h with ⟨-, h⟩ | ⟨-, -, h⟩ | ⟨-, -, -, h⟩ | ⟨-, -, -, h⟩
    · exact .inl ⟨_, _, by decide, h⟩
    · exact .inr ⟨_, h⟩
    · exact .inr ⟨_, h⟩
    · exact .inr ⟨_, h⟩
  | wrst =>
    rcases execWrst_cases h with ⟨-, h⟩ | ⟨-, h⟩
    · exact .inl ⟨_, _, by decide, h⟩
    · exact .inr ⟨_, h⟩

/-- How the engine's step ends. -/
theorem engineStep_cases {s t : State} (h : engineStep s = .next t) :
    (∃ i, decode s.lastCmd = .ok i ∧ exec i s = .next t) ∨
    (∃ e, decode s.lastCmd = .error e ∧ t = s.completeErr .illegalCmd s.lastCmd) := by
  unfold engineStep at h
  split at h
  · exact .inl ⟨_, ‹_›, h⟩
  · exact .inr ⟨_, ‹_›, raise_next.1 h⟩

/-- An engine step ends in an error that changes nothing else, or in a success. -/
theorem engineStep_end {s t : State} (h : engineStep s = .next t) :
    (∃ c info, c ≠ .none ∧ t = s.completeErr c info) ∨ ∃ u : State, t = u.completeOk := by
  rcases engineStep_cases h with ⟨i, -, h⟩ | ⟨e, -, h⟩
  · exact exec_cases h
  · exact .inl ⟨_, _, by decide, h⟩

/-- Every way a step can go: a host read, a write with or without an effect, a reset, an idle engine turn, an engine step. -/
theorem step_cases {s t : State} (h : step s = .next t) :
    (∃ r : Option Reply, ∃ (a : List Event) (n : Nat), t = { s with agenda := a, reply := r, draws := n }) ∨
    (∃ (v : Word) (r : Option Reply) (a : List Event), s.busy = false ∧ t = { s.accept v with agenda := a, reply := r }) ∨
    (∃ (r : Option Reply) (a : List Event), s.busy = true ∧ t = { s with agenda := a, reply := r, ovr := true }) ∨
    (∃ (r : Option Reply) (a : List Event), t = { s with agenda := a, reply := r, ovr := false }) ∨
    (∃ a : List Event, t = { State.reset with agenda := a, draws := s.draws }) ∨
    (s.busy = true ∧ ∃ a : List Event, engineStep { s with agenda := a } = .next t) := by
  have turn : ∀ a : List Event, engineTurn { s with agenda := a } = .next t →
      (∃ r : Option Reply, ∃ (a : List Event) (n : Nat), t = { s with agenda := a, reply := r, draws := n }) ∨
      (s.busy = true ∧ ∃ a : List Event, engineStep { s with agenda := a } = .next t) := by
    intro a h
    unfold engineTurn at h
    split at h
    · exact .inr ⟨‹_›, a, h⟩
    · simp only [Host.Outcome.next.injEq] at h; subst h
      exact .inl ⟨s.reply, a, s.draws, rfl⟩
  unfold step nextEvent at h
  split at h
  · rename_i ha
    rcases turn s.agenda h with h | h
    · exact .inl h
    · exact .inr (.inr (.inr (.inr (.inr h))))
  · rename_i e rest ha
    cases e with
    | engineTurn =>
      rcases turn rest h with h | h
      · exact .inl h
      · exact .inr (.inr (.inr (.inr (.inr h))))
    | reset =>
      simp only [perform, Host.Outcome.next.injEq] at h; subst h
      exact .inr (.inr (.inr (.inr (.inl ⟨rest, rfl⟩))))
    | hostRead a size =>
      simp only [perform, Host.Outcome.next.injEq] at h; subst h
      left
      unfold hostRead
      split
      · exact ⟨_, rest, s.draws, rfl⟩
      · split
        · exact ⟨_, rest, _, rfl⟩
        · exact ⟨_, rest, s.draws, rfl⟩
    | hostWrite a size strobes v =>
      simp only [perform, Host.Outcome.next.injEq] at h; subst h
      unfold hostWrite
      split
      · split
        · exact .inl ⟨_, rest, s.draws, rfl⟩
        · rename_i l _
          cases l with
          | cmd =>
            cases hb : s.busy with
            | true => exact .inr (.inr (.inl ⟨_, rest, rfl, by simp [writeLoc, hb, State.overrun, State.answer]; rfl⟩))
            | false => exact .inr (.inl ⟨v, _, rest, rfl, by simp [writeLoc, hb, State.accept, State.answer]; rfl⟩)
          | status =>
            cases hv : v.getLsbD 3 with
            | true => exact .inr (.inr (.inr (.inl ⟨_, rest, by simp only [writeLoc, hv, State.answer]; rfl⟩)))
            | false => exact .inl ⟨some (.writeResp .okay), rest, s.draws, by simp only [writeLoc, hv, State.answer]; rfl⟩
          | _ => exact .inl ⟨_, rest, s.draws, rfl⟩
      · exact .inl ⟨_, rest, s.draws, rfl⟩

/-! ### Completion -/

/-- BUILD of a text. -/
theorem exec_build_ok {s : State} (hne : s.textLen ≠ 0) :
    exec .build s = .next (s.setTree (builtArena s) (builtRoot (builtArena s))).completeOk := by
  simp only [exec, execBuild, if_neg hne]; rfl

/-- GENCODE of a tree. -/
theorem exec_gencode_ok {s : State} (ht : s.treeValid = true) {rom : Vector CodeEntry 128} (h : generatedCode s = some rom) :
    exec .gencode s = .next (s.setCodes rom).completeOk := by
  show execGencode s = _
  rw [execGencode, if_neg (by simp [ht]), h]; rfl

/-- DECODE of complete walks. -/
theorem exec_decode_ok {s : State} (ht : s.treeValid = true) (hl : (s.nodeAt s.root).leaf = false) {o : List Sym} {rest : List Bool}
    (h : walkSymbols s (symbolCount s) s.bits = .ok (o, rest)) :
    exec .decode s = .next (s.setOut o (s.bitLen - rest.length)).completeOk := by
  show execDecode s = _
  rw [execDecode, if_neg (by simp [ht]), if_neg (by simp [hl]), h]; rfl

/-- A symbol below 128 keeps its value. -/
theorem symbolOf_toNat {x : BitVec 8} (h : x.toNat < 128) : (symbolOf x).toNat = x.toNat := by simp [symbolOf]; omega

/-- PUSHS of a symbol below 128, TEXT not full. -/
theorem exec_pushs_ok {s : State} {x : BitVec 8} (hx : x.toNat < 128) (hl : s.text.length ≠ 4096) :
    exec (.pushs x) s = .next ((s.countSym (symbolOf x)).appendSym (symbolOf x)).completeOk := by
  have h1 : symbolInRange x = true := by simpa [symbolInRange, Config.nsym] using hx
  show execPushs x s = _
  rw [execPushs, if_neg (by simp [h1]), if_neg (show ¬ s.textLen = Config.textCap from hl)]
  rfl

/-- ENCODE finds no absent symbol iff every symbol of the text is present. -/
theorem firstAbsent_none (s : State) : firstAbsent s = none ↔ ∀ x ∈ s.text, (s.codeAt x).present = true := by
  simp [firstAbsent, List.findIdx?_eq_none_iff]

/-- A code has its length. -/
theorem codeBits_length (e : CodeEntry) : (codeBits e).length = e.len.toNat := by simp [codeBits]

/-- The encoded text has the length ENCODE computes. -/
theorem encodedBits_length (s : State) : (encodedBits s).length = encodedLength s := by
  rw [encodedBits, encodedLength, List.length_flatMap]
  congr 1; apply List.map_congr_left; intro x _; exact codeBits_length _

end Sys2Proof.Machine
end

