-- ==== Sys2Proof/Laws/Decode.lean ====
section
/-! SUPPORT. The fields of a command word, and what decoding and encoding make of them. -/

namespace Sys2Proof.Machine

/-- Bit j of a word made of OP, RSV and OPND (R91). -/
theorem getLsbD_fields (a : BitVec 8) (b : BitVec 16) (c : BitVec 8) (j : Nat) :
    (a ++ (b ++ c) : BitVec 32).getLsbD j =
      if j < 8 then c.getLsbD j else if j < 24 then b.getLsbD (j - 8) else a.getLsbD (j - 24) := by
  show (a ++ (b ++ c) : BitVec (8 + (16 + 8))).getLsbD j = _
  rw [BitVec.getLsbD_append, BitVec.getLsbD_append]
  split <;> split <;> (try split) <;> (try rfl) <;> (try omega)

/-- A word is its three fields (R91). -/
theorem word_of_fields (w : Word) : (opField w ++ (rsvField w ++ opndField w) : BitVec 32) = w := by
  apply BitVec.eq_of_getLsbD_eq
  intro j hj
  rw [getLsbD_fields]
  simp only [opField, rsvField, opndField, BitVec.getLsbD_extractLsb']
  split
  · simp [*]
  · split
    · have : j - 8 < 16 := by omega
      simp [this]; congr 1; omega
    · have : j - 24 < 8 := by omega
      simp [this]; congr 1; omega

/-- The OP field of an encoded command. -/
theorem opField_encode (i : Instr) : opField (encode i) = opcodeOf i := by
  apply BitVec.eq_of_getLsbD_eq
  intro j hj
  rw [opField, BitVec.getLsbD_extractLsb', encode, getLsbD_fields]
  have h1 : ¬ 24 + j < 8 := by omega
  simp [hj, h1]

/-- The RSV field of an encoded command is 0 (R91). -/
theorem rsvField_encode (i : Instr) : rsvField (encode i) = 0 := by
  apply BitVec.eq_of_getLsbD_eq
  intro j hj
  rw [rsvField, BitVec.getLsbD_extractLsb', encode, getLsbD_fields]
  simp
  intros; omega

/-- The OPND field of an encoded command. -/
theorem opndField_encode (i : Instr) : opndField (encode i) = operandOf i := by
  apply BitVec.eq_of_getLsbD_eq
  intro j hj
  rw [opndField, BitVec.getLsbD_extractLsb', encode, getLsbD_fields]
  simp [hj]

/-- A word is the encoding of i iff its fields are those of i. -/
theorem encode_eq_iff (w : Word) (i : Instr) :
    encode i = w ↔ opField w = opcodeOf i ∧ rsvField w = 0 ∧ opndField w = operandOf i := by
  constructor
  · rintro rfl; exact ⟨opField_encode i, rsvField_encode i, opndField_encode i⟩
  · rintro ⟨h1, h2, h3⟩
    rw [← word_of_fields w, h1, h2, h3]; rfl

/-- What form B1 accepts (R92). -/
theorem formB1_ok (f : Bool → Instr) (p : BitVec 8) (i : Instr) :
    formB1 f p = .ok i ↔ ∃ b, i = f b ∧ p = (BitVec.ofBool b).setWidth 8 := by
  have key : ∀ p : BitVec 8, p.extractLsb' 1 7 = 0 ↔ p = (BitVec.ofBool (p.getLsbD 0)).setWidth 8 := by decide +kernel
  have k2 : ∀ b, ((BitVec.ofBool b).setWidth 8).getLsbD 0 = b := by decide
  unfold formB1
  split
  · rename_i h
    simp only [Except.ok.injEq]
    constructor
    · rintro rfl; exact ⟨_, rfl, (key p).1 h⟩
    · rintro ⟨b, rfl, rfl⟩; rw [k2]
  · rename_i h
    simp only [reduceCtorEq, false_iff]
    rintro ⟨b, rfl, rfl⟩
    apply h; cases b <;> decide

/-- What form NONE accepts (R92). -/
theorem formNone_ok (i' : Instr) (p : BitVec 8) (i : Instr) : formNone i' p = .ok i ↔ i = i' ∧ p = 0 := by
  unfold formNone; split
  · simp only [Except.ok.injEq, *, and_true]; exact eq_comm
  · simp_all

/-- What form S8 accepts (R92). -/
theorem formS8_ok (f : BitVec 8 → Instr) (p : BitVec 8) (i : Instr) : formS8 f p = .ok i ↔ i = f p := by
  simp only [formS8, Except.ok.injEq]; exact eq_comm

/-- An opcode and operand give i iff they are those of i. -/
theorem decodeOperand_ok (op : Nat) (p : BitVec 8) (i : Instr) :
    decodeOperand op p = .ok i ↔ op = (opcodeOf i).toNat ∧ p = operandOf i := by
  unfold decodeOperand
  split
  all_goals first
    | (rw [formNone_ok]; cases i <;> simp [opcodeOf, operandOf])
    | (rw [formS8_ok]; cases i <;> simp [opcodeOf, operandOf]; exact eq_comm)
    | (rw [formB1_ok]; cases i <;> simp [opcodeOf, operandOf])
    | skip
  all_goals try (constructor <;> (intro h; simpa using h))
  simp only [reduceCtorEq, false_iff]
  rintro ⟨h, -⟩
  cases i <;> simp [opcodeOf] at h <;> simp_all

end Sys2Proof.Machine
end

