-- ==== Sys2Proof/Laws/Decoder.lean ====
section
/-! SUPPORT. The walks of DECODE and WALK (R172, R175, R176). -/

namespace Sys2Proof.Machine

/-- A root-to-leaf path walks to its leaf (R172). -/
theorem walkSymbol_path {s : State} {i j : Slot} {bs rest : List Bool} (p : s.PathTo i bs j) (hl : (s.nodeAt j).leaf = true) :
    walkSymbol s (bs ++ rest) i = some ((s.nodeAt j).sym, rest) := by
  induction bs generalizing i with
  | nil =>
    rw [show i = j from p, List.nil_append]
    cases rest <;> rw [walkSymbol, if_pos hl]
  | cons b bs ih =>
    rw [List.cons_append, walkSymbol, if_neg (by simp [p.1])]
    exact ih p.2

/-- A complete walk is a path to a leaf. -/
theorem walkSymbol_some {s : State} {i : Slot} {bits rest : List Bool} {x : Sym} (h : walkSymbol s bits i = some (x, rest)) :
    ∃ bs j, bits = bs ++ rest ∧ s.PathTo i bs j ∧ (s.nodeAt j).leaf = true ∧ (s.nodeAt j).sym = x := by
  induction bits generalizing i with
  | nil =>
    rw [walkSymbol] at h
    split at h
    · simp only [Option.some.injEq, Prod.mk.injEq] at h
      obtain ⟨rfl, rfl⟩ := h
      exact ⟨[], i, rfl, rfl, ‹_›, rfl⟩
    · cases h
  | cons b bits ih =>
    rw [walkSymbol] at h
    split at h
    · simp only [Option.some.injEq, Prod.mk.injEq] at h
      obtain ⟨rfl, rfl⟩ := h
      exact ⟨[], i, rfl, rfl, ‹_›, rfl⟩
    · rename_i hl
      obtain ⟨bs, j, e, p, q⟩ := ih h
      exact ⟨b :: bs, j, by rw [e]; rfl, ⟨by simpa using hl, p⟩, q⟩

/-- Bits that end at an internal node complete no walk (R175). -/
theorem walkSymbol_stuck {s : State} {i j : Slot} {bs : List Bool} (p : s.PathTo i bs j) (hl : (s.nodeAt j).leaf = false) :
    walkSymbol s bs i = none := by
  induction bs generalizing i with
  | nil => rw [show i = j from p, walkSymbol, if_neg (by simp [hl])]
  | cons b bs ih =>
    rw [walkSymbol, if_neg (by simp [p.1])]
    exact ih p.2

/-- Paths one after the other decode to their symbols (R172). -/
theorem walkSymbols_paths {s : State} (walks : List (List Bool × Slot)) (rest : List Bool)
    (h : ∀ w ∈ walks, s.PathTo s.root w.1 w.2 ∧ (s.nodeAt w.2).leaf = true) :
    walkSymbols s walks.length ((walks.flatMap fun w => w.1) ++ rest) = .ok (walks.map fun w => (s.nodeAt w.2).sym, rest) := by
  induction walks with
  | nil => rfl
  | cons w walks ih =>
    have hw := h w List.mem_cons_self
    rw [List.flatMap_cons, List.append_assoc, List.length_cons, walkSymbols, walkSymbol_path hw.1 hw.2]
    simp only [ih fun w' h' => h w' (List.mem_cons_of_mem _ h'), List.map_cons]

/-- Too few paths, and how many were complete (R175). -/
theorem walkSymbols_under {s : State} (walks : List (List Bool × Slot)) (part : List Bool) (j : Slot) (n : Nat)
    (h : ∀ w ∈ walks, s.PathTo s.root w.1 w.2 ∧ (s.nodeAt w.2).leaf = true) (hn : walks.length < n)
    (p : s.PathTo s.root part j) (hl : (s.nodeAt j).leaf = false) :
    walkSymbols s n ((walks.flatMap fun w => w.1) ++ part) = .error walks.length := by
  induction walks generalizing n with
  | nil =>
    obtain ⟨n, rfl⟩ : ∃ m, n = m + 1 := ⟨n - 1, by simp at hn; omega⟩
    rw [walkSymbols]
    simp only [List.flatMap_nil, List.nil_append, walkSymbol_stuck p hl, List.length_nil]
  | cons w walks ih =>
    obtain ⟨n, rfl⟩ : ∃ m, n = m + 1 := ⟨n - 1, by simp at hn; omega⟩
    have hw := h w List.mem_cons_self
    rw [List.flatMap_cons, List.append_assoc, List.length_cons, walkSymbols, walkSymbol_path hw.1 hw.2]
    simp only [ih n (fun w' h' => h w' (List.mem_cons_of_mem _ h')) (by simpa using hn)]

/-- What a successful decode consumed. -/
theorem walkSymbols_ok {s : State} {n : Nat} {bits rest : List Bool} {o : List Sym} (h : walkSymbols s n bits = .ok (o, rest)) :
    ∃ walks : List (List Bool × Slot), walks.length = n ∧ (∀ w ∈ walks, s.PathTo s.root w.1 w.2 ∧ (s.nodeAt w.2).leaf = true) ∧
      bits = (walks.flatMap fun w => w.1) ++ rest ∧ o = walks.map fun w => (s.nodeAt w.2).sym := by
  induction n generalizing bits o with
  | zero =>
    simp only [walkSymbols, Except.ok.injEq, Prod.mk.injEq] at h
    obtain ⟨rfl, rfl⟩ := h
    exact ⟨[], rfl, by simp, by simp, rfl⟩
  | succ n ih =>
    rw [walkSymbols] at h
    split at h
    · cases h
    · rename_i x r hx
      split at h
      · cases h
      · rename_i o' rest' ho
        simp only [Except.ok.injEq, Prod.mk.injEq] at h
        obtain ⟨rfl, rfl⟩ := h
        obtain ⟨bs, j, e, p, hl, ex⟩ := walkSymbol_some hx
        obtain ⟨walks, e1, e2, e3, e4⟩ := ih ho
        refine ⟨(bs, j) :: walks, by simp [e1], ?_, ?_, ?_⟩
        · intro w hw
          rcases List.mem_cons.1 hw with rfl | hw
          · exact ⟨p, hl⟩
          · exact e2 w hw
        · rw [e, e3, List.flatMap_cons, List.append_assoc]
        · rw [List.map_cons, e4, ex]

/-- N walks emit N symbols. -/
theorem walkSymbols_length {s : State} {n : Nat} {bits rest : List Bool} {o : List Sym} (h : walkSymbols s n bits = .ok (o, rest)) : o.length = n := by
  obtain ⟨walks, e1, -, -, rfl⟩ := walkSymbols_ok h
  simp [e1]

/-- Empty pieces make an empty list. -/
theorem flatMap_nil_of {α β : Type} (l : List α) (f : α → List β) (h : ∀ x ∈ l, f x = []) : l.flatMap f = [] := by
  induction l with
  | nil => rfl
  | cons a l ih => rw [List.flatMap_cons, h a List.mem_cons_self, ih fun x hx => h x (List.mem_cons_of_mem _ hx)]; rfl

/-- The walks behind an encoded text. -/
theorem encoded_walks {s : State} (hI : s.TreeStateOk) (hc : s.codesValid = true) (l : List Sym) (hp : ∀ x ∈ l, (s.codeAt x).present = true) :
    ∃ walks : List (List Bool × Slot), walks.length = l.length ∧ (∀ w ∈ walks, s.PathTo s.root w.1 w.2 ∧ (s.nodeAt w.2).leaf = true) ∧
      (l.flatMap fun x => codeBits (s.codeAt x)) = (walks.flatMap fun w => w.1) ∧ l = walks.map fun w => (s.nodeAt w.2).sym := by
  induction l with
  | nil => exact ⟨[], rfl, by simp, rfl, rfl⟩
  | cons x l ih =>
    obtain ⟨walks, e1, e2, e3, e4⟩ := ih fun y hy => hp y (List.mem_cons_of_mem _ hy)
    obtain ⟨bs, ⟨j, p, hl, ej⟩, f1, f2⟩ := codePath_of_present hI hc (hp x List.mem_cons_self)
    refine ⟨(bs, j) :: walks, by simp [e1], ?_, ?_, ?_⟩
    · intro w hw
      rcases List.mem_cons.1 hw with rfl | hw
      · exact ⟨p, hl⟩
      · exact e2 w hw
    · rw [List.flatMap_cons, List.flatMap_cons, e3, codeBits_eq f1 f2]
    · rw [List.map_cons, ← e4, ej]

/-- WALK over one path hits its leaf and returns to the root (R176). -/
theorem walkRun_path {s : State} (ht : s.treeValid = true) (hr : (s.nodeAt s.root).leaf = false) {i j : Slot} {bs more : List Bool}
    (p : s.PathTo i bs j) (hl : (s.nodeAt j).leaf = true) (hne : bs ≠ [])
    (v : State) (hv : v.nodes = s.nodes ∧ v.root = s.root ∧ v.treeValid = true ∧ v.draws = s.draws ∧ v.walkCur = i) :
    ∃ w, w.nodes = s.nodes ∧ w.root = s.root ∧ w.treeValid = true ∧ w.draws = s.draws ∧ w.walkCur = s.root ∧ w.walkHit = true ∧
      walkRun (bs ++ more) v = (walkRun more w).map fun q => ((s.nodeAt j).sym :: q.1, q.2) := by
  induction bs generalizing i v with
  | nil => exact absurd rfl hne
  | cons b bs ih =>
    obtain ⟨h1, h2, h3, h4, h5⟩ := hv
    have nd : ∀ k, v.nodeAt k = s.nodeAt k := fun k => by simp [State.nodeAt, h1, h4]
    have ch : ∀ k c, v.child k c = s.child k c := fun k c => by simp [State.child, nd]
    have hvr : (v.nodeAt v.root).leaf = false := by rw [nd, h2]; exact hr
    cases bs with
    | nil =>
      have e : s.child i b = j := p.2
      let w := (v.setWalk v.root true true (v.nodeAt (v.child v.walkCur b)).sym).completeOk
      have hs : exec (.walk b) v = .next w := by
        show execWalk b v = _
        rw [execWalk, if_neg (by simp [h3]), if_neg (by simp [hvr]), if_pos (by rw [ch, nd, h5, e]; exact hl)]; rfl
      refine ⟨w, h1, h2, h3, h4, h2, rfl, ?_⟩
      rw [List.cons_append, List.nil_append, walkRun, hs]
      have hsym : w.walkSym = (s.nodeAt j).sym := by
        show (v.nodeAt (v.child v.walkCur b)).sym = _
        rw [ch, nd, h5, e]
      have hhit : w.walkHit = true := rfl
      simp only [hhit, hsym]
      cases walkRun more w <;> rfl
    | cons b' bs =>
      let w := (v.setWalk (v.child v.walkCur b) false true 0).completeOk
      have hin : (s.nodeAt (s.child i b)).leaf = false := p.2.1
      have hs : exec (.walk b) v = .next w := by
        show execWalk b v = _
        rw [execWalk, if_neg (by simp [h3]), if_neg (by simp [hvr]), if_neg (by rw [ch, nd, h5, hin]; simp)]; rfl
      obtain ⟨w', g1, g2, g3, g4, g5, g6, g7⟩ := ih p.2 (by simp) w ⟨h1, h2, h3, h4, by show v.child v.walkCur b = _; rw [ch, h5]⟩
      refine ⟨w', g1, g2, g3, g4, g5, g6, ?_⟩
      rw [List.cons_append, walkRun, hs]
      have hhit : w.walkHit = false := rfl
      simp only [hhit, g7]
      cases walkRun more w' <;> rfl

/-- WALK over paths one after the other hits their leaves. -/
theorem walkRun_paths {s : State} (ht : s.treeValid = true) (hr : (s.nodeAt s.root).leaf = false) (walks : List (List Bool × Slot))
    (h : ∀ w ∈ walks, s.PathTo s.root w.1 w.2 ∧ (s.nodeAt w.2).leaf = true) (hne : walks ≠ [])
    (v : State) (hv : v.nodes = s.nodes ∧ v.root = s.root ∧ v.treeValid = true ∧ v.draws = s.draws ∧ v.walkCur = s.root) :
    ∃ u, walkRun (walks.flatMap fun w => w.1) v = some (walks.map fun w => (s.nodeAt w.2).sym, u) ∧ u.walkHit = true ∧ u.walkCur = s.root := by
  induction walks generalizing v with
  | nil => exact absurd rfl hne
  | cons w walks ih =>
    have hw := h w List.mem_cons_self
    have hb : w.1 ≠ [] := by
      intro e
      have p := hw.1; rw [e] at p
      have l := hw.2
      rw [← (show s.root = w.2 from p), hr] at l; cases l
    obtain ⟨v', g1, g2, g3, g4, g5, g6, g7⟩ := walkRun_path ht hr (more := walks.flatMap fun w => w.1) hw.1 hw.2 hb v hv
    rw [List.flatMap_cons, g7]
    cases walks with
    | nil => exact ⟨v', rfl, g6, g5⟩
    | cons w2 walks =>
      obtain ⟨u, k1, k2, k3⟩ := ih (fun w' h' => h w' (List.mem_cons_of_mem _ h')) (by simp) v' ⟨g1, g2, g3, g4, g5⟩
      rw [k1]
      exact ⟨u, rfl, k2, k3⟩

end Sys2Proof.Machine
end

