-- ==== Sys2Proof/Laws/Memory.lean ====
section
/-! SUPPORT. The form of the internal memories: reset has it and every operation keeps it (R34, R38-R41, R45). -/

namespace Sys2Proof.Machine

/-- What the form of the internal memories says. -/
theorem memory_wf_iff (s : State) : Memory.wf s = true ↔
    s.text.length ≤ 4096 ∧ s.out.length ≤ 4096 ∧ s.bits.length ≤ 32768 ∧ s.nodes.length ≤ 255 ∧ s.bitPos.toNat ≤ 32768 ∧
      ∀ x : Sym, ((s.codeAt x).present = true ∨ (s.codeAt x).len = 0) ∧ (s.codeAt x).path >>> (s.codeAt x).len.toNat = 0 := by
  have : Memory.wf s = true ↔ (((((s.text.length ≤ 4096 ∧ s.out.length ≤ 4096) ∧ s.bits.length ≤ 32768) ∧ s.nodes.length ≤ 255) ∧ s.bitPos.toNat ≤ 32768) ∧
      ∀ x ∈ allSyms, ((s.codeAt x).present = true ∨ (s.codeAt x).len = 0) ∧ (s.codeAt x).path >>> (s.codeAt x).len.toNat = 0) := by
    simp only [Memory.wf, Config.textCap, Config.bitCap, Config.nodeCap, Bool.and_eq_true, decide_eq_true_eq, List.all_eq_true, Bool.or_eq_true]
  rw [this]
  constructor
  · rintro ⟨⟨⟨⟨⟨a, b⟩, c⟩, d⟩, e⟩, f⟩; exact ⟨a, b, c, d, e, fun x => f x (mem_allSyms x)⟩
  · rintro ⟨a, b, c, d, e, f⟩; exact ⟨⟨⟨⟨⟨a, b⟩, c⟩, d⟩, e⟩, fun x _ => f x⟩

/-- The memories alone make their form. -/
theorem memory_congr {s t : State} (h : Memory.wf s = true) (h1 : t.text = s.text) (h2 : t.out = s.out) (h3 : t.bits = s.bits) (h4 : t.nodes = s.nodes)
    (h5 : t.bitPos = s.bitPos) (h6 : t.code = s.code) : Memory.wf t = true := by
  have e : ∀ x, t.codeAt x = s.codeAt x := fun x => by simp only [State.codeAt, h6]
  rw [memory_wf_iff] at h ⊢
  rw [h1, h2, h3, h4, h5]; simp only [e]; exact h

/-- The memories are in form after reset. -/
theorem memory_wf_reset : Memory.wf State.reset = true := by
  rw [memory_wf_iff]
  exact ⟨Nat.zero_le _, Nat.zero_le _, Nat.zero_le _, Nat.zero_le _, by simp [State.reset], fun x => by simp [State.codeAt, State.reset]⟩

section
variable {s : State} (h : Memory.wf s = true)
include h

/-- Appending a symbol to a TEXT that is not full. -/
theorem memory_wf_appendSym (x : Sym) (hl : s.text.length ≠ 4096) : Memory.wf (s.appendSym x) = true := by
  obtain ⟨a, b, c, d, e, f⟩ := (memory_wf_iff s).1 h
  rw [memory_wf_iff]
  exact ⟨by simp only [State.appendSym_text, List.length_append, List.length_singleton]; omega, b, c, d, e, f⟩

/-- Counting a symbol. -/
theorem memory_wf_countSym (x : Sym) : Memory.wf (s.countSym x) = true := memory_congr h rfl rfl rfl rfl rfl rfl

/-- Emptying TEXT. -/
theorem memory_wf_clearText : Memory.wf s.clearText = true := by
  obtain ⟨a, b, c, d, e, f⟩ := (memory_wf_iff s).1 h
  exact (memory_wf_iff _).2 ⟨Nat.zero_le _, b, c, d, e, f⟩

/-- Appending a bit to BITS that are not full. -/
theorem memory_wf_appendBit (y : Bool) (hl : s.bits.length ≠ 32768) : Memory.wf (s.appendBit y) = true := by
  obtain ⟨a, b, c, d, e, f⟩ := (memory_wf_iff s).1 h
  rw [memory_wf_iff]
  exact ⟨a, b, by simp only [State.appendBit_bits, List.length_append, List.length_singleton]; omega, d, e, f⟩

/-- Emptying BITS. -/
theorem memory_wf_clearBits : Memory.wf s.clearBits = true := by
  obtain ⟨a, b, c, d, e, f⟩ := (memory_wf_iff s).1 h
  exact (memory_wf_iff _).2 ⟨a, b, Nat.zero_le _, d, Nat.zero_le _, f⟩

/-- Replacing BITS by a sequence that fits. -/
theorem memory_wf_setBits (seq : List Bool) (hl : seq.length ≤ 32768) : Memory.wf (s.setBits seq) = true := by
  obtain ⟨a, b, c, d, e, f⟩ := (memory_wf_iff s).1 h
  exact (memory_wf_iff _).2 ⟨a, b, hl, d, Nat.zero_le _, f⟩

/-- Replacing OUT by symbols that fit, with a bit count that fits. -/
theorem memory_wf_setOut (o : List Sym) (p : Nat) (ho : o.length ≤ 4096) (hp : p ≤ 32768) : Memory.wf (s.setOut o p) = true := by
  obtain ⟨a, b, c, d, e, f⟩ := (memory_wf_iff s).1 h
  rw [memory_wf_iff]
  exact ⟨a, ho, c, d, by rw [State.setOut_bitPos, BitVec.toNat_ofNat]; omega, f⟩

/-- Emptying OUT. -/
theorem memory_wf_clearOut : Memory.wf s.clearOut = true := by
  obtain ⟨a, b, c, d, e, f⟩ := (memory_wf_iff s).1 h
  exact (memory_wf_iff _).2 ⟨a, Nat.zero_le _, c, d, e, f⟩

/-- A new tree that fits the arena. -/
theorem memory_wf_setTree (arena : List Node) (rt : Slot) (hl : arena.length ≤ 255) : Memory.wf (s.setTree arena rt) = true := by
  obtain ⟨a, b, c, d, e, f⟩ := (memory_wf_iff s).1 h
  exact (memory_wf_iff _).2 ⟨a, b, c, hl, e, f⟩

/-- No tree. -/
theorem memory_wf_dropTree : Memory.wf s.dropTree = true := by
  obtain ⟨a, b, c, d, e, f⟩ := (memory_wf_iff s).1 h
  exact (memory_wf_iff _).2 ⟨a, b, c, Nat.zero_le _, e, f⟩

/-- A code ROM of canonical entries. -/
theorem memory_wf_setCodes (rom : Vector CodeEntry 128)
    (hc : ∀ x : Sym, ((rom[x.toNat]'x.isLt).present = true ∨ (rom[x.toNat]'x.isLt).len = 0) ∧
      (rom[x.toNat]'x.isLt).path >>> (rom[x.toNat]'x.isLt).len.toNat = 0) : Memory.wf (s.setCodes rom) = true := by
  obtain ⟨a, b, c, d, e, f⟩ := (memory_wf_iff s).1 h
  exact (memory_wf_iff _).2 ⟨a, b, c, d, e, hc⟩

/-- Every code absent. -/
theorem memory_wf_dropCodes : Memory.wf s.dropCodes = true := by
  obtain ⟨a, b, c, d, e, f⟩ := (memory_wf_iff s).1 h
  exact (memory_wf_iff _).2 ⟨a, b, c, d, e, fun x => by simp [State.codeAt, emptyCode]⟩

/-- The lookup result, the walk register, acceptance and completion touch no memory. -/
theorem memory_wf_registers (len : BitVec 8) (path : Path) (cur : Slot) (hit used : Bool) (x : Sym) (v info : Word) (code : ErrCode) :
    Memory.wf (s.setRes len path) = true ∧ Memory.wf (s.setWalk cur hit used x) = true ∧ Memory.wf (s.accept v) = true ∧
      Memory.wf s.overrun = true ∧ Memory.wf s.completeOk = true ∧ Memory.wf (s.completeErr code info) = true :=
  ⟨memory_congr h rfl rfl rfl rfl rfl rfl, memory_congr h rfl rfl rfl rfl rfl rfl, memory_congr h rfl rfl rfl rfl rfl rfl,
    memory_congr h rfl rfl rfl rfl rfl rfl, memory_congr h rfl rfl rfl rfl rfl rfl, memory_congr h rfl rfl rfl rfl rfl rfl⟩

/-- Host accesses touch no memory. -/
theorem memory_wf_hostRead (a : Offset) (size : Nat) : Memory.wf (hostRead s a size) = true := by
  unfold hostRead
  split
  · exact memory_congr h rfl rfl rfl rfl rfl rfl
  · split <;> exact memory_congr h rfl rfl rfl rfl rfl rfl

/-- Host accesses touch no memory. -/
theorem memory_wf_hostWrite (a : Offset) (size : Nat) (strobes : BitVec 4) (v : Word) :
    Memory.wf (hostWrite s a size strobes v) = true := by
  unfold hostWrite
  split
  · split
    · exact memory_congr h rfl rfl rfl rfl rfl rfl
    · rename_i l _
      cases l <;> simp only [writeLoc] <;> (try split) <;> exact memory_congr h rfl rfl rfl rfl rfl rfl
  · exact memory_congr h rfl rfl rfl rfl rfl rfl

end

end Sys2Proof.Machine
end

