-- ==== Sys2Proof/Laws/Invariant.lean ====
section
/-! SUPPORT. The parts of the invariant: what they depend on, and that every command keeps them. -/

namespace Sys2Proof.Machine

/-- An error leaves flags that agree. -/
theorem statusOk_completeErr {s : State} {e : ErrCode} {info : Word} (he : e ≠ .none) : (s.completeErr e info).StatusOk :=
  ⟨by simp, by simpa using he, by simp, by simp⟩

/-- A success leaves flags that agree. -/
theorem statusOk_completeOk {s : State} : s.completeOk.StatusOk := ⟨by simp, by simp, by simp, by simp⟩

/-- Flags that stay agree as before. -/
theorem fresh_status {s t : State} (S : s.StatusOk) (hb : t.busy = s.busy) (hd : t.done = s.done) (he : t.err = s.err) (hc : t.errCode = s.errCode) (hi : t.errInfo = s.errInfo)
    (hf : s = { State.reset with agenda := s.agenda, reply := s.reply, draws := s.draws } → t = { State.reset with agenda := t.agenda, reply := t.reply, draws := t.draws }) : t.StatusOk :=
  ⟨by rw [hb, hd, he, hc, hi]; exact S.busyClear, by rw [he, hc]; exact S.errIff, by rw [he, hi]; exact S.infoZero, by rw [hb, hd]; exact fun h h' => hf (S.fresh h h')⟩

/-- The buffers alone make them agree. -/
theorem buffersOk_congr {s t : State} (B : s.BuffersOk) (h1 : t.text = s.text) (h2 : t.freq = s.freq) (h3 : t.bits = s.bits) (h4 : t.bitPos = s.bitPos) : t.BuffersOk :=
  ⟨by rw [h1]; exact B.textCap, by rw [h3]; exact B.bitCap, by rw [h3, h4]; exact B.bitPos, fun x => by
    have := B.freqCounts x
    rw [h1]; rw [← this]; simp only [State.freqAt, h2]⟩

/-- The buffers agree after reset. -/
theorem buffersOk_reset (a : List Event) (n : Nat) : ({ State.reset with agenda := a, draws := n } : State).BuffersOk :=
  ⟨Nat.zero_le _, Nat.zero_le _, Nat.le_refl _, fun x => by simp [State.reset, State.freqAt]⟩

/-- Every command keeps R37 and the capacities. -/
theorem exec_keeps_buffers {i : Instr} {s t : State} (B : s.BuffersOk) (h : exec i s = .next t) : t.BuffersOk := by
  have err : ∀ c info, (s.completeErr c info).BuffersOk := fun c info => buffersOk_congr B rfl rfl rfl rfl
  have cap := B.bitCap
  have bcap : s.bits.length ≤ 32768 := B.bitCap
  cases i with
  | nop => obtain rfl := succeed_next.1 h; exact buffersOk_congr B rfl rfl rfl rfl
  | clear =>
    obtain rfl := succeed_next.1 h
    exact ⟨Nat.zero_le _, Nat.zero_le _, Nat.le_refl _, fun x => by simp [State.freqAt]⟩
  | clrtxt =>
    obtain rfl := succeed_next.1 h
    exact ⟨Nat.zero_le _, B.bitCap, B.bitPos, fun x => by simp [State.freqAt]⟩
  | clrbits =>
    obtain rfl := succeed_next.1 h
    exact ⟨B.textCap, Nat.zero_le _, Nat.le_refl _, B.freqCounts⟩
  | pushs x =>
    rcases execPushs_cases h with ⟨-, rfl⟩ | ⟨-, -, rfl⟩ | ⟨hx, hl, rfl⟩
    · exact err _ _
    · exact err _ _
    · have hc : s.text.length ≤ 4096 := B.textCap
      refine ⟨?_, B.bitCap, B.bitPos, fun y => ?_⟩
      · show (s.text ++ [symbolOf x]).length ≤ 4096
        simp; omega
      · have e : (((s.countSym (symbolOf x)).appendSym (symbolOf x)).completeOk).freqAt y = if (symbolOf x) = y then s.freqAt y + 1 else s.freqAt y := by
          show (s.freq.set (symbolOf x).toNat (s.freqAt (symbolOf x) + 1) (symbolOf x).isLt)[y.toNat]'y.isLt = _
          rw [Vector.getElem_set]
          by_cases hy : symbolOf x = y
          · subst hy; simp
          · rw [if_neg hy, if_neg fun e => hy (BitVec.eq_of_toNat_eq e)]; rfl
        rw [e]
        show _ = (s.text ++ [symbolOf x]).count y
        have := B.freqCounts y
        have hcl : s.text.count y ≤ s.text.length := List.count_le_length
        rw [List.count_append, List.count_singleton]
        by_cases hy : symbolOf x = y
        · rw [if_pos hy, if_pos (by simpa using hy), BitVec.toNat_add, this]
          simp; omega
        · rw [if_neg hy, if_neg (by simpa using hy), this]; rfl
  | pushb b =>
    rcases execPushb_cases h with ⟨-, rfl⟩ | ⟨hl, rfl⟩
    · exact err _ _
    · have := B.bitPos
      refine ⟨B.textCap, ?_, ?_, B.freqCounts⟩
      · show (s.bits ++ [b]).length ≤ 32768
        simp; omega
      · show s.bitPos.toNat ≤ (s.bits ++ [b]).length
        simp; omega
  | build =>
    rcases execBuild_cases h with ⟨-, rfl⟩ | ⟨-, rfl⟩
    · exact err _ _
    · exact buffersOk_congr B rfl rfl rfl rfl
  | gencode =>
    rcases execGencode_cases h with ⟨-, rfl⟩ | ⟨-, _, -, rfl⟩
    · exact err _ _
    · exact buffersOk_congr B rfl rfl rfl rfl
  | lookup x =>
    rcases execLookup_cases h with ⟨-, rfl⟩ | ⟨-, -, rfl⟩ | ⟨-, -, -, rfl⟩ | ⟨-, -, -, -, rfl⟩ | ⟨-, -, -, -, rfl⟩
    all_goals exact buffersOk_congr B rfl rfl rfl rfl
  | encode =>
    rcases execEncode_cases h with ⟨-, rfl⟩ | ⟨-, -, rfl⟩ | ⟨-, -, -, rfl⟩ | ⟨-, -, -, _, -, rfl⟩ | ⟨-, -, -, -, -, rfl⟩ | ⟨-, -, -, -, hl, rfl⟩
    all_goals try exact err _ _
    refine ⟨B.textCap, ?_, Nat.zero_le _, B.freqCounts⟩
    show (encodedBits s).length ≤ 32768
    rw [encodedBits_length]; exact hl
  | decode =>
    rcases execDecode_cases h with ⟨-, rfl⟩ | ⟨-, -, rfl⟩ | ⟨-, -, _, -, rfl⟩ | ⟨-, -, _, rest, -, rfl⟩
    · exact err _ _
    · exact ⟨B.textCap, B.bitCap, Nat.zero_le _, B.freqCounts⟩
    · exact err _ _
    · refine ⟨B.textCap, B.bitCap, ?_, B.freqCounts⟩
      show (BitVec.ofNat 16 (s.bits.length - rest.length)).toNat ≤ s.bits.length
      rw [BitVec.toNat_ofNat]
      exact (Nat.mod_le _ _).trans (Nat.sub_le _ _)
  | walk b =>
    rcases execWalk_cases h with ⟨-, rfl⟩ | ⟨-, -, rfl⟩ | ⟨-, -, -, rfl⟩ | ⟨-, -, -, rfl⟩
    all_goals exact buffersOk_congr B rfl rfl rfl rfl
  | wrst =>
    rcases execWrst_cases h with ⟨-, rfl⟩ | ⟨-, rfl⟩
    all_goals exact buffersOk_congr B rfl rfl rfl rfl

/-! ### The tree part -/

/-- The tree part of the invariant follows the tree, the codes and the walk register. -/
theorem treeStateOk_congr {s t : State} (I : s.TreeStateOk) (h1 : t.treeValid = s.treeValid) (h2 : t.nodes = s.nodes) (h3 : t.root = s.root)
    (h4 : t.codesValid = s.codesValid) (h5 : t.code = s.code) (h6 : t.walkCur = s.walkCur) (h7 : t.walkHit = s.walkHit)
    (h8 : t.walkUsed = s.walkUsed) (h9 : t.walkSym = s.walkSym) (hm : Memory.wf t = true) : t.TreeStateOk := by
  refine ⟨fun h => ?_, fun h => ?_, fun h x => ?_, fun h => ?_, fun h => ?_, hm⟩
  · exact treeOk_congr (I.tree (h1 ▸ h)) h2 h3
  · rw [h2, h3, h4, h6, h7, h8, h9]; exact I.noTree (h1 ▸ h)
  · rw [h4] at h
    have T := I.tree (treeValid_of_codes I h)
    have e : t.codeAt x = s.codeAt x := by simp only [State.codeAt, h5]
    simp only [codePath_congr T h2 h3, e]
    exact I.codes h x
  · rw [h1] at h
    have T := I.tree h
    have e := I.walkCur h
    rw [h3, h6, h2, nodeAt_congr h2 T.root_lt]
    split at e
    · rw [if_pos ‹_›]; exact e
    · rw [if_neg ‹_›, nodeAt_congr h2 e.1]; exact e
  · rw [h9]; exact I.walkSym (h7 ▸ h)

/-- No tree: nothing to agree with. -/
theorem treeState_noTree {t : State} (h1 : t.treeValid = false) (h2 : t.nodes = []) (h3 : t.root = 0) (h4 : t.codesValid = false)
    (h6 : t.walkCur = 0) (h7 : t.walkHit = false) (h8 : t.walkUsed = false) (h9 : t.walkSym = 0) (hm : Memory.wf t = true) : t.TreeStateOk :=
  ⟨fun h => absurd (h1.symm.trans h) (by decide), fun _ => ⟨h2, h3, h4, h6, h7, h8, h9⟩, fun h => absurd (h4.symm.trans h) (by decide), fun h => absurd (h1.symm.trans h) (by decide), fun _ => h9, hm⟩

/-- A legal walk register keeps the tree part of the invariant (R48). -/
theorem treeStateOk_setWalk {s : State} (I : s.TreeStateOk) (ht : s.treeValid = true) {cur : Slot} {hit used : Bool} {x : Sym}
    (hc : if (s.nodeAt s.root).leaf then cur = s.root else cur.toNat < s.nodes.length ∧ (s.nodeAt cur).leaf = false)
    (hs : hit = false → x = 0) : ((s.setWalk cur hit used x).completeOk).TreeStateOk := by
  have T := I.tree ht
  refine ⟨fun _ => treeOk_congr T rfl rfl, fun h => absurd (ht.symm.trans h) (by decide), fun h y => ?_, fun _ => hc, hs,
    memory_congr I.memory rfl rfl rfl rfl rfl rfl⟩
  have cp : ∀ bs, ((s.setWalk cur hit used x).completeOk).CodePath bs y ↔ s.CodePath bs y := fun bs => codePath_congr (s := s) (t := (s.setWalk cur hit used x).completeOk) T rfl rfl
  obtain ⟨a, b⟩ := I.codes h y
  exact ⟨fun bs p => a bs ((cp bs).1 p), fun hn => b fun bs p => hn bs ((cp bs).2 p)⟩

/-- A path with no bit from n on. -/
theorem shift_zero {p : Path} {n : Nat} (h : ∀ d, n ≤ d → p.getLsbD d = false) : p >>> n = 0 := by
  apply BitVec.eq_of_getLsbD_eq
  intro j _
  rw [BitVec.getLsbD_ushiftRight, h _ (by omega)]; simp

/-- Every command keeps the tree part of the invariant. -/
theorem exec_keeps_tree {i : Instr} {s t : State} (B : s.BuffersOk) (I : s.TreeStateOk) (h : exec i s = .next t) : t.TreeStateOk := by
  have Bt := exec_keeps_buffers B h
  have err : ∀ c info, (s.completeErr c info).TreeStateOk := fun c info =>
    treeStateOk_congr I rfl rfl rfl rfl rfl rfl rfl rfl rfl (memory_congr I.memory rfl rfl rfl rfl rfl rfl)
  have M := (memory_wf_iff s).1 I.memory
  obtain ⟨m1, m2, m3, m4, m5, m6⟩ := M
  have keep : ∀ {t : State}, t.treeValid = s.treeValid → t.nodes = s.nodes → t.root = s.root → t.codesValid = s.codesValid → t.code = s.code →
      t.walkCur = s.walkCur → t.walkHit = s.walkHit → t.walkUsed = s.walkUsed → t.walkSym = s.walkSym → t.text.length ≤ 4096 → t.out.length ≤ 4096 →
      t.bits.length ≤ 32768 → t.bitPos.toNat ≤ t.bits.length → t.TreeStateOk := by
    intro t a1 a2 a3 a4 a5 a6 a7 a8 a9 b1 b2 b3 b4
    refine treeStateOk_congr I a1 a2 a3 a4 a5 a6 a7 a8 a9 ?_
    rw [memory_wf_iff]
    have e : ∀ x, t.codeAt x = s.codeAt x := fun x => by simp only [State.codeAt, a5]
    simp only [e, a2]
    exact ⟨b1, b2, b3, m4, by omega, m6⟩
  have bt1 : t.text.length ≤ 4096 := Bt.textCap
  have bt2 : t.bits.length ≤ 32768 := Bt.bitCap
  have bt3 := Bt.bitPos
  cases i with
  | nop => obtain rfl := succeed_next.1 h; exact keep rfl rfl rfl rfl rfl rfl rfl rfl rfl bt1 m2 bt2 bt3
  | clear =>
    obtain rfl := succeed_next.1 h
    refine treeState_noTree rfl rfl rfl rfl rfl rfl rfl rfl ?_
    rw [memory_wf_iff]
    refine ⟨bt1, Nat.zero_le _, bt2, Nat.zero_le _, by simp, fun x => ?_⟩
    simp [State.codeAt, emptyCode]
  | clrtxt => obtain rfl := succeed_next.1 h; exact keep rfl rfl rfl rfl rfl rfl rfl rfl rfl bt1 m2 bt2 bt3
  | clrbits => obtain rfl := succeed_next.1 h; exact keep rfl rfl rfl rfl rfl rfl rfl rfl rfl bt1 m2 bt2 bt3
  | pushs x =>
    rcases execPushs_cases h with ⟨-, rfl⟩ | ⟨-, -, rfl⟩ | ⟨hx, hl, rfl⟩
    all_goals exact keep rfl rfl rfl rfl rfl rfl rfl rfl rfl bt1 m2 bt2 bt3
  | pushb b =>
    rcases execPushb_cases h with ⟨-, rfl⟩ | ⟨hl, rfl⟩
    all_goals exact keep rfl rfl rfl rfl rfl rfl rfl rfl rfl bt1 m2 bt2 bt3
  | build =>
    rcases execBuild_cases h with ⟨-, rfl⟩ | ⟨ht, rfl⟩
    · exact err _ _
    · obtain ⟨T, -, -, -, -⟩ := treeOk_built (t := (s.setTree (builtArena s) (builtRoot (builtArena s))).completeOk) B ht rfl rfl
      refine ⟨fun _ => T, (nomatch ·), (nomatch ·), fun _ => ?_, fun _ => rfl, ?_⟩
      · split
        · rfl
        · exact ⟨T.root_lt, Bool.eq_false_of_not_eq_true ‹_›⟩
      · rw [memory_wf_iff]
        exact ⟨bt1, m2, bt2, T.countCap, by omega, m6⟩
  | gencode =>
    rcases execGencode_cases h with ⟨-, rfl⟩ | ⟨ht, rom, hr, rfl⟩
    · exact err _ _
    · have T := I.tree ht
      obtain ⟨rom', h1, h2, h3⟩ := generatedCode_spec T
      obtain rfl : rom' = rom := by rw [hr] at h1; exact (Option.some.inj h1).symm
      have T' : ((s.setCodes rom').completeOk).TreeOk := treeOk_congr T rfl rfl
      have cp : ∀ {bs x}, ((s.setCodes rom').completeOk).CodePath bs x ↔ s.CodePath bs x := fun {_ _} => codePath_congr (s := s) (t := (s.setCodes rom').completeOk) T rfl rfl
      refine ⟨fun _ => T', fun h => ?_, fun _ x => ?_, fun _ => I.walkCur ht, I.walkSym, ?_⟩
      · rw [show s.treeValid = false from h] at ht; cases ht
      · exact ⟨fun bs p => h2 bs x (cp.1 p), fun hn => h3 x fun bs p => hn bs (cp.2 p)⟩
      · rw [memory_wf_iff]
        refine ⟨bt1, m2, bt2, m4, by omega, fun x => ?_⟩
        show ((rom'[x.toNat]'x.isLt).present = true ∨ (rom'[x.toNat]'x.isLt).len = 0) ∧ (rom'[x.toNat]'x.isLt).path >>> (rom'[x.toNat]'x.isLt).len.toNat = 0
        by_cases hp : ∃ bs, s.CodePath bs x
        · obtain ⟨bs, p⟩ := hp
          obtain ⟨k1, k2, k3⟩ := h2 bs x p
          refine ⟨.inl k1, shift_zero fun d hd => ?_⟩
          rw [k3, List.getElem?_eq_none (by omega)]; rfl
        · rw [h3 x (not_exists.1 hp)]; exact ⟨.inr rfl, by simp⟩
  | lookup x =>
    rcases execLookup_cases h with ⟨-, rfl⟩ | ⟨-, -, rfl⟩ | ⟨-, -, -, rfl⟩ | ⟨-, -, -, -, rfl⟩ | ⟨-, -, -, -, rfl⟩
    all_goals exact keep rfl rfl rfl rfl rfl rfl rfl rfl rfl bt1 m2 bt2 bt3
  | encode =>
    rcases execEncode_cases h with ⟨-, rfl⟩ | ⟨-, -, rfl⟩ | ⟨-, -, -, rfl⟩ | ⟨-, -, -, _, -, rfl⟩ | ⟨-, -, -, -, -, rfl⟩ | ⟨-, -, -, -, hl, rfl⟩
    all_goals exact keep rfl rfl rfl rfl rfl rfl rfl rfl rfl bt1 m2 bt2 bt3
  | decode =>
    have cap : s.treeValid = true → symbolCount s ≤ 4096 := by
      intro ht
      have T := I.tree ht
      exact (T.weightRange _ (List.mem_of_getElem? (T.get s.root T.root_lt))).2
    rcases execDecode_cases h with ⟨-, rfl⟩ | ⟨ht, -, rfl⟩ | ⟨-, -, _, -, rfl⟩ | ⟨ht, -, o, rest, hw, rfl⟩
    · exact err _ _
    · refine keep rfl rfl rfl rfl rfl rfl rfl rfl rfl bt1 ?_ bt2 bt3
      show (List.replicate _ _).length ≤ _
      rw [List.length_replicate]; exact cap ht
    · exact err _ _
    · refine keep rfl rfl rfl rfl rfl rfl rfl rfl rfl bt1 ?_ bt2 bt3
      show o.length ≤ _
      rw [walkSymbols_length hw]; exact cap ht
  | walk b =>
    rcases execWalk_cases h with ⟨-, rfl⟩ | ⟨ht, hr, rfl⟩ | ⟨ht, hr, hl, rfl⟩ | ⟨ht, hr, hl, rfl⟩
    · exact err _ _
    · exact treeStateOk_setWalk I ht (by rw [if_pos hr]) (by simp)
    · exact treeStateOk_setWalk I ht (by rw [if_neg (by simp [hr])]; exact ⟨(I.tree ht).root_lt, hr⟩) (by simp)
    · have w := I.walkCur ht
      rw [hr] at w
      have := (I.tree ht).child_lt s.walkCur w.1 w.2 b
      have hw := w.1
      exact treeStateOk_setWalk I ht (by rw [if_neg (by simp [hr])]; exact ⟨by omega, hl⟩) (by simp)
  | wrst =>
    rcases execWrst_cases h with ⟨-, rfl⟩ | ⟨ht, rfl⟩
    · exact err _ _
    · refine treeStateOk_setWalk I ht ?_ (by simp)
      split
      · rfl
      · exact ⟨(I.tree ht).root_lt, Bool.eq_false_of_not_eq_true ‹_›⟩

/-- In a good state every command answers a next state. -/
theorem exec_total {s : State} (I : s.TreeStateOk) (i : Instr) : ∃ t, exec i s = .next t := by
  cases i with
  | nop => exact ⟨_, rfl⟩
  | clear => exact ⟨_, rfl⟩
  | clrtxt => exact ⟨_, rfl⟩
  | clrbits => exact ⟨_, rfl⟩
  | pushs x => show ∃ t, execPushs x s = _; unfold execPushs; split_ifs <;> exact ⟨_, rfl⟩
  | pushb b => show ∃ t, execPushb b s = _; unfold execPushb; split_ifs <;> exact ⟨_, rfl⟩
  | build => show ∃ t, execBuild s = _; unfold execBuild; split_ifs <;> exact ⟨_, rfl⟩
  | gencode =>
    show ∃ t, execGencode s = _
    by_cases ht : s.treeValid = true
    · obtain ⟨rom, h, -⟩ := generatedCode_spec (I.tree ht)
      exact ⟨_, exec_gencode_ok ht h⟩
    · rw [execGencode, if_pos (by simpa using ht)]; exact ⟨_, rfl⟩
  | lookup x => show ∃ t, execLookup x s = _; unfold execLookup; split_ifs <;> exact ⟨_, rfl⟩
  | encode => show ∃ t, execEncode s = _; unfold execEncode; repeat' split
              all_goals exact ⟨_, rfl⟩
  | decode => show ∃ t, execDecode s = _; unfold execDecode; repeat' split
              all_goals exact ⟨_, rfl⟩
  | walk b => show ∃ t, execWalk b s = _; unfold execWalk; split_ifs <;> exact ⟨_, rfl⟩
  | wrst => show ∃ t, execWrst s = _; unfold execWrst; split_ifs <;> exact ⟨_, rfl⟩

end Sys2Proof.Machine
end

