-- ==== Sys2Proof/Laws/Optimality.lean ====
section
/-! SUPPORT. Greedy merging is optimal (R140), and the sums of R157. -/

namespace Sys2Proof.Machine

/-! ### Depths that fit in a binary tree -/

/-- Σ 2^(N − depth). -/
def kraftSum (N : Nat) (ds : List Nat) : Nat := (ds.map fun d => 2 ^ (N - d)).sum

/-- Depths that fit in a binary tree. -/
def Kraft (ds : List Nat) : Prop := ∃ N, (∀ d ∈ ds, d ≤ N) ∧ kraftSum N ds ≤ 2 ^ N

/-- One level deeper doubles every term. -/
theorem kraftSum_shift (N k : Nat) (ds : List Nat) (h : ∀ d ∈ ds, d ≤ N) : kraftSum (N + k) ds = 2 ^ k * kraftSum N ds := by
  induction ds with
  | nil => simp [kraftSum]
  | cons d ds ih =>
    have ih := ih fun d' h' => h d' (List.mem_cons_of_mem _ h')
    have hd := h d List.mem_cons_self
    simp only [kraftSum, List.map_cons, List.sum_cons] at ih ⊢
    rw [ih, Nat.mul_add, ← Nat.pow_add]; congr 2; omega

/-- The bound at the greatest depth. -/
theorem Kraft.at_max {ds : List Nat} (h : Kraft ds) {M : Nat} (hM : ∀ d ∈ ds, d ≤ M) (hm : M ∈ ds) : kraftSum M ds ≤ 2 ^ M := by
  obtain ⟨N, h1, h2⟩ := h
  obtain ⟨k, rfl⟩ : ∃ k, N = M + k := ⟨N - M, by have := h1 M hm; omega⟩
  rw [kraftSum_shift M k ds hM, Nat.pow_add, Nat.mul_comm (2 ^ M)] at h2
  exact Nat.le_of_mul_le_mul_left h2 (by positivity)

/-- The order of the depths does not matter. -/
theorem kraftSum_perm {N : Nat} {a b : List Nat} (h : a.Perm b) : kraftSum N a = kraftSum N b := (h.map _).sum_eq

/-- The order of the depths does not matter. -/
theorem Kraft.perm {a b : List Nat} (h : a.Perm b) (k : Kraft a) : Kraft b := by
  obtain ⟨N, h1, h2⟩ := k
  exact ⟨N, fun d hd => h1 d (h.mem_iff.2 hd), by rw [← kraftSum_perm h]; exact h2⟩

/-! ### Costs -/

/-- A leaf: its weight and its depth. -/
abbrev Leaf := Nat × Nat

/-- Σ depth × weight. -/
def leafCost (P : List Leaf) : Nat := (P.map fun p => p.2 * p.1).sum

/-- The order of the leaves does not matter. -/
theorem leafCost_perm {P Q : List Leaf} (h : P.Perm Q) : leafCost P = leafCost Q := (h.map _).sum_eq

/-- Some leaf is the deepest. -/
theorem exists_max (P : List Leaf) (h : P ≠ []) : ∃ x D R, P.Perm ((x, D) :: R) ∧ ∀ p ∈ R, p.2 ≤ D := by
  induction P with
  | nil => exact absurd rfl h
  | cons p P ih =>
    by_cases hP : P = []
    · subst hP; exact ⟨p.1, p.2, [], List.Perm.refl _, by simp⟩
    · obtain ⟨x, D, R, h1, h2⟩ := ih hP
      by_cases hd : p.2 ≤ D
      · refine ⟨x, D, p :: R, (h1.cons p).trans (List.Perm.swap _ _ _), fun q hq => ?_⟩
        rcases List.mem_cons.1 hq with rfl | hq
        · exact hd
        · exact h2 q hq
      · refine ⟨p.1, p.2, (x, D) :: R, h1.cons p, fun q hq => ?_⟩
        rcases List.mem_cons.1 hq with rfl | hq
        · simp only []; omega
        · have := h2 q hq; omega

/-- Give the least weight the greatest depth: the cost does not grow. -/
theorem extract_least (P : List Leaf) (a : Nat) (ha : a ∈ P.map (·.1)) (hle : ∀ x ∈ P.map (·.1), a ≤ x) :
    ∃ (D : Nat) (R : List Leaf), (P.map (·.1)).Perm (a :: R.map (·.1)) ∧ (P.map (·.2)).Perm (D :: R.map (·.2)) ∧ (∀ d ∈ R.map (·.2), d ≤ D) ∧
      D * a + leafCost R ≤ leafCost P := by
  have hne : P ≠ [] := by rintro rfl; simp at ha
  obtain ⟨x, D, R, hp, hD⟩ := exists_max P hne
  have hx : a ≤ x := hle x ((hp.map (·.1)).mem_iff.2 (by simp))
  have hcost : leafCost P = D * x + leafCost R := leafCost_perm hp
  by_cases hax : a = x
  · subst hax
    exact ⟨D, R, hp.map _, hp.map _, by intro d hd; obtain ⟨p, hp', rfl⟩ := List.mem_map.1 hd; exact hD p hp', by rw [hcost]⟩
  · have : a ∈ R.map (·.1) := by
      have := (hp.map (·.1)).mem_iff.1 ha
      simpa [hax] using this
    obtain ⟨⟨a', e⟩, hm, rfl⟩ := List.mem_map.1 this
    obtain ⟨R1, R2, rfl⟩ := List.append_of_mem hm
    have p2 : (R1 ++ (a', e) :: R2).Perm ((a', e) :: (R1 ++ R2)) := List.perm_middle
    have hp' := hp.trans (p2.cons (x, D))
    have he : e ≤ D := hD _ hm
    refine ⟨D, (x, e) :: (R1 ++ R2), ?_, ?_, ?_, ?_⟩
    · exact (hp'.map (·.1)).trans (List.Perm.swap _ _ _)
    · exact hp'.map (·.2)
    · intro d hd
      simp only [List.map_cons, List.mem_cons] at hd
      rcases hd with rfl | hd
      · exact he
      · obtain ⟨p, hp', rfl⟩ := List.mem_map.1 hd
        exact hD p (by simp at hp' ⊢; tauto)
    · rw [hcost, leafCost_perm p2]
      simp only [leafCost, List.map_cons, List.sum_cons]
      obtain ⟨k, rfl⟩ := Nat.exists_eq_add_of_le he
      obtain ⟨m, rfl⟩ := Nat.exists_eq_add_of_le hx
      simp only []
      nlinarith [Nat.zero_le (k * m)]

/-- Merging the two least weights, again and again, with the total of the merged weights. -/
inductive Greedy : List Nat → Nat → Prop
  | one (w : Nat) : Greedy [w] 0
  | merge (W : List Nat) (a b : Nat) (rest : List Nat) (c : Nat) (hp : W.Perm (a :: b :: rest)) (hab : a ≤ b) (hb : ∀ x ∈ rest, b ≤ x)
      (h : Greedy ((a + b) :: rest) c) : Greedy W (c + (a + b))

/-- Huffman's theorem: greedy merging costs at most any leaves that fit in a binary tree (R140). -/
theorem greedy_le {W : List Nat} {c : Nat} (h : Greedy W c) : ∀ P : List Leaf, (P.map (·.1)).Perm W → Kraft (P.map (·.2)) → c ≤ leafCost P := by
  induction h with
  | one w => exact fun _ _ _ => Nat.zero_le _
  | merge W a b rest c hp hab hb h ih =>
    intro P hP hK
    have hw := hP.trans hp
    obtain ⟨D1, R1, f1, d1, le1, c1⟩ := extract_least P a (hw.mem_iff.2 (by simp)) (by
      intro x hx
      have := hw.mem_iff.1 hx
      simp only [List.mem_cons] at this
      rcases this with rfl | rfl | hx
      · omega
      · omega
      · have := hb x hx; omega)
    have hw1 : (R1.map (·.1)).Perm (b :: rest) := List.Perm.cons_inv (f1.symm.trans hw)
    obtain ⟨D2, R, f2, d2, le2, c2⟩ := extract_least R1 b (hw1.mem_iff.2 (by simp)) (by
      intro x hx
      have := hw1.mem_iff.1 hx
      simp only [List.mem_cons] at this
      rcases this with rfl | hx
      · omega
      · exact hb x hx)
    have hw2 : (R.map (·.1)).Perm rest := List.Perm.cons_inv (f2.symm.trans hw1)
    have h12 : D2 ≤ D1 := le1 D2 (d2.mem_iff.2 (by simp))
    have dd : (P.map (·.2)).Perm (D1 :: D2 :: R.map (·.2)) := d1.trans (d2.cons _)
    have k1 := (hK.perm dd).at_max (M := D1) (by
      intro d hd
      simp only [List.mem_cons] at hd
      rcases hd with rfl | rfl | hd
      · omega
      · omega
      · have := le2 d hd; omega) (by simp)
    obtain ⟨k, rfl⟩ := Nat.exists_eq_add_of_le h12
    have e : kraftSum (D2 + k) ((D2 + k) :: D2 :: R.map (·.2)) = 1 + 2 ^ k * (1 + kraftSum D2 (R.map (·.2))) := by
      have := kraftSum_shift D2 k (R.map (·.2)) le2
      simp only [kraftSum, List.map_cons, List.sum_cons] at this ⊢
      rw [this, Nat.sub_self, Nat.add_sub_cancel_left, Nat.pow_zero, Nat.mul_add, Nat.mul_one]
    rw [e, Nat.pow_add, Nat.mul_comm (2 ^ D2)] at k1
    have k2 : 1 + kraftSum D2 (R.map (·.2)) < 2 ^ D2 := Nat.lt_of_mul_lt_mul_left (a := 2 ^ k) (by omega)
    have hD2 : 1 ≤ D2 := by
      rcases Nat.eq_zero_or_pos D2 with h0 | h0
      · rw [h0] at k2; simp at k2
      · exact h0
    have := ih ((a + b, D2 - 1) :: R) (hw2.cons _) ⟨D2, by
        intro d hd
        simp only [List.map_cons, List.mem_cons] at hd
        rcases hd with rfl | hd
        · omega
        · exact le2 d hd, by
        simp only [kraftSum, List.map_cons, List.sum_cons] at k2 ⊢
        rw [show D2 - (D2 - 1) = 1 by omega]; omega⟩
    simp only [leafCost, List.map_cons, List.sum_cons] at this c1 c2 ⊢
    obtain ⟨m, rfl⟩ := Nat.exists_eq_add_of_le' hD2
    simp only [Nat.add_sub_cancel] at this
    nlinarith [Nat.zero_le (k * a)]

/-- The leaves of a tree, its top at depth d. -/
def WeightTree.leafs : WeightTree → Nat → List Leaf
  | .leaf w, d => [(w, d)]
  | .node l r, d => l.leafs (d + 1) ++ r.leafs (d + 1)

/-- Their weights. -/
theorem leafs_fst (T : WeightTree) (d : Nat) : (T.leafs d).map (·.1) = T.weights := by
  induction T generalizing d with
  | leaf w => rfl
  | node l r ihl ihr => simp [WeightTree.leafs, WeightTree.weights, ihl, ihr]

/-- Their cost. -/
theorem leafs_cost (T : WeightTree) (d : Nat) : leafCost (T.leafs d) = T.costAt d := by
  induction T generalizing d with
  | leaf w => simp [WeightTree.leafs, WeightTree.costAt, leafCost]
  | node l r ihl ihr => simp only [WeightTree.leafs, WeightTree.costAt, ← ihl, ← ihr, leafCost, List.map_append, List.sum_append]

/-- They fit in a binary tree. -/
theorem leafs_kraft (T : WeightTree) (d : Nat) : ∃ N, d ≤ N ∧ (∀ e ∈ (T.leafs d).map (·.2), e ≤ N) ∧ kraftSum N ((T.leafs d).map (·.2)) = 2 ^ (N - d) := by
  induction T generalizing d with
  | leaf w => exact ⟨d, Nat.le_refl _, by simp [WeightTree.leafs], by simp [WeightTree.leafs, kraftSum]⟩
  | node l r ihl ihr =>
    obtain ⟨N1, a1, b1, c1⟩ := ihl (d + 1)
    obtain ⟨N2, a2, b2, c2⟩ := ihr (d + 1)
    refine ⟨N1 + N2, by omega, ?_, ?_⟩
    · intro e he
      simp only [WeightTree.leafs, List.map_append, List.mem_append] at he
      rcases he with he | he
      · have := b1 e he; omega
      · have := b2 e he; omega
    · have e1 := kraftSum_shift N1 N2 _ b1
      have e2 := kraftSum_shift N2 N1 _ b2
      rw [c1, ← Nat.pow_add] at e1
      rw [c2, ← Nat.pow_add, Nat.add_comm N2] at e2
      simp only [WeightTree.leafs, List.map_append]
      have : ∀ (N : Nat) (a b : List Nat), kraftSum N (a ++ b) = kraftSum N a + kraftSum N b := by intro N a b; simp [kraftSum]
      rw [this, e1, e2, show N2 + (N1 - (d + 1)) = N1 + N2 - (d + 1) by omega, show N1 + (N2 - (d + 1)) = N1 + N2 - (d + 1) by omega,
        show N1 + N2 - d = N1 + N2 - (d + 1) + 1 by omega, Nat.pow_succ]; omega

/-- Greedy merging costs at most any tree (R140). -/
theorem greedy_optimal {W : List Nat} {c : Nat} (h : Greedy W c) (T : WeightTree) (hT : T.weights.Perm W) : c ≤ T.costAt 0 := by
  obtain ⟨N, -, b, e⟩ := leafs_kraft T 0
  rw [← leafs_cost T 0]
  exact greedy_le h _ (by rw [leafs_fst]; exact hT) ⟨N, b, by rw [e]; simp⟩

/-- Greedy merging of at most 128 weights costs at most 7 for each unit of weight (R157). -/
theorem greedy_seven {W : List Nat} {c : Nat} (h : Greedy W c) (hl : W.length ≤ 128) : c ≤ 7 * W.sum := by
  have := greedy_le h (W.map fun w => (w, 7)) (by simp [Function.comp_def]) ⟨7, by simp, by
    have : kraftSum 7 ((W.map fun w => (w, 7)).map (·.2)) = W.length := by simp [kraftSum, Function.comp_def]
    rw [this]; exact hl⟩
  have e : leafCost (W.map fun w => (w, 7)) = 7 * W.sum := by
    simp only [leafCost, List.map_map, Function.comp_def]
    clear this hl h
    induction W with
    | nil => rfl
    | cons w W ih => rw [List.map_cons, List.sum_cons, ih, List.sum_cons, Nat.mul_add]
  omega

/-! ### BUILD is greedy -/

/-- Σ weight over internal nodes (R157). -/
def internalWeight (A : List Node) : Nat := ((A.filter fun n => !n.leaf).map fun n => n.weight.toNat).sum

/-- A round adds the weight of its node. -/
theorem internalWeight_mergeRound {A : List Node} {lo lo2 : Candidate} (h : leastTwo (candidates A) = some (lo, lo2)) :
    internalWeight (mergeRound A) = internalWeight A + (mergedNode lo lo2).weight.toNat := by
  have mark : ∀ (B : List Node) i, internalWeight (markConsumed B i) = internalWeight B := by
    intro B i
    induction B generalizing i with
    | nil => simp [markConsumed]
    | cons b B ih =>
      cases i with
      | zero => cases hb : b.leaf <;> simp [markConsumed, internalWeight, List.filter_cons, hb]
      | succ i => have := ih i; cases hb : b.leaf <;> simp [markConsumed, internalWeight, List.filter_cons, hb] at * <;> omega
  rw [(mergeRound_candidates h).1]
  have : ∀ B C, internalWeight (B ++ C) = internalWeight B + internalWeight C := by intro B C; simp [internalWeight]
  rw [this, mark, mark]; simp [internalWeight, mergedNode]

/-- The rounds are greedy merges. -/
theorem greedy_mergeRounds (r : Nat) (A : List Node) (hc : (candidates A).length = r + 1) (hW : candidateWeight A < 2 ^ 32) :
    ∃ c, internalWeight (mergeRounds r A) = internalWeight A + c ∧ Greedy ((candidates A).map fun p => p.1.weight.toNat) c := by
  induction r generalizing A with
  | zero =>
    obtain ⟨p, hp⟩ := List.length_eq_one_iff.1 hc
    exact ⟨0, rfl, by rw [hp]; exact Greedy.one _⟩
  | succ r ih =>
    obtain ⟨⟨lo, lo2⟩, hp⟩ := leastTwo_isSome (cs := candidates A) (by omega) (candidates_nodup A)
    obtain ⟨-, rest, hperm, hcand⟩ := mergeRound_candidates hp
    obtain ⟨e1, e2⟩ := candidateWeight_mergeRound hp hW
    have hl := hperm.length_eq
    simp only [List.length_cons] at hl
    obtain ⟨cc, i1, i2⟩ := ih (mergeRound A) (by rw [hcand]; simp; omega) (by rw [e1]; exact hW)
    refine ⟨cc + (lo.1.weight.toNat + lo2.1.weight.toNat), ?_, ?_⟩
    · rw [mergeRounds, i1, internalWeight_mergeRound hp, e2]; omega
    · obtain ⟨l1, l2⟩ := leastTwo_eq_some.1 hp
      obtain ⟨p1, p2, p3, p4, p5, p6, p7⟩ := pair_facts hp
      have inC : ∀ q ∈ lo :: lo2 :: rest, q ∈ candidates A := fun q hq => hperm.mem_iff.2 hq
      have nd : ((lo :: lo2 :: rest).map (·.2)).Nodup := (hperm.map _).nodup_iff.1 (candidates_nodup A)
      refine Greedy.merge _ lo.1.weight.toNat lo2.1.weight.toNat (rest.map fun p => p.1.weight.toNat) cc (hperm.map _) ?_ ?_ ?_
      · have := leastOf_le l1 (inC lo2 (by simp)); omega
      · intro x hx
        obtain ⟨q, hq, rfl⟩ := List.mem_map.1 hx
        have ne : q.2 ≠ lo.2 := by
          simp only [List.map_cons, List.nodup_cons, List.mem_cons, List.mem_map, not_or] at nd
          intro e; exact nd.1.2 ⟨q, hq, e⟩
        have := leastOf_le l2 (List.mem_filter.2 ⟨inC q (by simp [hq]), by simpa using ne⟩)
        omega
      · rw [hcand] at i2
        simp only [List.map_append, List.map_cons, List.map_nil, e2] at i2
        have perm_greedy : ∀ {U V : List Nat} {c : Nat}, U.Perm V → Greedy U c → Greedy V c := by
          intro U V c hUV g
          cases g with
          | one w => rw [← List.singleton_perm.1 hUV]; exact Greedy.one _
          | merge W a b rest c hp hab hb h => exact Greedy.merge _ a b rest c (hUV.symm.trans hp) hab hb h
        exact perm_greedy (List.perm_append_singleton _ _) i2

/-- Leaves have no internal weight. -/
theorem internalWeight_leaves {A : List Node} (h : ∀ n ∈ A, n.leaf = true) : internalWeight A = 0 := by
  have : (A.filter fun n => !n.leaf) = [] := by rw [List.filter_eq_nil_iff]; intro n hn; simp [h n hn]
  simp [internalWeight, this]

/-- BUILD is greedy merging. -/
theorem greedy_built {s : State} (hb : s.BuffersOk) (ht : s.text ≠ []) :
    Greedy (s.usedSyms.map fun x => (s.freqAt x).toNat) (internalWeight (builtArena s)) := by
  have hne := usedSyms_ne_nil hb ht
  have hcap : s.text.length ≤ 4096 := hb.textCap
  have hcl : (candidates (leafArena s)).length = s.usedSyms.length := by rw [candidates_leafArena]; simp [leafArena]
  by_cases h2 : 2 ≤ s.usedSyms.length
  · obtain ⟨cc, h3, h4⟩ := greedy_mergeRounds (s.usedSyms.length - 1) (leafArena s) (by omega) (by rw [(weights_leafArena hb).total]; omega)
    rw [builtArena_two h2, h3, internalWeight_leaves fun n hn => (leafArena_leaf hn).1, Nat.zero_add]
    have : ((candidates (leafArena s)).map fun p => p.1.weight.toNat) = s.usedSyms.map fun x => (s.freqAt x).toNat := by
      rw [candidates_leafArena]
      have : ((leafArena s).zipIdx.map fun c => c.1.weight.toNat) = ((leafArena s).zipIdx.map (·.1)).map fun n => n.weight.toNat := by
        rw [List.map_map]; rfl
      rw [this, List.zipIdx_map_fst, leafArena, List.map_map]; rfl
    rw [← this]; exact h4
  · match hu : s.usedSyms with
    | [] => exact absurd hu hne
    | [x] => rw [builtArena_one hu]; exact Greedy.one _
    | _ :: _ :: _ => rw [hu] at h2; simp at h2

/-! ### Internal weight is depth times weight -/

/-- Slot number i. -/
def slotAt (i : Nat) : Slot := BitVec.ofNat 8 i

/-- A sum over a list by index. -/
theorem list_sum_range {α : Type} (A : List α) (F : α → Nat) : (A.map F).sum = ∑ i ∈ Finset.range A.length, ((A[i]?).map F).getD 0 := by
  induction A with
  | nil => rfl
  | cons a A ih => rw [List.length_cons, Finset.sum_range_succ', List.map_cons, List.sum_cons, ih]; simp [Nat.add_comm]

/-- A sum over some members. -/
theorem filter_sum {α : Type} (A : List α) (p : α → Bool) (F : α → Nat) : ((A.filter p).map F).sum = (A.map fun a => if p a then F a else 0).sum := by
  induction A with
  | nil => rfl
  | cons a A ih => cases h : p a <;> simp [h, ih]

section
variable {s : State} (T : s.TreeOk)
include T

/-- A slot number of the tree. -/
theorem State.TreeOk.slotAt_toNat {i : Nat} (h : i < s.nodes.length) : (slotAt i).toNat = i := by
  have hcap : s.nodes.length ≤ 255 := T.countCap
  simp [slotAt]; omega

/-- The node in slot number i. -/
theorem State.TreeOk.get_slotAt {i : Nat} (h : i < s.nodes.length) : s.nodes[i]? = some (s.nodeAt (slotAt i)) := by
  have := T.get (slotAt i) (by rw [T.slotAt_toNat h]; exact h)
  rwa [T.slotAt_toNat h] at this

/-- Every slot below the root is a child once: a sum over children is a sum over slots. -/
theorem State.TreeOk.kids_sum (f : Nat → Nat) :
    (∑ i ∈ (Finset.range s.nodes.length).filter (fun i => (s.nodeAt (slotAt i)).leaf = false), (f (s.nodeAt (slotAt i)).left.toNat + f (s.nodeAt (slotAt i)).right.toNat)) =
      ∑ j ∈ Finset.range (s.nodes.length - 1), f j := by
  have hn := T.rootLast
  have e1 : ∀ i ∈ (Finset.range s.nodes.length).filter (fun i => (s.nodeAt (slotAt i)).leaf = false),
      f (s.nodeAt (slotAt i)).left.toNat + f (s.nodeAt (slotAt i)).right.toNat =
      ∑ j ∈ Finset.range (s.nodes.length - 1), ((if (s.nodeAt (slotAt i)).left.toNat = j then f j else 0) + (if (s.nodeAt (slotAt i)).right.toNat = j then f j else 0)) := by
    intro i hi
    rw [Finset.mem_filter, Finset.mem_range] at hi
    have lk := T.internalLinks i _ (T.get_slotAt hi.1) hi.2
    rw [Finset.sum_add_distrib, Finset.sum_ite_eq, Finset.sum_ite_eq, if_pos (by rw [Finset.mem_range]; omega), if_pos (by rw [Finset.mem_range]; omega)]
  rw [Finset.sum_congr rfl e1, Finset.sum_comm]
  apply Finset.sum_congr rfl
  intro j hj
  rw [Finset.mem_range] at hj
  obtain ⟨i, n, hi, hl, hc, hu⟩ := T.oneParent j (by omega)
  have hil := (List.getElem?_eq_some_iff.1 hi).1
  have hnode : s.nodeAt (slotAt i) = n := by have := T.get_slotAt hil; rw [hi] at this; exact (Option.some.inj this).symm
  rw [Finset.sum_eq_single i]
  · have lk := T.internalLinks i n hi hl
    have ne : n.left.toNat ≠ n.right.toNat := fun e => lk.2.2 (BitVec.eq_of_toNat_eq e)
    rw [hnode]
    rcases hc with hc | hc
    · rw [if_pos hc, if_neg (by omega)]; rfl
    · rw [if_neg (by omega), if_pos hc]; simp
  · intro i' hi' hne
    rw [Finset.mem_filter, Finset.mem_range] at hi'
    have : ¬ ((s.nodeAt (slotAt i')).left.toNat = j ∨ (s.nodeAt (slotAt i')).right.toNat = j) := fun h => hne (hu i' _ (T.get_slotAt hi'.1) hi'.2 h)
    simp only [if_neg (not_or.1 this).1, if_neg (not_or.1 this).2, Nat.add_zero]
  · intro h
    exfalso; apply h
    rw [Finset.mem_filter, Finset.mem_range, hnode]
    exact ⟨hil, hl⟩

/-- Σ weight over internal nodes = Σ depth × weight over leaves. -/
theorem State.TreeOk.internal_eq_depth (δ : Nat → Nat) (hδ : ∀ j bs, j < s.nodes.length → s.PathTo s.root bs (slotAt j) → δ j = bs.length) :
    internalWeight s.nodes = ∑ i ∈ (Finset.range s.nodes.length).filter (fun i => (s.nodeAt (slotAt i)).leaf = true), δ i * (s.nodeAt (slotAt i)).weight.toNat := by
  have hn := T.rootLast
  let w : Nat → Nat := fun i => (s.nodeAt (slotAt i)).weight.toNat
  have hroot : slotAt (s.nodes.length - 1) = s.root := BitVec.eq_of_toNat_eq (by rw [T.slotAt_toNat (by omega)]; omega)
  have hk := T.kids_sum fun j => δ j * w j
  have slot_self : ∀ k : Slot, k.toNat < s.nodes.length → slotAt k.toNat = k := fun k hk => BitVec.eq_of_toNat_eq (T.slotAt_toNat hk)
  have each : ∀ i ∈ (Finset.range s.nodes.length).filter (fun i => (s.nodeAt (slotAt i)).leaf = false),
      δ (s.nodeAt (slotAt i)).left.toNat * w (s.nodeAt (slotAt i)).left.toNat + δ (s.nodeAt (slotAt i)).right.toNat * w (s.nodeAt (slotAt i)).right.toNat = δ i * w i + w i := by
    intro i hi
    rw [Finset.mem_filter, Finset.mem_range] at hi
    have lk := T.internalLinks i _ (T.get_slotAt hi.1) hi.2
    obtain ⟨bs, p⟩ := T.path_exists (slotAt i) (by rw [T.slotAt_toNat hi.1]; exact hi.1)
    have d0 := hδ i bs hi.1 p
    have d1 := hδ (s.nodeAt (slotAt i)).left.toNat (bs ++ [false]) (by omega) (by rw [slot_self _ (by omega)]; exact pathTo_snoc.2 ⟨_, p, hi.2, rfl⟩)
    have d2 := hδ (s.nodeAt (slotAt i)).right.toNat (bs ++ [true]) (by omega) (by rw [slot_self _ (by omega)]; exact pathTo_snoc.2 ⟨_, p, hi.2, rfl⟩)
    have ws := T.weightSum _ (List.mem_of_getElem? (T.get_slotAt hi.1)) hi.2
    have wl : w (s.nodeAt (slotAt i)).left.toNat = (s.nodeAt (s.nodeAt (slotAt i)).left).weight.toNat := by simp only [w]; rw [slot_self _ (by omega)]
    have wr : w (s.nodeAt (slotAt i)).right.toNat = (s.nodeAt (s.nodeAt (slotAt i)).right).weight.toNat := by simp only [w]; rw [slot_self _ (by omega)]
    have wi : w i = w (s.nodeAt (slotAt i)).left.toNat + w (s.nodeAt (slotAt i)).right.toNat := by rw [wl, wr]; exact ws
    rw [d1, d2, d0, wi]
    simp only [List.length_append, List.length_singleton]; ring
  rw [Finset.sum_congr rfl each, Finset.sum_add_distrib] at hk
  have hall : ∑ j ∈ Finset.range s.nodes.length, δ j * w j = ∑ j ∈ Finset.range (s.nodes.length - 1), δ j * w j := by
    have : s.nodes.length = (s.nodes.length - 1) + 1 := by omega
    conv_lhs => rw [this, Finset.sum_range_succ]
    rw [hδ (s.nodes.length - 1) [] (by omega) (by rw [hroot]; rfl)]; simp
  have hsplit := Finset.sum_filter_add_sum_filter_not (Finset.range s.nodes.length) (fun i => (s.nodeAt (slotAt i)).leaf = false) (fun j => δ j * w j)
  have hnot : (Finset.range s.nodes.length).filter (fun i => ¬ (s.nodeAt (slotAt i)).leaf = false) = (Finset.range s.nodes.length).filter (fun i => (s.nodeAt (slotAt i)).leaf = true) := by
    congr 1; funext i; simp
  rw [hnot] at hsplit
  have hint : internalWeight s.nodes = ∑ i ∈ (Finset.range s.nodes.length).filter (fun i => (s.nodeAt (slotAt i)).leaf = false), w i := by
    rw [internalWeight, filter_sum, list_sum_range, Finset.sum_filter]
    apply Finset.sum_congr rfl
    intro i hi
    rw [T.get_slotAt (Finset.mem_range.1 hi)]
    cases h : (s.nodeAt (slotAt i)).leaf <;> simp [h, w]
  simp only [w] at hint hsplit hall hk ⊢
  omega

end

/-- Σ depth × weight over leaves, with the depths a code ROM records. -/
theorem depth_sum {s : State} (T : s.TreeOk) (len : Sym → Nat) (hlen : ∀ bs x, s.CodePath bs x → len x = bs.length) :
    internalWeight s.nodes = ((s.nodes.filter fun n => n.leaf).map fun n => len n.sym * n.weight.toNat).sum := by
  classical
  have ex : ∀ j, ∃ d, ∀ bs, j < s.nodes.length → s.PathTo s.root bs (slotAt j) → d = bs.length := by
    intro j
    by_cases hj : j < s.nodes.length
    · obtain ⟨bs, p⟩ := T.path_exists (slotAt j) (by rw [T.slotAt_toNat hj]; exact hj)
      exact ⟨bs.length, fun bs' _ p' => by rw [T.path_unique T.root_lt p p']⟩
    · exact ⟨0, fun _ h => absurd h hj⟩
  choose δ hδ using ex
  rw [T.internal_eq_depth δ fun j bs hj p => hδ j bs hj p, filter_sum, list_sum_range, Finset.sum_filter]
  apply Finset.sum_congr rfl
  intro i hi
  have hi := Finset.mem_range.1 hi
  rw [T.get_slotAt hi]
  cases h : (s.nodeAt (slotAt i)).leaf with
  | false => simp [h]
  | true =>
    obtain ⟨bs, p⟩ := T.path_exists (slotAt i) (by rw [T.slotAt_toNat hi]; exact hi)
    simp only [if_true, Option.map_some, Option.getD_some, h]
    rw [hδ i bs hi p, hlen bs _ ⟨_, p, h, rfl⟩]

/-- The leaf symbols are the used symbols. -/
theorem leaf_syms_perm {s t : State} (T : t.TreeOk) (h : ∀ x, x ∈ s.usedSyms ↔ ∃ n ∈ t.nodes, n.leaf = true ∧ n.sym = x) :
    ((t.nodes.filter fun n => n.leaf).map fun n => n.sym).Perm s.usedSyms := by
  rw [List.perm_ext_iff_of_nodup _ (usedSyms_nodup s)]
  · intro x
    rw [h]; simp [List.mem_filter, and_assoc]
  · have pw : t.nodes.Pairwise fun a b => a.leaf = true → b.leaf = true → a.sym ≠ b.sym := by
      rw [List.pairwise_iff_getElem]
      intro i j hi hj hij la lb e
      have := T.leafSyms i j _ _ (List.getElem?_eq_getElem hi) (List.getElem?_eq_getElem hj) la lb e
      omega
    rw [List.Nodup, List.pairwise_map]
    exact (pw.sublist List.filter_sublist).imp_of_mem fun ha hb h => h (List.mem_filter.1 ha).2 (List.mem_filter.1 hb).2

/-- The tree, the codes and the sums behind BUILD; GENCODE. -/
theorem build_gencode {s : State} (hb : s.BuffersOk) (ht : s.text ≠ []) :
    ∃ t g, exec .build s = .next t ∧ exec .gencode t = .next g ∧ t.nodes = builtArena s ∧ t.TreeOk ∧ g.nodes = t.nodes ∧ g.root = t.root ∧ g.TreeOk ∧
      g.treeValid = true ∧ g.codesValid = true ∧ g.text = s.text ∧ g.freq = s.freq ∧
      (∀ bs (x : Sym), g.CodePath bs x → (g.codeAt x).present = true ∧ (g.codeAt x).len.toNat = bs.length ∧
        ∀ d, (g.codeAt x).path.getLsbD d = (bs[d]?).getD false) ∧
      (∀ x : Sym, x ∈ s.usedSyms ↔ ∃ bs, g.CodePath bs x) ∧
      (g.nodeAt g.root).weight.toNat = s.text.length ∧
      internalWeight t.nodes = ((t.nodes.filter fun n => n.leaf).map fun n => (g.codeAt n.sym).len.toNat * n.weight.toNat).sum ∧
      ((t.nodes.filter fun n => n.leaf).map fun n => (g.codeAt n.sym).len.toNat * n.weight.toNat).sum =
        (s.usedSyms.map fun x => (g.codeAt x).len.toNat * (s.freqAt x).toNat).sum := by
  have e1 : s.textLen ≠ 0 := by simpa [State.textLen] using ht
  let t := (s.setTree (builtArena s) (builtRoot (builtArena s))).completeOk
  obtain ⟨T, hw, hf, -, hu⟩ := treeOk_built (t := t) hb ht rfl rfl
  obtain ⟨rom, h1, h2, h3⟩ := generatedCode_spec T
  let g := (t.setCodes rom).completeOk
  have cp : ∀ bs x, g.CodePath bs x ↔ t.CodePath bs x := fun bs x => codePath_congr (s := t) (t := g) T rfl rfl
  have Tg : g.TreeOk := treeOk_congr T rfl rfl
  have hd := depth_sum T (fun x => (g.codeAt x).len.toNat) fun bs x p => (h2 bs x p).2.1
  refine ⟨t, g, exec_build_ok e1, exec_gencode_ok (s := t) rfl h1, rfl, T, rfl, rfl, Tg, rfl, rfl, rfl, rfl, fun bs x p => h2 bs x ((cp bs x).1 p), fun x => ?_, hw, hd, ?_⟩
  · rw [hu, codePath_iff_leaf T]
    exact exists_congr fun bs => (cp bs x).symm
  · have p := (leaf_syms_perm T hu).map fun x => (g.codeAt x).len.toNat * (s.freqAt x).toNat
    rw [← p.sum_eq, List.map_map]
    congr 1
    apply List.map_congr_left
    intro n hn
    rw [List.mem_filter] at hn
    simp only [Function.comp_apply, hf n hn.1 hn.2]

/-- BUILD, GENCODE and ENCODE of a text of two symbols or more (R157). -/
theorem encode_after {s : State} (hb : s.BuffersOk) (hl : 2 ≤ s.text.length) :
    ∃ t g e, exec .build s = .next t ∧ exec .gencode t = .next g ∧ exec .encode g = .next e ∧ e = (g.setBits (encodedBits g)).completeOk ∧
      (encodedBits g).length = internalWeight t.nodes ∧
      internalWeight t.nodes = ((t.nodes.filter fun n => n.leaf).map fun n => (g.codeAt n.sym).len.toNat * n.weight.toNat).sum ∧
      internalWeight t.nodes ≤ 7 * s.text.length ∧ g.text = s.text ∧ g.TreeOk ∧ g.treeValid = true ∧ (g.nodeAt g.root).weight.toNat = s.text.length := by
  have ht : s.text ≠ [] := by rintro h; rw [h] at hl; simp at hl
  have hcap : s.text.length ≤ 4096 := hb.textCap
  obtain ⟨t, g, a1, a2, a3, a4, a5, a6, a7, a8, a9, a10, a11, a12, a13, a14, a15, a16⟩ := build_gencode hb ht
  have seven : internalWeight t.nodes ≤ 7 * s.text.length := by
    have := greedy_seven (greedy_built hb ht) (by rw [List.length_map]; exact usedSyms_length_le s)
    rw [usedSyms_sum hb] at this
    rw [a3]; exact this
  have hlen : encodedLength g = internalWeight t.nodes := by
    rw [a15, a16, encodedLength, a10]
    exact text_sum hb fun x => (g.codeAt x).len.toNat
  have hp : ∀ x ∈ g.text, (g.codeAt x).present = true := by
    intro x hx
    rw [a10] at hx
    have : x ∈ s.usedSyms := by
      rw [mem_usedSyms]
      have := hb.freqCounts x
      have hp := List.count_pos_iff.2 hx
      intro h0; rw [h0] at this; simp at this; omega
    obtain ⟨bs, p⟩ := (a13 x).1 this
    exact (a12 bs x p).1
  refine ⟨t, g, _, a1, a2, ?_, rfl, by rw [encodedBits_length, hlen], a15, seven, a10, a7, a8, a14⟩
  show execEncode g = _
  rw [execEncode, if_neg (by simp [a8]), if_neg (by simp [a9]), if_neg (by simp [State.textLen, a10]; omega), (firstAbsent_none g).2 hp]
  exact if_neg (Nat.not_lt.2 (by rw [hlen]; show _ ≤ 32768; omega))

end Sys2Proof.Machine
end

