-- ==== Sys2Proof/Laws/PerInstr.lean ====
section
/-! SUPPORT. The family EncodesItsRow: for every command, its word selects its row of the opcode map (spec/30_encoding.md R91-R93). -/

namespace Sys2Proof.Laws.EncodesItsRow

/-- The word of a command selects the command's row, at every operand (R93). -/
def Statement (i : Instr) : Prop := (rowOf i).selects (Sys2Proof.encode i) = true

theorem nop : Statement .nop := by unfold Statement; decide
theorem clear : Statement .clear := by unfold Statement; decide
theorem clrtxt : Statement .clrtxt := by unfold Statement; decide
theorem clrbits : Statement .clrbits := by unfold Statement; decide
theorem pushs (s : BitVec 8) : Statement (.pushs s) := by unfold Statement; revert s; decide +kernel
theorem pushb (b : Bool) : Statement (.pushb b) := by unfold Statement; revert b; decide
theorem build : Statement .build := by unfold Statement; decide
theorem gencode : Statement .gencode := by unfold Statement; decide
theorem lookup (s : BitVec 8) : Statement (.lookup s) := by unfold Statement; revert s; decide +kernel
theorem encode : Statement .encode := by unfold Statement; decide
theorem decode : Statement .decode := by unfold Statement; decide
theorem walk (b : Bool) : Statement (.walk b) := by unfold Statement; revert b; decide
theorem wrst : Statement .wrst := by unfold Statement; decide

end Sys2Proof.Laws.EncodesItsRow
end

