-- ==== Sys2Proof/Laws/Runs.lean ====
section
/-! SUPPORT. Runs of the machine and of lists of commands. -/

namespace Sys2Proof.Machine

/-- A run is its first step and the rest. -/
theorem run_succ_of_step (M : Host.Core) (n : Nat) (v w : M.State) (h : M.step v = .next w) : M.run (n+1) v = M.run n w := by
  simp [Host.Core.run, h]

/-- A run of m + n steps is a run of m and one of n. -/
theorem run_add_of_run (M : Host.Core) (m : Nat) : ∀ (n : Nat) (v w : M.State), M.run m v = .next w → M.run (m + n) v = M.run n w := by
  induction m with
  | zero => intro n v w h; simp only [Host.Core.run, Host.Outcome.next.injEq] at h; rw [h, Nat.zero_add]
  | succ m ih =>
    intro n v w h
    rw [Nat.add_right_comm]
    simp only [Host.Core.run] at h ⊢
    split at h
    · exact ih n _ _ h
    · cases h
    · cases h

/-- One list of commands after another. -/
theorem runOk_append {as bs : List Instr} {s u : State} (h : runOk as s = some u) : runOk (as ++ bs) s = runOk bs u := by
  induction as generalizing s with
  | nil => simp only [runOk, Option.some.injEq] at h; rw [h]; rfl
  | cons a as ih =>
    rw [runOk] at h
    rw [List.cons_append, runOk]
    split at h
    · split at h
      · cases h
      · rename_i e; simp only [if_neg e]; exact ih h
    · cases h
    · cases h

/-- One command and the rest. -/
theorem runOk_cons {a : Instr} {as : List Instr} {s u : State} (h : exec a s = .next u) (he : u.err = false) : runOk (a :: as) s = runOk as u := by
  rw [runOk, h]; simp [he]

/-- The PUSHS of a text that fits: each succeeds, and TEXT grows by the text. -/
theorem runOk_pushes (t : List Sym) {s : State} (B : s.BuffersOk) (I : s.TreeStateOk) (S : s.StatusOk)
    (hl : s.text.length + t.length ≤ 4096) :
    ∃ u, runOk (t.map fun x => .pushs (x.setWidth 8)) s = some u ∧ u.text = s.text ++ t ∧ u.BuffersOk ∧ u.TreeStateOk ∧
      u.StatusOk := by
  induction t generalizing s with
  | nil => exact ⟨s, rfl, by simp, B, I, S⟩
  | cons x t ih =>
    have hx : (x.setWidth 8 : BitVec 8).toNat < 128 := by have := x.isLt; simp; omega
    have e7 : symbolOf (x.setWidth 8) = x := by apply BitVec.eq_of_toNat_eq; simp [symbolOf]
    simp only [List.length_cons] at hl
    have h := exec_pushs_ok (s := s) hx (by omega)
    rw [e7] at h
    obtain ⟨u, h1, h2, h3, h4, h5⟩ := ih (exec_keeps_buffers B h) (exec_keeps_tree B I h) statusOk_completeOk
      (by simp; omega)
    refine ⟨u, ?_, ?_, h3, h4, h5⟩
    · rw [List.map_cons, runOk_cons h rfl]; exact h1
    · rw [h2]; simp

/-- A command's completion has flags that agree (R206, R207). -/
theorem exec_statusOk {i : Instr} {s t : State} (h : exec i s = .next t) : t.StatusOk := by
  rcases exec_cases h with ⟨c, info, hc, rfl⟩ | ⟨u, rfl⟩
  · exact statusOk_completeErr hc
  · exact statusOk_completeOk

/-- A command keeps the invariant. -/
theorem exec_keeps_inv {i : Instr} {s t : State} (I : s.Inv) (h : exec i s = .next t) : t.Inv :=
  ⟨exec_statusOk h, exec_keeps_buffers I.buffers h, exec_keeps_tree I.buffers I.treeState h⟩

/-- A list of commands that all succeed keeps the invariant. -/
theorem runOk_keeps_inv {is : List Instr} {s t : State} (I : s.Inv) (h : runOk is s = some t) : t.Inv := by
  induction is generalizing s with
  | nil => simp only [runOk, Option.some.injEq] at h; exact h ▸ I
  | cons i is ih =>
    rw [runOk] at h
    split at h
    · rename_i u hu
      split at h
      · cases h
      · exact ih (exec_keeps_inv I hu) h
    · cases h
    · cases h

/-! ### Scripts -/

/-- The state at another place of the order: another agenda, another reply. -/
def State.atPort (s : State) (a : List Event) (r : Option Reply) : State := { s with agenda := a, reply := r }

/-- An answer at another place of the order. -/
def onPort (a : List Event) (r : Option Reply) : Result → Result
  | .next t => .next (t.atPort a r)
  | .fault f => .fault f
  | .refused f => .refused f

/-- GENCODE's recursion reads the node slots alone. -/
theorem visit_congr {s t : State} (h : ∀ i, t.nodeAt i = s.nodeAt i) (levels : Nat) (i : Slot) (d : Nat) (p : Path)
    (m : Vector CodeEntry 128) : visit t levels i d p m = visit s levels i d p m := by
  induction levels generalizing i d p m with
  | zero => rfl
  | succ n ih => simp only [visit, h, ih]

/-- DECODE's walk of one symbol reads the node slots alone. -/
theorem walkSymbol_congr {s t : State} (h : ∀ i, t.nodeAt i = s.nodeAt i) (bs : List Bool) (i : Slot) :
    walkSymbol t bs i = walkSymbol s bs i := by
  induction bs generalizing i with
  | nil => simp only [walkSymbol, h]
  | cons b bs ih => simp only [walkSymbol, h, ih, State.child]

/-- DECODE's walks read the node slots and ROOT alone. -/
theorem walkSymbols_congr {s t : State} (h : ∀ i, t.nodeAt i = s.nodeAt i) (hr : t.root = s.root) (n : Nat) (bs : List Bool) :
    walkSymbols t n bs = walkSymbols s n bs := by
  induction n generalizing bs with
  | zero => rfl
  | succ n ih => simp only [walkSymbols, walkSymbol_congr h, hr, ih]

/-- A command does the same at every place of the order: it reads neither the agenda nor the reply, and keeps both. -/
theorem exec_atPort (i : Instr) (s : State) (a : List Event) (r : Option Reply) :
    exec i (s.atPort a r) = onPort a r (exec i s) := by
  have nd : ∀ j, (s.atPort a r).nodeAt j = s.nodeAt j := fun _ => rfl
  cases i with
  | nop | clear | clrtxt | clrbits => rfl
  | pushs x => simp only [exec, execPushs, apply_ite (onPort a r)]; rfl
  | pushb b => simp only [exec, execPushb, apply_ite (onPort a r)]; rfl
  | build => simp only [exec, execBuild, apply_ite (onPort a r)]; rfl
  | gencode =>
    have hg : generatedCode (s.atPort a r) = generatedCode s := visit_congr nd _ _ _ _ _
    simp only [exec, execGencode, apply_ite (onPort a r), hg]
    cases generatedCode s <;> rfl
  | lookup x => simp only [exec, execLookup, apply_ite (onPort a r)]; rfl
  | encode =>
    have hf : firstAbsent (s.atPort a r) = firstAbsent s := rfl
    simp only [exec, execEncode, apply_ite (onPort a r), hf]
    cases firstAbsent s with
    | some _ => rfl
    | none => simp only [apply_ite (onPort a r)]; rfl
  | decode =>
    have hw : walkSymbols (s.atPort a r) (symbolCount (s.atPort a r)) (s.atPort a r).bits = walkSymbols s (symbolCount s) s.bits :=
      walkSymbols_congr nd rfl _ _
    simp only [exec, execDecode, apply_ite (onPort a r), hw]
    cases walkSymbols s (symbolCount s) s.bits <;> rfl
  | walk b => simp only [exec, execWalk, apply_ite (onPort a r)]; rfl
  | wrst => simp only [exec, execWrst, apply_ite (onPort a r)]; rfl

/-- So does the engine's turn. -/
theorem engineTurn_atPort (s : State) (a : List Event) (r : Option Reply) :
    engineTurn (s.atPort a r) = onPort a r (engineTurn s) := by
  unfold engineTurn engineStep
  rw [apply_ite (onPort a r)]
  show (if s.busy = true then (match decode s.lastCmd with | .ok i => exec i (s.atPort a r) | .error _ => _) else _) = _
  cases decode s.lastCmd with
  | ok i => simp only [exec_atPort]; rfl
  | error _ => rfl
/-- So does a script. -/
theorem runScript_atPort (is : List Instr) (s : State) (a : List Event) (r : Option Reply) :
    runScript is (s.atPort a r) = onPort a r (runScript is s) := by
  induction is generalizing s with
  | nil => rfl
  | cons i is ih =>
    have h : exec i ((s.atPort a r).accept (encode i)) = onPort a r (exec i (s.accept (encode i))) :=
      exec_atPort i (s.accept (encode i)) a r
    simp only [runScript, h]
    cases exec i (s.accept (encode i)) with
    | next t => exact ih t
    | fault _ => rfl
    | refused _ => rfl

/-- A watched run of m + n steps is one of m and one of n. -/
theorem watchScript_add (m n : Nat) (w : ScriptWatch) (s : State) :
    watchScript (m + n) w s = (watchScript m w s).bind fun p => watchScript n p.1 p.2 := by
  induction m generalizing w s with
  | zero => simp [watchScript]
  | succ m ih =>
    rw [Nat.add_right_comm, watchScript, watchScript]
    cases step s with
    | next t => exact ih _ _
    | fault _ => rfl
    | refused _ => rfl

end Sys2Proof.Machine
end

