-- ==== Sys2Proof/Tests/Slice0.lean ====
section
/-! SUPPORT. Tests of the model, expected values from spec/30_encoding.md R91-R93 and spec/95_test_vectors.md (each test names its
vector), and a witness for the hypotheses of each statement. -/

namespace Sys2Proof.Tests

open Sys2Proof Sys2Proof.Machine

/-! ### Helpers -/

/-- The state after NOP and then a list of commands, from reset. -/
def after (is : List Instr) : State := (runOk (.nop :: is) State.reset).getD State.reset

/-- PUSHS of each character code. -/
def push (t : List (BitVec 8)) : List Instr := t.map .pushs

/-- Whether an answer is a next state with a property. -/
def nextWith (o : Result) (p : State → Bool) : Bool :=
  match o with
  | .next t => p t
  | .fault _ => false
  | .refused _ => false

/-- The word the host reads at an offset, where the response is OKAY. -/
def readWord (s : State) (a : Offset) : Option Word :=
  match step { s with agenda := [.hostRead a 4] } with
  | .next t =>
    match t.reply with
    | some (.readData d .okay) => some d
    | _ => none
  | .fault _ => none
  | .refused _ => none

/-- Whether reads at the offsets answer the words. -/
def reads (s : State) (l : List (Offset × Word)) : Bool := l.all fun p => readWord s p.1 = some p.2

def aab : List (BitVec 8) := [0x61, 0x61, 0x62]
def aaabbc : List (BitVec 8) := [0x61, 0x61, 0x61, 0x62, 0x62, 0x63]
def abracadabra : List (BitVec 8) := [0x61, 0x62, 0x72, 0x61, 0x63, 0x61, 0x64, 0x61, 0x62, 0x72, 0x61]

/-- A text, its tree and its codes. -/
def codesOf (t : List (BitVec 8)) : State := after (push t ++ [.build, .gencode])

/-- X1's tree and codes, "aab", with a text and bits. -/
def aabTree (text : List Sym) (bits : List Bool) : State :=
  { State.reset with
    text := text, bits := bits, treeValid := true, codesValid := true, root := 2, walkCur := 2,
    nodes := [⟨true, 0x61, 2, 0xFF, 0xFF, true⟩, ⟨true, 0x62, 1, 0xFF, 0xFF, true⟩, ⟨false, 0, 3, 0, 1, false⟩],
    code := ((Vector.replicate 128 ⟨false, 0, 0⟩).set 0x61 ⟨true, 1, 0⟩).set 0x62 ⟨true, 1, 1⟩ }

/-- X2's tree, "aaabbc". -/
def aaabbcTree : State :=
  { State.reset with
    treeValid := true, root := 4, walkCur := 4,
    nodes := [⟨true, 0x61, 3, 0xFF, 0xFF, true⟩, ⟨true, 0x62, 2, 0xFF, 0xFF, true⟩, ⟨true, 0x63, 1, 0xFF, 0xFF, true⟩,
      ⟨false, 0, 3, 1, 2, true⟩, ⟨false, 0, 6, 3, 0, false⟩] }

/-- B9's tree, "aa". -/
def leafTree : State := { State.reset with treeValid := true, nodes := [⟨true, 0x61, 2, 0xFF, 0xFF, false⟩] }

/-! ### The checks of script lines (R99, R100) -/

theorem test_wf_pushs : ScriptLine.wellFormed (.pushs 255) = true ∧ ScriptLine.wellFormed (.pushs 256) = false := by decide
theorem test_wf_lookup : ScriptLine.wellFormed (.lookup 255) = true ∧ ScriptLine.wellFormed (.lookup 256) = false := by decide
theorem test_wf_pushb : ScriptLine.wellFormed (.pushb 1) = true ∧ ScriptLine.wellFormed (.pushb 2) = false := by decide
theorem test_wf_walk : ScriptLine.wellFormed (.walk 1) = true ∧ ScriptLine.wellFormed (.walk 2) = false := by decide
theorem test_wf_text : ScriptLine.wellFormed (.pushstr ['a']) = true ∧ ScriptLine.wellFormed (.pushstr [Char.ofNat 256]) = false ∧
    ScriptLine.wellFormed (.loadtext [Char.ofNat 256]) = false ∧ ScriptLine.wellFormed (.roundtrip [Char.ofNat 256]) = false := by decide
theorem test_wf_bits : ScriptLine.wellFormed (.pushbits ['0', '1']) = true ∧ ScriptLine.wellFormed (.pushbits ['0', '2']) = false ∧
    ScriptLine.wellFormed (.loadbits ['2']) = false := by decide

/-! ### Decoding: words written out from R91 and R93 -/

theorem test_decode_nop : decode 0b00000000000000000000000000000000#32 = .ok .nop := by decide
theorem test_decode_clear : decode 0b00000001000000000000000000000000#32 = .ok .clear := by decide
theorem test_decode_clrtxt : decode 0b00000010000000000000000000000000#32 = .ok .clrtxt := by decide
theorem test_decode_clrbits : decode 0b00000011000000000000000000000000#32 = .ok .clrbits := by decide
theorem test_decode_pushs : decode 0b00000100000000000000000001111010#32 = .ok (.pushs 0x7A) := by decide
theorem test_decode_pushb : decode 0b00000101000000000000000000000001#32 = .ok (.pushb true) := by decide
theorem test_decode_build : decode 0b00000110000000000000000000000000#32 = .ok .build := by decide
theorem test_decode_gencode : decode 0b00000111000000000000000000000000#32 = .ok .gencode := by decide
theorem test_decode_lookup : decode 0b00001000000000000000000010000001#32 = .ok (.lookup 0x81) := by decide
theorem test_decode_encode : decode 0b00001001000000000000000000000000#32 = .ok .encode := by decide
theorem test_decode_decode : decode 0b00001010000000000000000000000000#32 = .ok .decode := by decide
theorem test_decode_walk : decode 0b00001011000000000000000000000000#32 = .ok (.walk false) := by decide
theorem test_decode_wrst : decode 0b00001100000000000000000000000000#32 = .ok .wrst := by decide

/-- IL1-IL4, F11, F17, WK5: words that are no command. -/
theorem test_decode_illegal : [0x0D000000#32, 0xFF0000FF#32, 0x06000100#32, 0x04000180#32, 0x05000002#32, 0x0B000002#32,
    0x00000001#32].all (fun w => (decode w).toOption = none) = true := by decide

/-- P1's script, as text: the words of 95_test_vectors.md. -/
theorem test_script_text : assembleText "CLEAR ; start\nPUSHSTR \"aab\"\nBUILD\nGENCODE\nENCODE\nDECODE\n" =
    .ok [0x01000000, 0x04000061, 0x04000061, 0x04000062, 0x06000000, 0x07000000, 0x09000000, 0x0A000000] := by decide +kernel

/-! ### Steps -/

/-- F1. -/
theorem test_nop : nextWith (step (State.reset.withFetchWord 32 0x00000000)) (fun t => reads t [(0x008, 0x00000002), (0x004, 0)]) = true := by
  decide +kernel

/-- F15. -/
theorem test_clear : nextWith (step ({ aabTree [0x61, 0x61, 0x62] [false, false, true] with bitPos := 3, out := [0x61, 0x61, 0x62], resLen := 1 }.withFetchWord 32 0x01000000))
    (fun t => reads t [(0x010, 0), (0x018, 0), (0x01C, 0), (0x020, 0), (0x024, 0), (0x028, 0), (0x02C, 0), (0x030, 0),
      (0x008, 0x00000002), (0x004, 0x01000000), (0x1010, 0)]) = true := by decide +kernel

/-- F13. -/
theorem test_clrtxt : nextWith (exec .clrtxt (after (push [0x61, 0x62])))
    (fun t => reads t [(0x010, 0), (0x584, 0), (0x014, 0), (0x4000, 0)]) = true := by decide +kernel

/-- F14. -/
theorem test_clrbits : nextWith (exec .clrbits { aabTree [0x61, 0x61, 0x62] [false, false, true] with bitPos := 3, out := [0x61, 0x61, 0x62] })
    (fun t => reads t [(0x018, 0), (0x01C, 0), (0x8000, 0), (0x4000, 0x00626161), (0x5000, 0x00626161), (0x1014, 0x80000001),
      (0x008, 0x00000032)]) = true := by decide +kernel

/-- F2. -/
theorem test_pushs : nextWith (step (State.reset.withFetchWord 32 0x04000061))
    (fun t => reads t [(0x010, 1), (0x584, 1), (0x014, 1), (0x4000, 0x00000061), (0x008, 0x00000002)]) = true := by decide +kernel

/-- F6. -/
theorem test_pushs_range : nextWith (step (State.reset.withFetchWord 32 0x04000080))
    (fun t => reads t [(0x008, 0x00000306), (0x00C, 0x80), (0x010, 0)]) = true := by decide +kernel

/-- F10. -/
theorem test_pushb : nextWith (step (State.reset.withFetchWord 32 0x05000001))
    (fun t => reads t [(0x018, 1), (0x8000, 1), (0x01C, 0)]) = true := by decide +kernel

/-- F11. -/
theorem test_pushb_illegal : nextWith (step (State.reset.withFetchWord 32 0x05000002))
    (fun t => reads t [(0x008, 0x00000A06), (0x00C, 0x05000002), (0x018, 0)]) = true := by decide +kernel

/-- X2. -/
theorem test_build_ties : nextWith (exec .build (after (push aaabbc)))
    (fun t => reads t [(0x1000, 3), (0x1004, 0xE061FFFF), (0x1008, 2), (0x100C, 0xE062FFFF), (0x1010, 1), (0x1014, 0xE063FFFF),
      (0x1018, 3), (0x101C, 0xA0000102), (0x1020, 6), (0x1024, 0x80000300), (0x028, 4), (0x024, 5), (0x02C, 4)]) = true := by
  decide +kernel

/-- X3: the degenerate tree of "a". -/
theorem test_build_one : nextWith (exec .build (after (push [0x61])))
    (fun t => reads t [(0x1000, 1), (0x1004, 0xC061FFFF), (0x024, 1), (0x028, 0), (0x008, 0x00000012)]) = true := by decide +kernel

/-- GC5: five codes of "abracadabra". -/
theorem test_gencode : nextWith (exec .gencode (after (push abracadabra ++ [.build])))
    (fun t => reads t [(0x2C20, 0x80000001), (0x2C24, 1), (0x2C40, 0x80000003), (0x2C44, 4), (0x2C60, 0x80000003), (0x2C64, 6),
      (0x2C80, 0x80000003), (0x2C84, 2), (0x2E40, 0x80000003), (0x2E44, 0), (0x2CA0, 0)]) = true := by decide +kernel

/-- GC8, CW6: a present code of length 0. -/
theorem test_gencode_one : nextWith (exec .gencode (after (push [0x61, 0x61] ++ [.build])))
    (fun t => reads t [(0x2C20, 0x80000000), (0x2C24, 0), (0x2C40, 0)]) = true := by decide +kernel

/-- LK1. -/
theorem test_lookup : nextWith (exec (.lookup 0x63) (codesOf abracadabra))
    (fun t => reads t [(0x030, 3), (0x034, 6), (0x038, 0)]) = true := by decide +kernel

/-- LK2. -/
theorem test_lookup_absent : nextWith (exec (.lookup 0x63) (aabTree [] []))
    (fun t => reads t [(0x008, 0x00000436), (0x00C, 0x63), (0x030, 0)]) = true := by decide +kernel

/-- EN3. -/
theorem test_encode : nextWith (exec .encode (codesOf abracadabra))
    (fun t => reads t [(0x018, 23), (0x8000, 0x0044AE89), (0x01C, 0)]) = true := by decide +kernel

/-- EN17: the first absent symbol. -/
theorem test_encode_absent : nextWith (exec .encode (aabTree [0x61, 0x62, 0x63, 0x63] []))
    (fun t => reads t [(0x008, 0x00000436), (0x00C, 2), (0x018, 0)]) = true := by decide +kernel

/-- DC9. -/
theorem test_decode_step : nextWith (exec .decode (after (push abracadabra ++ [.build, .gencode, .encode])))
    (fun t => reads t [(0x5000, 0x61726261), (0x5004, 0x61646163), (0x5008, 0x00617262), (0x020, 11), (0x01C, 23)]) = true := by
  decide +kernel

/-- DC5: an underrun after five symbols. -/
theorem test_decode_underrun : nextWith (exec .decode { aaabbcTree with
      bits := [true, true, true, false, false, false, false, false] })
    (fun t => reads t [(0x008, 0x00000916), (0x00C, 5), (0x020, 0), (0x01C, 0)]) = true := by decide +kernel

/-- WK1: WALK 1 hits 'a'. -/
theorem test_walk_hit : nextWith (exec (.walk true) aaabbcTree)
    (fun t => reads t [(0x02C, 0x00610304)]) = true := by decide +kernel

/-- WK1: WALK 0 then moves to slot 3. -/
theorem test_walk_inner : nextWith (exec (.walk false) { aaabbcTree with walkHit := true, walkUsed := true, walkSym := 0x61 })
    (fun t => reads t [(0x02C, 0x00000203)]) = true := by decide +kernel

/-- WK1: WRST. -/
theorem test_wrst : nextWith (exec .wrst { aaabbcTree with walkCur := 3, walkUsed := true })
    (fun t => reads t [(0x02C, 0x00000004)]) = true := by decide +kernel

/-- M1, M3, M4, M7. -/
theorem test_aperture : readWord State.reset 0x000 = some 0x48554646 ∧ readWord State.reset 0x044 = none ∧
    readWord State.reset 0x002 = none ∧ readWord State.reset 0x17F8 = some 0 := by decide +kernel

/-- R249: a poll that reads BUSY = 0 ends no run whose last command, here PUSHS 'a' a second time, is not yet accepted; once it
is, the poll ends it. -/
theorem test_run_end : seeEvent ⟨[0x04000061], false⟩ { State.reset with lastCmd := 0x04000061, done := true, agenda := [.hostRead 0x008 4] } =
      ⟨[0x04000061], false⟩ ∧
    seeEvent ⟨[0x04000061], false⟩ { State.reset with agenda := [.hostWrite 0x004 4 0xF 0x04000061] } = ⟨[], false⟩ ∧
    seeEvent ⟨[0x04000061], false⟩ { State.reset with busy := true, agenda := [.hostWrite 0x004 4 0xF 0x04000061] } =
      ⟨[0x04000061], false⟩ ∧
    seeEvent ⟨[], false⟩ { State.reset with agenda := [.hostRead 0x008 4] } = ⟨[], true⟩ := by decide +kernel

/-! ### Witnesses: states and operands that meet the hypotheses of each statement -/

/-- A list of commands that all succeed, from reset, leaves a state that meets the invariant. -/
theorem after_inv {is : List Instr} (h : (runOk (.nop :: is) State.reset).isSome = true) : (after is).Inv := by
  obtain ⟨t, ht⟩ := Option.isSome_iff_exists.1 h
  obtain ⟨u, hu, he⟩ : ∃ u, exec .nop State.reset = .next u ∧ u.err = false := ⟨_, rfl, rfl⟩
  have I : u.Inv := ⟨exec_statusOk hu, exec_keeps_buffers (buffersOk_reset [] 0) hu,
    exec_keeps_tree (buffersOk_reset [] 0) (treeState_noTree rfl rfl rfl rfl rfl rfl rfl rfl memory_wf_reset) hu⟩
  have : after is = t := by rw [after, ht]; rfl
  rw [this]
  rw [runOk_cons hu he] at ht
  exact runOk_keeps_inv I ht

/-- The next state behind a property of an answer. -/
theorem next_of_nextWith {o : Result} {p : State → Bool} (h : nextWith o p = true) : ∃ t, o = .next t ∧ p t = true := by
  cases o with
  | next t => exact ⟨t, rfl, h⟩
  | fault _ => cases h
  | refused _ => cases h

/-- A busy machine that holds a word, with events to come. -/
def busyWith (w : Word) (a : List Event) : State := { State.reset with busy := true, lastCmd := w, agenda := a }

/-- A host write of a whole word. -/
def writeOf (a : Offset) (v : Word) : Event := .hostWrite a 4 0xF v

theorem witness_IllegalWords : (busyWith 0x0D000000 [.engineTurn]).busy = true ∧ (busyWith 0x0D000000 [.engineTurn]).agenda = [.engineTurn] ∧
    IllegalWord 0x0D000000 ∧ IllegalWord 0xFF0000FF ∧ IllegalWord 0x06000100 ∧ IllegalWord 0x0C800000 ∧ IllegalWord 0x00000001 ∧
    IllegalWord 0x0C0000FF ∧ IllegalWord 0x05000002 ∧ IllegalWord 0x0B000080 := by
  refine ⟨rfl, rfl, ?_, ?_, ?_, ?_, ?_, ?_, ?_, ?_⟩ <;> (unfold IllegalWord; decide +kernel)

theorem witness_StepRuns : (∃ s : State, s.busy = true ∧ decode s.lastCmd = .ok (.pushs 0x61) ∧ s.agenda = []) ∧
    ∃ (s : State) (rest : List Event), s.busy = true ∧ decode s.lastCmd = .ok (.walk true) ∧ s.agenda = .engineTurn :: rest :=
  ⟨⟨busyWith 0x04000061 [], rfl, by decide, rfl⟩, busyWith 0x0B000001 [.engineTurn, .reset], [.reset], rfl, by decide, rfl⟩

theorem witness_EngineIsIdle : (∃ s : State, s.busy = false ∧ s.agenda = []) ∧
    ∃ (s : State) (rest : List Event), s.busy = false ∧ s.agenda = .engineTurn :: rest :=
  ⟨⟨State.reset, rfl, rfl⟩, { State.reset with agenda := [.engineTurn] }, [], rfl, rfl⟩

theorem witness_CommandWrite : (∃ (s : State) (v : Word) (rest : List Event), s.agenda = .hostWrite 0x004 4 0xF v :: rest ∧ s.busy = false) ∧
    ∃ (s : State) (v : Word) (rest : List Event), s.agenda = .hostWrite 0x004 4 0xF v :: rest ∧ s.busy = true :=
  ⟨⟨{ State.reset with agenda := [writeOf 0x004 0xFFFFFFFF] }, 0xFFFFFFFF, [], rfl, rfl⟩,
    busyWith 0 [writeOf 0x004 0x06000000], 0x06000000, [], rfl, rfl⟩

/-- M9 and M10 for the first clause, and a step of each kind for the others. -/
theorem witness_OverrunIsSticky :
    (∃ (s : State) (v : Word) (rest : List Event), s.agenda = .hostWrite 0x008 4 0xF v :: rest ∧ v.getLsbD 3 = true) ∧
    (∃ (s : State) (v : Word) (rest : List Event), s.agenda = .hostWrite 0x008 4 0xF v :: rest ∧ v.getLsbD 3 = false) ∧
    (∃ (s t : State) (v : Word) (rest : List Event), s.busy = true ∧ s.agenda = .hostWrite 0x004 4 0xF v :: rest ∧ step s = .next t ∧
      s.ovr = false ∧ t.ovr = true) ∧
    (∃ s t : State, step s = .next t ∧ s.ovr = true ∧ t.ovr = false ∧ ∃ v, s.agenda = [writeOf 0x008 v]) ∧
    ∃ s t : State, step s = .next t ∧ s.ovr = true ∧ t.ovr = false ∧ s.agenda = [.reset] :=
  ⟨⟨{ State.reset with agenda := [writeOf 0x008 8] }, 8, [], rfl, by decide⟩,
    ⟨{ State.reset with agenda := [writeOf 0x008 0xFFFFFFF7] }, 0xFFFFFFF7, [], rfl, by decide⟩,
    ⟨busyWith 0 [writeOf 0x004 0], _, 0, [], rfl, rfl, rfl, rfl, rfl⟩,
    ⟨{ State.reset with ovr := true, agenda := [writeOf 0x008 8] }, _, rfl, rfl, rfl, 8, rfl⟩,
    { State.reset with ovr := true, agenda := [.reset] }, _, rfl, rfl, rfl, rfl⟩

/-- The first and the last word of every mapped range. -/
theorem witness_OnlyCmdAndStatus : (∀ a ∈ [0x000#16, 0x00C#16, 0x040#16, 0x0400#16, 0x05FC#16, 0x1000#16, 0x17FC#16, 0x2000#16, 0x2FFC#16,
      0x4000#16, 0x4FFC#16, 0x5000#16, 0x5FFC#16, 0x8000#16, 0x8FFC#16],
      a.toNat % 4 = 0 ∧ MappedOffset a ∧ a ≠ 0x004 ∧ a ≠ 0x008) ∧
    (∃ (s : State) (v : Word) (rest : List Event), s.agenda = .hostWrite 0x05FC 4 0xF v :: rest) ∧
    ∃ (s : State) (rest : List Event), s.agenda = .hostRead 0x8FFC 4 :: rest := by
  refine ⟨?_, ⟨{ State.reset with agenda := [writeOf 0x05FC 1] }, 1, [], rfl⟩, { State.reset with agenda := [.hostRead 0x8FFC 4] }, [], rfl⟩
  intro a ha
  simp only [List.mem_cons, List.not_mem_nil, or_false] at ha
  rcases ha with rfl | rfl | rfl | rfl | rfl | rfl | rfl | rfl | rfl | rfl | rfl | rfl | rfl | rfl | rfl <;> simp [MappedOffset]

/-- The words beside every mapped range, and an access of each other bad kind. -/
theorem witness_BadAccesses : (∀ a ∈ [0x0044#16, 0x03FC#16, 0x0600#16, 0x0FFC#16, 0x1800#16, 0x1FFC#16, 0x3000#16, 0x3FFC#16, 0x6000#16,
      0x7FFC#16, 0x9000#16, 0xFFFC#16], ¬ MappedOffset a) ∧
    (∃ (s : State) (rest : List Event), s.agenda = .hostRead 0x0044 4 :: rest) ∧
    (∃ (s : State) (a : Offset) (rest : List Event), s.agenda = .hostRead a 4 :: rest ∧ a.toNat % 4 ≠ 0 ∧ MappedOffset a) ∧
    (∃ (s : State) (size : Nat) (rest : List Event), s.agenda = .hostRead 0x008 size :: rest ∧ size ≠ 4) ∧
    (∃ (s : State) (v : Word) (rest : List Event), s.agenda = .hostWrite 0x003 4 0xF v :: rest) ∧
    (∃ (s : State) (strobes : BitVec 4) (v : Word) (rest : List Event), s.agenda = .hostWrite 0x004 4 strobes v :: rest ∧ strobes ≠ 0xF) := by
  refine ⟨?_, ⟨{ State.reset with agenda := [.hostRead 0x0044 4] }, [], rfl⟩,
    ⟨{ State.reset with agenda := [.hostRead 0x002 4] }, 0x002, [], rfl, by decide, .inl (by decide)⟩,
    ⟨{ State.reset with agenda := [.hostRead 0x008 1] }, 1, [], rfl, by decide⟩,
    ⟨{ State.reset with agenda := [writeOf 0x003 1] }, 1, [], rfl⟩,
    { State.reset with agenda := [.hostWrite 0x004 4 0x7 1] }, 0x7, 1, [], rfl, by decide⟩
  intro a ha
  simp only [List.mem_cons, List.not_mem_nil, or_false] at ha
  rcases ha with rfl | rfl | rfl | rfl | rfl | rfl | rfl | rfl | rfl | rfl | rfl | rfl <;> simp [MappedOffset]

theorem witness_BusyReads : (∃ s : State, s.busy = true) ∧
    ∀ a ∈ [0x000C#16, 0x0010#16, 0x8FFC#16], ∃ (s : State) (rest : List Event), s.busy = true ∧ a.toNat % 4 = 0 ∧ MappedOffset a ∧
      0x008 < a.toNat ∧ s.agenda = .hostRead a 4 :: rest := by
  refine ⟨⟨busyWith 0 [], rfl⟩, fun a ha => ⟨busyWith 0 [.hostRead a 4], [], rfl, ?_⟩⟩
  have : a.toNat % 4 = 0 ∧ MappedOffset a ∧ 0x008 < a.toNat := by
    simp only [List.mem_cons, List.not_mem_nil, or_false] at ha
    rcases ha with rfl | rfl | rfl <;> simp [MappedOffset]
  exact ⟨this.1, this.2.1, this.2.2, rfl⟩

/-- A step of each of the three kinds: a host write, a reset, a PUSHB. -/
theorem witness_MemoriesChange : (∃ s t : State, step s = .next t ∧ s.agenda = [writeOf 0x4000 1]) ∧
    (∃ s t : State, step s = .next t ∧ s.bits ≠ t.bits ∧ s.agenda = [.reset]) ∧
    ∃ s t : State, step s = .next t ∧ s.bits ≠ t.bits ∧ s.busy = true ∧ s.agenda = [.engineTurn] :=
  ⟨⟨{ State.reset with agenda := [writeOf 0x4000 1] }, _, rfl, rfl⟩,
    ⟨{ State.reset with bits := [true], agenda := [.reset] }, _, rfl, by decide, rfl⟩,
    busyWith 0x05000001 [.engineTurn], _, rfl, by decide, rfl, rfl⟩

/-- IdleRegisterReads, FreqWindowReads, TextAndOutWindowsPack and BitsWindowPacks ask only for BUSY = 0 and an index in range. -/
theorem witness_IdleReads : State.reset.busy = false ∧ (0 < 1024 ∧ 1023 < 1024) ∧
    (aabTree [0x61, 0x61, 0x62] []).busy = false ∧ (aabTree [0x61, 0x61, 0x62] []).text[4 * 0 + 2]? = some 0x62 ∧
    (aabTree [0x61, 0x61, 0x62] []).text.length ≤ 4 * 0 + 3 := by decide

/-- The slots where the clauses meet: 2 is the last node of the tree of "aab", 3 and 254 hold none, 255 does not exist. -/
theorem witness_NodeWindow : (aabTree [] []).busy = false ∧ (aabTree [] []).treeValid = true ∧ ((aabTree [] []).nodes[2]?).isSome = true ∧
    (aabTree [] []).nodes.length ≤ 3 ∧ 254 < 255 ∧ State.reset.treeValid = false := by decide

theorem witness_CodeWindow : (aabTree [] []).busy = false ∧ (aabTree [] []).codesValid = true ∧
    aaabbcTree.busy = false ∧ aaabbcTree.codesValid = false := by decide

theorem witness_Reset : ∃ (s : State) (rest : List Event), s.busy = true ∧ s.agenda = .reset :: rest := ⟨busyWith 0x06000000 [.reset], [], rfl, rfl⟩

/-- PushesAppend, SymbolsAbove127AreRefused: the symbols at the border, TEXT and BITS one short of full, and codes for LOOKUP. -/
theorem witness_Pushes : (∃ s : State, (0x7F#8).toNat < 128 ∧ s.text.length + 1 = 4096) ∧ (∃ s : State, s.bits.length + 1 = 32768) ∧
    128 ≤ (0x80#8).toNat ∧ (aabTree [] []).treeValid = true ∧ (aabTree [] []).codesValid = true :=
  ⟨⟨{ State.reset with text := List.replicate 4095 0 }, by decide, congrArg (· + 1) List.length_replicate⟩, ⟨{ State.reset with bits := List.replicate 32767 true }, congrArg (· + 1) List.length_replicate⟩,
    by decide, rfl, rfl⟩

/-- A text of n copies of one symbol, each coded with len bits. -/
def longText (n : Nat) (len : BitVec 8) : State :=
  { State.reset with treeValid := true, codesValid := true, code := Vector.replicate 128 ⟨true, len, 0⟩, text := List.replicate n 0 }

theorem longText_length (n : Nat) (len : BitVec 8) : (longText n len).text.length = n := List.length_replicate

theorem longText_present (n : Nat) (len : BitVec 8) : ∀ x ∈ (longText n len).text, ((longText n len).codeAt x).present = true := by
  simp [longText, State.codeAt]

theorem longText_total (n : Nat) (len : BitVec 8) :
    ((longText n len).text.map fun x => ((longText n len).codeAt x).len.toNat).sum = n * len.toNat := by
  simp [longText, State.codeAt]

theorem witness_Capacity : (∃ s : State, (0x61#8).toNat < 128 ∧ s.text.length = 4096) ∧ (∃ s : State, s.bits.length = 32768) ∧
    ∃ s : State, s.treeValid = true ∧ s.codesValid = true ∧ 2 ≤ s.text.length ∧ (∀ x ∈ s.text, (s.codeAt x).present = true) ∧
      32768 < (s.text.map fun x => (s.codeAt x).len.toNat).sum :=
  ⟨⟨{ State.reset with text := List.replicate 4096 0 }, by decide, List.length_replicate⟩, ⟨{ State.reset with bits := List.replicate 32768 true }, List.length_replicate⟩,
    longText 4096 12, rfl, rfl, by rw [longText_length]; decide, longText_present _ _, by rw [longText_total]; decide⟩

theorem witness_BuildEmpty : State.reset.text = [] := rfl

theorem witness_BuildDepends : ∃ s s' : State, s.text ≠ s'.text ∧ s.text ≠ [] ∧ s.text.length = s'.text.length ∧ s.freq = s'.freq ∧ ∃ x, s.freqAt x ≠ 0 :=
  ⟨after (push aab), after (push [0x61, 0x62, 0x61]), by decide +kernel, by decide +kernel, by decide +kernel, by decide +kernel, 0x61, by decide +kernel⟩

theorem witness_Degenerate : ∃ (s : State) (x : Sym), s.BuffersOk ∧ s.text ≠ [] ∧ s.freqAt x ≠ 0 ∧ ∀ y, s.freqAt y ≠ 0 → y = x :=
  ⟨after (push [0x61, 0x61]), 0x61, (after_inv (by decide +kernel)).buffers, by decide +kernel, by decide +kernel, by decide +kernel⟩

/-- LeafSlotsAscend, BuildMergesTheLeastPair: two distinct symbols, and all 128. -/
theorem witness_TwoSymbols : (∃ s : State, s.text ≠ [] ∧ s.distinct = 2) ∧ ∃ s : State, s.text ≠ [] ∧ s.distinct = 128 :=
  ⟨⟨after (push aab), by decide +kernel⟩, { State.reset with text := [0], freq := Vector.replicate 128 1 }, by decide +kernel⟩

theorem witness_BuildConserves : (after (push [0x61])).BuffersOk ∧ (after (push [0x61])).text ≠ [] ∧
    (after (push aab)).BuffersOk ∧ (after (push aab)).text ≠ [] :=
  ⟨(after_inv (by decide +kernel)).buffers, by decide +kernel, (after_inv (by decide +kernel)).buffers, by decide +kernel⟩

theorem witness_Optimal : ∃ (s : State) (T : WeightTree), s.BuffersOk ∧ s.text ≠ [] ∧
    T.weights.Perm (s.usedSyms.map fun x => (s.freqAt x).toNat) :=
  ⟨after (push aaabbc), .node (.leaf 1) (.node (.leaf 3) (.leaf 2)), (after_inv (by decide +kernel)).buffers, by decide +kernel, by decide +kernel⟩

/-- The empty path stays at the root. -/
theorem pathTo_root {s : State} {j : Slot} (h : s.root = j) : s.PathTo s.root [] j := h

/-- One step from an internal root to a leaf. -/
theorem pathTo_one {s : State} {b : Bool} {j : Slot} (h1 : (s.nodeAt s.root).leaf = false) (h2 : s.child s.root b = j) : s.PathTo s.root [b] j := ⟨h1, h2⟩

theorem codesOf_aab_inv : (codesOf aab).Inv := after_inv (by decide +kernel)
theorem codesOf_aa_inv : (codesOf [0x61, 0x61]).Inv := after_inv (by decide +kernel)

/-- GencodeRecordsThePaths, CodeLengthsAreBounded: an internal root, and a leaf root; the path of 'b' and of the one symbol. -/
theorem witness_Gencode : (codesOf aab).Inv ∧ (codesOf aab).treeValid = true ∧ (codesOf aab).CodePath [true] 0x62 ∧
    (codesOf [0x61, 0x61]).Inv ∧ (codesOf [0x61, 0x61]).treeValid = true ∧ (codesOf [0x61, 0x61]).CodePath [] 0x61 :=
  ⟨codesOf_aab_inv, by decide +kernel, ⟨1, pathTo_one (by decide +kernel) (by decide +kernel), by decide +kernel, by decide +kernel⟩,
    codesOf_aa_inv, by decide +kernel, ⟨0, pathTo_root (by decide +kernel), by decide +kernel, by decide +kernel⟩⟩

theorem witness_PrefixFree : (codesOf aab).Inv ∧ (codesOf aab).codesValid = true ∧ ((codesOf aab).codeAt 0x61).present = true ∧
    ((codesOf aab).codeAt 0x62).present = true ∧ ((codesOf aab).nodeAt (codesOf aab).root).leaf = false :=
  ⟨codesOf_aab_inv, by decide +kernel, by decide +kernel, by decide +kernel, by decide +kernel⟩

/-- A present symbol, an absent one, and the ends of the range. -/
theorem witness_Lookup : (aabTree [] []).treeValid = true ∧ (aabTree [] []).codesValid = true ∧ (0x7F#8).toNat < 128 ∧
    (((aabTree [] []).code[0x61]?).map (·.present)) = some true ∧ (((aabTree [] []).code[0x7F]?).map (·.present)) = some false := by decide +kernel

/-- A text of codes that just fit BITS. -/
theorem witness_Encode : ∃ s : State, s.treeValid = true ∧ s.codesValid = true ∧ 2 ≤ s.text.length ∧
    (∀ x ∈ s.text, (s.codeAt x).present = true) ∧ (s.text.map fun x => (s.codeAt x).len.toNat).sum = 32768 :=
  ⟨longText 4096 8, rfl, rfl, by rw [longText_length]; decide, longText_present _ _, by rw [longText_total]; decide⟩

/-- A text of one symbol, and one whose second symbol is the first absent one. -/
theorem witness_EncodeRefusals : (∃ s : State, s.treeValid = true ∧ s.codesValid = true ∧ s.text.length = 1) ∧
    ∃ (s : State) (i : Nat) (x : Sym), s.treeValid = true ∧ s.codesValid = true ∧ 2 ≤ s.text.length ∧ s.text[i]? = some x ∧
      (s.codeAt x).present = false ∧ ∀ j y, j < i → s.text[j]? = some y → (s.codeAt y).present = true := by
  refine ⟨⟨longText 1 1, rfl, rfl, longText_length _ _⟩,
    aabTree [0x61, 0x63] [], 1, 0x63, rfl, rfl, by decide, rfl, by decide +kernel, fun j y hj h => ?_⟩
  obtain rfl : j = 0 := by omega
  obtain rfl : (0x61 : Sym) = y := Option.some.inj h
  decide +kernel

theorem witness_EncodedLength : ∃ b t s : State, b.BuffersOk ∧ exec .build b = .next t ∧ t.err = false ∧ s.Inv ∧ s.codesValid = true ∧
    s.nodes = t.nodes ∧ s.text = b.text ∧ s.freq = b.freq ∧ 2 ≤ s.text.length := by
  obtain ⟨t, h1, h2⟩ := next_of_nextWith (o := exec .build (after (push aab)))
    (p := fun t => !t.err && decide ((codesOf aab).nodes = t.nodes)) (by decide +kernel)
  simp only [Bool.and_eq_true, Bool.not_eq_true', decide_eq_true_eq] at h2
  exact ⟨_, t, codesOf aab, (after_inv (by decide +kernel)).buffers, h1, h2.1, codesOf_aab_inv, by decide +kernel, h2.2, by decide +kernel,
    by decide +kernel, by decide +kernel⟩

theorem witness_DegenerateEncode : (codesOf [0x61, 0x61]).Inv ∧ (codesOf [0x61, 0x61]).codesValid = true ∧
    ((codesOf [0x61, 0x61]).nodeAt (codesOf [0x61, 0x61]).root).leaf = true ∧ 2 ≤ (codesOf [0x61, 0x61]).text.length ∧
    (∀ x ∈ (codesOf [0x61, 0x61]).text, x = ((codesOf [0x61, 0x61]).nodeAt (codesOf [0x61, 0x61]).root).sym) ∧
    (codesOf [0x61, 0x61]).text.length = ((codesOf [0x61, 0x61]).nodeAt (codesOf [0x61, 0x61]).root).weight.toNat :=
  ⟨codesOf_aa_inv, by decide +kernel, by decide +kernel, by decide +kernel, by decide +kernel, by decide +kernel⟩

/-- DC2: three walks and a bit left over. -/
theorem witness_DecodeWalks : ∃ (s : State) (walks : List (List Bool × Slot)) (rest : List Bool), rest ≠ [] ∧ s.treeValid = true ∧
    (s.nodeAt s.root).leaf = false ∧ walks.length = (s.nodeAt s.root).weight.toNat ∧
    (∀ w ∈ walks, s.PathTo s.root w.1 w.2 ∧ (s.nodeAt w.2).leaf = true) ∧ s.bits = (walks.flatMap fun w => w.1) ++ rest := by
  refine ⟨aabTree [] [false, false, true, true], [([false], 0), ([false], 0), ([true], 1)], [true], by decide, by decide +kernel, by decide +kernel,
    by decide +kernel, ?_, by decide +kernel⟩
  simp only [List.mem_cons, List.not_mem_nil, or_false, forall_eq_or_imp, forall_eq]
  exact ⟨⟨pathTo_one (by decide +kernel) (by decide +kernel), by decide +kernel⟩, ⟨pathTo_one (by decide +kernel) (by decide +kernel), by decide +kernel⟩,
    pathTo_one (by decide +kernel) (by decide +kernel), by decide +kernel⟩

theorem witness_DegenerateDecode : leafTree.treeValid = true ∧ (leafTree.nodeAt leafTree.root).leaf = true := by decide

/-- DC3: one whole walk, then no bit. -/
theorem witness_Underrun : ∃ (s : State) (walks : List (List Bool × Slot)) (part : List Bool) (j : Slot), s.treeValid = true ∧
    walks.length < (s.nodeAt s.root).weight.toNat ∧ (∀ w ∈ walks, s.PathTo s.root w.1 w.2 ∧ (s.nodeAt w.2).leaf = true) ∧
    s.PathTo s.root part j ∧ (s.nodeAt j).leaf = false ∧ s.bits = (walks.flatMap fun w => w.1) ++ part := by
  refine ⟨aabTree [] [false], [([false], 0)], [], 2, by decide +kernel, by decide +kernel, ?_, pathTo_root (by decide +kernel), by decide +kernel,
    by decide +kernel⟩
  simp only [List.mem_cons, List.not_mem_nil, or_false, forall_eq]
  exact ⟨pathTo_one (by decide +kernel) (by decide +kernel), by decide +kernel⟩

/-- A leaf root; a child that is a leaf; a child that is internal ("aaabbc": slot 0 on 1, slot 3 on 0). -/
theorem witness_Walk : leafTree.treeValid = true ∧ (leafTree.nodeAt leafTree.root).leaf = true ∧
    aaabbcTree.treeValid = true ∧ (aaabbcTree.nodeAt aaabbcTree.root).leaf = false ∧
    (aaabbcTree.nodeAt (aaabbcTree.nodeAt aaabbcTree.walkCur).right).leaf = true ∧
    (aaabbcTree.nodeAt (aaabbcTree.nodeAt aaabbcTree.walkCur).left).leaf = false := by decide

theorem witness_Wrst : aaabbcTree.treeValid = true := rfl

theorem witness_WalkAgrees : ∃ s t : State, s.Inv ∧ (s.nodeAt s.root).leaf = false ∧ exec .decode s = .next t ∧ t.err = false := by
  obtain ⟨t, h1, h2⟩ := next_of_nextWith (o := exec .decode (after (push [0x61, 0x62] ++ [.build, .gencode, .encode]))) (p := fun t => !t.err) (by decide +kernel)
  exact ⟨_, t, after_inv (by decide +kernel), by decide +kernel, h1, by simpa using h2⟩

theorem witness_RoundTrip : (∃ t : List Sym, t.length = 2) ∧ ∃ t : List Sym, 2 ≤ t.length ∧ t.length = 4096 :=
  ⟨⟨[0, 127], rfl⟩, List.replicate 4096 0, by rw [List.length_replicate]; decide, List.length_replicate⟩

theorem witness_DecodeUndoes : ∃ s e : State, s.Inv ∧ s.treeValid = true ∧ s.text.length = (s.nodeAt s.root).weight.toNat ∧
    exec .encode s = .next e ∧ e.err = false := by
  obtain ⟨e, h1, h2⟩ := next_of_nextWith (o := exec .encode (codesOf aab)) (p := fun t => !t.err) (by decide +kernel)
  exact ⟨_, e, codesOf_aab_inv, by decide +kernel, by decide +kernel, h1, by simpa using h2⟩

/-- ErrorsChangeNothingElse, EachCommandRaisesItsErrors, OnlyTheNamedCommandsWrite: a command and an illegal word that end in an error. -/
theorem witness_Errors : (∃ (i : Instr) (s t : State), exec i s = .next t ∧ t.err = true) ∧ ∃ s t : State, engineStep s = .next t ∧ t.err = true :=
  ⟨⟨.build, State.reset, _, rfl, rfl⟩, busyWith 0x0D000000 [], _, rfl, rfl⟩

/-- CompletionSetsTheFlags: a success and an error. -/
theorem witness_Completion : (∃ s t : State, engineStep s = .next t ∧ t.err = false) ∧ ∃ s t : State, engineStep s = .next t ∧ t.err = true :=
  ⟨⟨busyWith 0 [], _, rfl, rfl⟩, busyWith 0x06000000 [], _, rfl, rfl⟩

theorem witness_EarlierChecks : IllegalWord (busyWith 0x04000180 []).lastCmd ∧ State.reset.treeValid = false ∧
    (aaabbcTree.treeValid = true ∧ aaabbcTree.codesValid = false) ∧
    (128 ≤ (0x80#8).toNat ∧ ∃ s : State, s.text.length = 4096) ∧
    (∃ s : State, s.treeValid = true ∧ s.codesValid = true ∧ s.text.length < 2 ∧ ∃ x ∈ s.text, (s.codeAt x).present = false) ∧
    ∃ s : State, s.treeValid = true ∧ s.codesValid = true ∧ 2 ≤ s.text.length ∧ s.text[0]? = some 0x63 ∧ (s.codeAt 0x63).present = false :=
  ⟨by unfold IllegalWord; decide +kernel, rfl, ⟨rfl, rfl⟩, ⟨by decide, { State.reset with text := List.replicate 4096 0 }, List.length_replicate⟩,
    ⟨aabTree [0x63] [], rfl, rfl, by decide, 0x63, by decide, by decide +kernel⟩, aabTree [0x63, 0x61] [], rfl, rfl, by decide, rfl, by decide +kernel⟩

/-- StepKeepsFlagsAndBuffers, StepKeepsTheInvariant, NothingStopsTheMachine: a state that meets the invariant, and its step. -/
theorem witness_Invariant : ∃ s t : State, s.Inv ∧ s.StatusOk ∧ s.BuffersOk ∧ step s = .next t := by
  obtain ⟨t, h1, -⟩ := next_of_nextWith (o := step (codesOf aab)) (p := fun _ => true) (by decide +kernel)
  exact ⟨_, t, codesOf_aab_inv, codesOf_aab_inv.status, codesOf_aab_inv.buffers, h1⟩

theorem witness_Scripts : (∃ ls ws, assemble ls = .ok ws ∧ ws = [0x04000061#32, 0x06000000#32]) ∧ 255 < 256 ∧ 1 < 2 :=
  ⟨⟨[.pushs 0x61, .build], _, rfl, by decide⟩, by decide, by decide⟩

theorem witness_Pseudo : (∀ k ∈ ['a', 'z'], k.toNat ≤ 255) ∧ (∀ k ∈ ['0', '1'], k = '0' ∨ k = '1') ∧
    '2' ∈ ['0', '2'] ∧ '2' ≠ '0' ∧ '2' ≠ '1' :=
  ⟨by simp, by simp, by decide, by decide, by decide⟩

/-- A script of two equal commands, from a busy state. -/
theorem witness_ScriptCommand : ∃ (s t u : State) (cmds : List (Nat × Instr)) (polls : Nat) (rest : List Event), s.busy = true ∧
    cmds ≠ [] ∧ s.agenda = scriptEvents (cmds.map fun p => (p.1, encode p.2)) polls ++ rest ∧ engineTurn s = .next t ∧
    runScript (cmds.map fun p => p.2) t = .next u :=
  ⟨busyWith 0 (scriptEvents [(2, encode (.pushb true)), (0, encode (.pushb true))] 1 ++ [.reset]), _, _,
    [(2, .pushb true), (0, .pushb true)], 1, [.reset], rfl, by simp, rfl, rfl, rfl⟩

end Sys2Proof.Tests
end

