-- ==== Sys2Proof/Proofs/StepInvariant.lean ====
section
/-! PROOFS. Every step keeps the invariant (spec/10_state.md R25-R48), part by part: the flags, the buffers, the tree with its codes
and the walk. Each part goes by the ways a step can go (`step_cases`). -/

namespace Sys2Proof.Machine

/-! ### Reset -/

/-- The flags agree after reset, whatever the model's own fields hold. -/
theorem statusOk_reset (a : List Event) (n : Nat) : ({ State.reset with agenda := a, draws := n } : State).StatusOk :=
  ⟨nofun, ⟨nofun, fun h => absurd rfl h⟩, fun _ => rfl, fun _ _ => rfl⟩

/-- The tree part of the invariant holds after reset: there is no tree. -/
theorem treeStateOk_reset (a : List Event) (n : Nat) : ({ State.reset with agenda := a, draws := n } : State).TreeStateOk :=
  treeState_noTree rfl rfl rfl rfl rfl rfl rfl rfl (memory_congr memory_wf_reset rfl rfl rfl rfl rfl rfl)

/-- Settles O54: each part of the invariant holds after reset. -/
theorem resetMeetsTheInvariant : Obligations.ResetMeetsTheInvariant :=
  ⟨statusOk_reset [] 0, buffersOk_reset [] 0, treeStateOk_reset [] 0⟩

/-! ### The engine's step -/

/-- The completion flags, OVR, LAST_CMD and the model's own fields are no part of the tree's, the codes' and the walk's agreement. -/
theorem treeStateOk_flags {s : State} (I : s.TreeStateOk) (b d e o : Bool) (c : ErrCode) (info v : Word) (a : List Event)
    (r : Option Reply) (n : Nat) :
    ({ s with busy := b, done := d, err := e, ovr := o, errCode := c, errInfo := info,
              lastCmd := v, agenda := a, reply := r, draws := n } : State).TreeStateOk :=
  treeStateOk_congr I rfl rfl rfl rfl rfl rfl rfl rfl rfl (memory_congr I.memory rfl rfl rfl rfl rfl rfl)

/-- Whatever ran, an engine step leaves flags that agree: it completes, with an error or without (R206, R207). -/
theorem engineStep_statusOk {s t : State} (h : engineStep s = .next t) : t.StatusOk := by
  rcases engineStep_end h with ⟨c, info, hc, rfl⟩ | ⟨u, rfl⟩
  · exact statusOk_completeErr hc
  · exact statusOk_completeOk

/-- An engine step keeps R37 and the capacities. -/
theorem engineStep_keeps_buffers {s t : State} (B : s.BuffersOk) (h : engineStep s = .next t) : t.BuffersOk := by
  rcases engineStep_cases h with ⟨i, -, hi⟩ | ⟨e, -, rfl⟩
  · exact exec_keeps_buffers B hi
  · exact buffersOk_congr B rfl rfl rfl rfl

/-- An engine step keeps the tree part of the invariant. -/
theorem engineStep_keeps_tree {s t : State} (B : s.BuffersOk) (I : s.TreeStateOk) (h : engineStep s = .next t) : t.TreeStateOk := by
  rcases engineStep_cases h with ⟨i, -, hi⟩ | ⟨e, -, rfl⟩
  · exact exec_keeps_tree B I hi
  · exact treeStateOk_flags I ..

/-! ### Every step -/

/-- Every step keeps the flags in agreement. A STATUS write keeps even the state after reset, whose OVR is 0 already. -/
theorem step_keeps_status {s t : State} (S : s.StatusOk) (h : step s = .next t) : t.StatusOk := by
  rcases step_cases h with ⟨r, a, n, rfl⟩ | ⟨v, r, a, -, rfl⟩ | ⟨r, a, hb, rfl⟩ | ⟨r, a, rfl⟩ | ⟨a, rfl⟩ | ⟨-, a, he⟩
  · exact fresh_status S rfl rfl rfl rfl rfl fun e => by rw [e]
  · exact ⟨fun _ => ⟨rfl, rfl, rfl, rfl⟩, ⟨nofun, fun h => absurd rfl h⟩, fun _ => rfl, nofun⟩
  · exact ⟨S.busyClear, S.errIff, S.infoZero, fun hf => absurd (hb.symm.trans hf) (by decide)⟩
  · exact fresh_status S rfl rfl rfl rfl rfl fun e => by rw [e]; rfl
  · exact statusOk_reset a s.draws
  · exact engineStep_statusOk he

/-- Every step keeps R37 and the capacities: only the engine and reset write a buffer. -/
theorem step_keeps_buffers {s t : State} (B : s.BuffersOk) (h : step s = .next t) : t.BuffersOk := by
  rcases step_cases h with ⟨r, a, n, rfl⟩ | ⟨v, r, a, -, rfl⟩ | ⟨r, a, -, rfl⟩ | ⟨r, a, rfl⟩ | ⟨a, rfl⟩ | ⟨-, a, he⟩
  · exact buffersOk_congr B rfl rfl rfl rfl
  · exact buffersOk_congr B rfl rfl rfl rfl
  · exact buffersOk_congr B rfl rfl rfl rfl
  · exact buffersOk_congr B rfl rfl rfl rfl
  · exact buffersOk_reset a s.draws
  · exact engineStep_keeps_buffers (s := { s with agenda := a }) (buffersOk_congr B rfl rfl rfl rfl) he

/-- Every step keeps the tree part of the invariant: only the engine and reset write the tree, the codes or the walk. -/
theorem step_keeps_tree {s t : State} (B : s.BuffersOk) (I : s.TreeStateOk) (h : step s = .next t) : t.TreeStateOk := by
  rcases step_cases h with ⟨r, a, n, rfl⟩ | ⟨v, r, a, -, rfl⟩ | ⟨r, a, -, rfl⟩ | ⟨r, a, rfl⟩ | ⟨a, rfl⟩ | ⟨-, a, he⟩
  · exact treeStateOk_flags I ..
  · exact treeStateOk_flags I ..
  · exact treeStateOk_flags I ..
  · exact treeStateOk_flags I ..
  · exact treeStateOk_reset a s.draws
  · exact engineStep_keeps_tree (s := { s with agenda := a }) (buffersOk_congr B rfl rfl rfl rfl) (treeStateOk_flags I ..) he

/-- Settles O55: the flags and the buffers are each inductive by themselves. -/
theorem stepKeepsFlagsAndBuffers : Obligations.StepKeepsFlagsAndBuffers :=
  ⟨fun _ _ S h => step_keeps_status S h, fun _ _ B h => step_keeps_buffers B h⟩

/-- Settles O56: the three parts together; the tree part leans on the buffers, since BUILD makes its tree of FREQ and TEXT. -/
theorem stepKeepsTheInvariant : Obligations.StepKeepsTheInvariant := fun _ _ I h =>
  ⟨step_keeps_status I.status h, step_keeps_buffers I.buffers h, step_keeps_tree I.buffers I.treeState h⟩

end Sys2Proof.Machine
end

