-- ==== Sys2Proof/Proofs/CommandFrame.lean ====
section
/-! PROOFS. What each command leaves unchanged: the "written by" column of spec/10_state.md R22. -/

namespace Sys2Proof.Machine

/-- Settles O51: command by command, along the ways each can end. Every ending is an update of the state before, and the lemmas
of the updates' fields say which fields it writes. -/
theorem onlyTheNamedCommandsWrite : Obligations.OnlyTheNamedCommandsWrite := by
  intro i s t h
  cases i with
  | nop => obtain rfl := succeed_next.1 h; simp
  | clear => obtain rfl := succeed_next.1 h; simp
  | clrtxt => obtain rfl := succeed_next.1 h; simp
  | clrbits => obtain rfl := succeed_next.1 h; simp
  | pushs x => rcases execPushs_cases h with ⟨-, rfl⟩ | ⟨-, -, rfl⟩ | ⟨-, -, rfl⟩ <;> simp
  | pushb b => rcases execPushb_cases h with ⟨-, rfl⟩ | ⟨-, rfl⟩ <;> simp
  | build => rcases execBuild_cases h with ⟨-, rfl⟩ | ⟨-, rfl⟩ <;> simp
  | gencode => rcases execGencode_cases h with ⟨-, rfl⟩ | ⟨-, rom, -, rfl⟩ <;> simp
  | lookup x =>
    rcases execLookup_cases h with ⟨-, rfl⟩ | ⟨-, -, rfl⟩ | ⟨-, -, -, rfl⟩ | ⟨-, -, -, -, rfl⟩ | ⟨-, -, -, -, rfl⟩ <;> simp
  | encode =>
    rcases execEncode_cases h with ⟨-, rfl⟩ | ⟨-, -, rfl⟩ | ⟨-, -, -, rfl⟩ | ⟨-, -, -, i, -, rfl⟩ | ⟨-, -, -, -, -, rfl⟩ |
      ⟨-, -, -, -, -, rfl⟩ <;> simp
  | decode =>
    rcases execDecode_cases h with ⟨-, rfl⟩ | ⟨-, -, rfl⟩ | ⟨-, -, m, -, rfl⟩ | ⟨-, -, o, rest, -, rfl⟩ <;> simp
  | walk b => rcases execWalk_cases h with ⟨-, rfl⟩ | ⟨-, -, rfl⟩ | ⟨-, -, -, rfl⟩ | ⟨-, -, -, rfl⟩ <;> simp
  | wrst => rcases execWrst_cases h with ⟨-, rfl⟩ | ⟨-, rfl⟩ <;> simp

end Sys2Proof.Machine
end

