-- ==== Sys2Proof/Proofs/Registers.lean ====
section
/-! PROOFS. The registers of spec/10_state.md: STATUS (R25-R32), DISTINCT (R36), and the values after reset (R50, R241). -/

namespace Sys2Proof.Machine

/-! ### STATUS -/

/-- A field of a word, by its bits. -/
theorem extractLsb'_eq_of_getLsbD {m n w : Nat} {x : BitVec m} {y : BitVec w} (h : ∀ j < w, x.getLsbD (n + j) = y.getLsbD j) :
    x.extractLsb' n w = y :=
  BitVec.eq_of_getLsbD_eq fun j hj => by rw [BitVec.getLsbD_extractLsb', h j hj, decide_eq_true hj, Bool.true_and]

/-- The bits of STATUS (R63). -/
theorem status_getLsbD (s : State) (j : Nat) : s.status.getLsbD j =
    if j < 1 then s.busy else if j < 2 then s.done else if j < 3 then s.err else if j < 4 then s.ovr
    else if j < 5 then s.treeValid else if j < 6 then s.codesValid else if j < 8 then false
    else if j < 12 then s.errCode.code.getLsbD (j - 8) else false := by
  show (0#20 ++ (s.errCode.code ++ (0#2 ++ (flagBit s.codesValid ++ (flagBit s.treeValid ++ (flagBit s.ovr ++
    (flagBit s.err ++ (flagBit s.done ++ flagBit s.busy))))))) : BitVec (20 + (4 + (2 + (1 + (1 + (1 + (1 + (1 + 1))))))))).getLsbD j = _
  simp only [BitVec.getLsbD_append, flagBit, BitVec.getLsbD_ofBool]
  by_cases low : j < 12
  · interval_cases j <;> simp
  · simp only [show ¬ j < 1 by omega, show ¬ j < 2 by omega, show ¬ j < 3 by omega, show ¬ j < 4 by omega, show ¬ j < 5 by omega,
      show ¬ j < 6 by omega, show ¬ j < 8 by omega, low, if_false]
    simp

/-- Settles O13: each flag and each field by its bits; the errors' codes are R201's by cases of the error. -/
theorem statusPacksTheFlags : Obligations.StatusPacksTheFlags := by
  intro s
  have errCode : s.status.extractLsb' 8 4 = s.errCode.code := extractLsb'_eq_of_getLsbD fun j hj => by
    rw [status_getLsbD]; interval_cases j <;> rfl
  have zeros : s.status.extractLsb' 6 2 = 0 := extractLsb'_eq_of_getLsbD fun j hj => by
    rw [status_getLsbD]; interval_cases j <;> rfl
  have top : s.status.extractLsb' 12 20 = 0 := extractLsb'_eq_of_getLsbD fun j hj => by
    rw [status_getLsbD]; interval_cases j <;> rfl
  refine ⟨status_getLsbD s 0, status_getLsbD s 1, status_getLsbD s 2, status_getLsbD s 3, status_getLsbD s 4, status_getLsbD s 5,
    zeros, top, ?_⟩
  rw [errCode]
  cases s.errCode <;> rfl

/-! ### DISTINCT -/

/-- DISTINCT as a cardinality: the used symbols are the symbols with FREQ > 0, each once. -/
theorem distinct_eq_card (s : State) : s.distinct = (Finset.univ.filter fun x : Sym => s.freqAt x ≠ 0).card := by
  rw [State.distinct, ← List.toFinset_card_of_nodup (usedSyms_nodup s)]
  congr 1
  ext x
  simp [mem_usedSyms]

/-- Settles O15: the list of used symbols has no repetition, and no symbol is used after reset. -/
theorem distinctCountsUsedSymbols : Obligations.DistinctCountsUsedSymbols := by
  refine ⟨fun s => ⟨distinct_eq_card s, usedSyms_length_le s⟩, ?_⟩
  rw [distinct_eq_card]
  simp [State.freqAt, State.reset]

/-! ### The next event -/

/-- The event at the head of the agenda is the step. -/
theorem step_of_agenda {s : State} {e : Event} {rest : List Event} (h : s.agenda = e :: rest) :
    step s = perform e { s with agenda := rest } := by
  unfold step nextEvent
  rw [h]

/-- Settles O21: the reset event puts every field but the model's own at its reset value. -/
theorem resetGivesResetValues : Obligations.ResetGivesResetValues := by
  intro s rest h
  refine ⟨resetEvent { s with agenda := rest }, step_of_agenda h, rfl, rfl, rfl, rfl, rfl, rfl, rfl, rfl, rfl, rfl, fun x => ?_,
    rfl, rfl, rfl, rfl, rfl, fun x => ?_, rfl, rfl, rfl, rfl, rfl, rfl, ?_⟩
  · simp [State.freqAt, resetEvent, State.reset]
  · simp [State.codeAt, resetEvent, State.reset]
  · exact readsAs_of_locate _ 0x000 .id (by decide) rfl rfl (.inl rfl)

end Sys2Proof.Machine
end

