-- ==== Sys2Proof/Proofs/Overrun.lean ====
section
/-! PROOFS. OVR is sticky (spec/10_state.md R28, spec/20_memory.md R66): what a host write can do, and what a step can do to OVR. -/

namespace Sys2Proof.Machine

/-! ### Host writes -/

/-- What a write to STATUS does: bit 3 clears OVR, every other bit is ignored (R66). -/
theorem writeLoc_status (s : State) (v : Word) : writeLoc s .status v = { s with ovr := if v.getLsbD 3 then false else s.ovr } := by
  cases hv : v.getLsbD 3 <;> simp only [writeLoc, hv] <;> rfl

/-- A write of a whole word to CMD. -/
theorem hostWrite_cmd (s : State) (v : Word) : hostWrite s 0x004 4 0xF v = (writeLoc s .cmd v).answer (.writeResp .okay) := rfl

/-- A write of a whole word to STATUS. -/
theorem hostWrite_status (s : State) (v : Word) : hostWrite s 0x008 4 0xF v = (writeLoc s .status v).answer (.writeResp .okay) := rfl

/-- An access that reaches a location is one word wide, and CMD and STATUS are reached at one offset each. -/
theorem accessLoc_active {a : Offset} {size : Nat} {l : Loc} (h : accessLoc a size = some l) :
    size = 4 ∧ (l = .cmd → a = 0x004) ∧ (l = .status → a = 0x008) := by
  have hs : (accessLoc a size).isSome = true := by rw [h]; rfl
  obtain ⟨h4, rfl, -⟩ := (accessLoc_isSome a size).1 hs
  have hl : locate a.toNat = some l := by simpa [accessLoc, accessOk, h4] using h
  obtain ⟨hc, hst, -⟩ := locate_active a.toNat l hl h4
  exact ⟨rfl, fun e => BitVec.eq_of_toNat_eq (hc e), fun e => BitVec.eq_of_toNat_eq (hst e)⟩

/-- A host write acts at CMD or at STATUS, and anywhere else it is only answered (R62, R65). -/
theorem hostWrite_cases (s : State) (a : Offset) (size : Nat) (strobes : BitVec 4) (v : Word) :
    (∃ r, hostWrite s a size strobes v = s.answer r) ∨
    (a = 0x004 ∧ size = 4 ∧ strobes = 0xF ∧ hostWrite s a size strobes v = (writeLoc s .cmd v).answer (.writeResp .okay)) ∨
    (a = 0x008 ∧ size = 4 ∧ strobes = 0xF ∧ hostWrite s a size strobes v = (writeLoc s .status v).answer (.writeResp .okay)) := by
  unfold hostWrite
  split
  · split
    · exact .inl ⟨_, rfl⟩
    · rename_i l hl
      obtain ⟨hsize, hcmd, hstatus⟩ := accessLoc_active hl
      cases l with
      | cmd => exact .inr (.inl ⟨hcmd rfl, hsize, ‹_›, rfl⟩)
      | status => exact .inr (.inr ⟨hstatus rfl, hsize, ‹_›, rfl⟩)
      | _ => exact .inl ⟨_, rfl⟩
  · exact .inl ⟨_, rfl⟩

/-! ### What a step does to OVR -/

/-- A host read leaves OVR. -/
@[simp] theorem hostRead_ovr (s : State) (a : Offset) (size : Nat) : (hostRead s a size).ovr = s.ovr := by
  unfold hostRead
  split
  · rfl
  · split <;> rfl

/-- OVR after a write to CMD. -/
theorem writeLoc_cmd_ovr (s : State) (v : Word) : (writeLoc s .cmd v).ovr = (s.busy || s.ovr) := by
  cases hb : s.busy <;> simp [writeLoc, hb]

/-- The engine leaves OVR: no command writes it. -/
theorem engineStep_ovr {s t : State} (h : engineStep s = .next t) : t.ovr = s.ovr := by
  rcases engineStep_cases h with ⟨i, -, hi⟩ | ⟨e, -, rfl⟩
  · obtain ⟨⟨hovr, -⟩, -⟩ := onlyTheNamedCommandsWrite i s t hi
    exact hovr
  · rfl

/-- The engine's turn leaves OVR. -/
theorem engineTurn_ovr {s t : State} (h : engineTurn s = .next t) : t.ovr = s.ovr := by
  unfold engineTurn at h
  split at h
  · exact engineStep_ovr h
  · cases h; rfl

/-- The steps that write OVR: a CMD write while busy, a STATUS write with bit 3 set, and reset. -/
theorem step_ovr {s t : State} (h : step s = .next t) :
    t.ovr = s.ovr ∨
    (t.ovr = true ∧ s.busy = true ∧ ∃ v rest, s.agenda = .hostWrite 0x004 4 0xF v :: rest) ∨
    (t.ovr = false ∧ ((∃ v rest, s.agenda = .hostWrite 0x008 4 0xF v :: rest ∧ v.getLsbD 3 = true) ∨
      ∃ rest, s.agenda = .reset :: rest)) := by
  cases ha : s.agenda with
  | nil =>
    unfold step nextEvent at h
    rw [ha] at h
    exact .inl (engineTurn_ovr h)
  | cons e rest =>
    rw [step_of_agenda ha] at h
    cases e with
    | engineTurn => exact .inl (engineTurn_ovr (s := { s with agenda := rest }) h)
    | reset => cases h; exact .inr (.inr ⟨rfl, .inr ⟨rest, rfl⟩⟩)
    | hostRead a size => cases h; exact .inl (hostRead_ovr ..)
    | hostWrite a size strobes v =>
      obtain rfl := Host.Outcome.next.inj h
      rcases hostWrite_cases { s with agenda := rest } a size strobes v with ⟨r, hw⟩ | ⟨rfl, rfl, rfl, hw⟩ | ⟨rfl, rfl, rfl, hw⟩
      · exact .inl (by rw [hw]; rfl)
      · rw [hw]
        have hovr := writeLoc_cmd_ovr { s with agenda := rest } v
        cases hb : s.busy with
        | true => exact .inr (.inl ⟨by simpa [hb] using hovr, rfl, v, rest, rfl⟩)
        | false => exact .inl (by simpa [hb] using hovr)
      · rw [hw, writeLoc_status]
        cases hv : v.getLsbD 3 with
        | true => exact .inr (.inr ⟨rfl, .inl ⟨v, rest, rfl, hv⟩⟩)
        | false => exact .inl rfl

/-- Settles O8: the writes to STATUS and CMD and the reset are computed, and `step_ovr` says that nothing else writes OVR. -/
theorem overrunIsSticky : Obligations.OverrunIsSticky := by
  refine ⟨fun s v rest ha => ?_, fun s t v rest hb ha h => ?_, fun s t h hs ht => ?_, fun s t h hs ht => ?_, fun s t rest ha h => ?_⟩
  · rw [step_of_agenda ha, perform, hostWrite_status, writeLoc_status]
    rfl
  · rw [step_of_agenda ha, perform, hostWrite_cmd] at h
    obtain rfl := Host.Outcome.next.inj h
    simp [writeLoc_cmd_ovr, hb]
  · rcases step_ovr h with e | ⟨-, hw⟩ | ⟨e, -⟩
    · exact absurd (hs.symm.trans (e.symm.trans ht)) (by decide)
    · exact hw
    · exact absurd (e.symm.trans ht) (by decide)
  · rcases step_ovr h with e | ⟨e, -⟩ | ⟨-, hw⟩
    · exact absurd (hs.symm.trans (e.symm.trans ht)) (by decide)
    · exact absurd (e.symm.trans ht) (by decide)
    · exact hw
  · rw [step_of_agenda ha] at h
    obtain rfl := Host.Outcome.next.inj h
    rfl

end Sys2Proof.Machine
end

