-- ==== Sys2Proof/Proofs/HostAccess.lean ====
section
/-! PROOFS. Host accesses (spec/20_memory.md R61, R62, R65, R72): which are served, what each kind of access does to the state,
and which steps write the internal memories. -/

namespace Sys2Proof.Machine

/-! ### Host reads -/

/-- A read that reaches no location (R62). -/
theorem hostRead_error {s : State} {a : Offset} {size : Nat} (h : accessLoc a size = none) :
    hostRead s a size = s.answer (.readData 0 .error) := by rw [hostRead, h]

/-- While busy, a read of any location but ID, CMD and STATUS is a draw (R72). -/
theorem hostRead_draw {s : State} {a : Offset} {size : Nat} {l : Loc} (h : accessLoc a size = some l) (hb : s.busy = true)
    (hl : l.readableBusy = false) : hostRead s a size = s.answerDraw := by simp [hostRead, h, hb, hl]

/-- A read that reaches a location gets OKAY, and writes the port's answer and the draw counter only (R65). -/
theorem hostRead_okay {s : State} {a : Offset} {size : Nat} {l : Loc} (h : accessLoc a size = some l) :
    ∃ d n, hostRead s a size = { s with reply := some (.readData d .okay), draws := n } := by
  rw [hostRead, h]
  dsimp only
  split
  · exact ⟨_, _, rfl⟩
  · exact ⟨_, s.draws, rfl⟩

/-- An access that reaches a location is aligned, at an offset the map gives that location (R62, R63). -/
theorem accessLoc_eq_some {a : Offset} {size : Nat} {l : Loc} (h : accessLoc a size = some l) :
    a.toNat % 4 = 0 ∧ locate a.toNat = some l := by
  have hs : (accessLoc a size).isSome = true := by rw [h]; rfl
  obtain ⟨h4, rfl, -⟩ := (accessLoc_isSome a size).1 hs
  exact ⟨h4, by simpa [accessLoc, accessOk, h4] using h⟩

/-- The locations that read their value while busy are at offsets up to 0x008 (R63, R72). -/
theorem accessLoc_readableBusy {a : Offset} {size : Nat} {l : Loc} (h : accessLoc a size = some l) (ha : 0x008 < a.toNat) :
    l.readableBusy = false := by
  obtain ⟨h4, hl⟩ := accessLoc_eq_some h
  obtain ⟨hcmd, hstatus, hid⟩ := locate_active a.toNat l hl h4
  cases l with
  | id => have := hid rfl; omega
  | cmd => have := hcmd rfl; omega
  | status => have := hstatus rfl; omega
  | _ => rfl

/-! ### Host writes -/

/-- A write to a location other than CMD and STATUS is ignored (R65). -/
theorem writeLoc_ignored (s : State) {l : Loc} (v : Word) (hcmd : l ≠ .cmd) (hstatus : l ≠ .status) : writeLoc s l v = s := by
  cases l with
  | cmd => exact absurd rfl hcmd
  | status => exact absurd rfl hstatus
  | _ => rfl

/-- A write of a whole word that reaches a location gets OKAY. -/
theorem hostWrite_okay {s : State} {a : Offset} {size : Nat} {v : Word} {l : Loc} (h : accessLoc a size = some l) :
    hostWrite s a size 0xF v = (writeLoc s l v).answer (.writeResp .okay) := by rw [hostWrite, h]; rfl

/-- A write with a strobe missing, or one that reaches no location (R62). -/
theorem hostWrite_error {s : State} {a : Offset} {size : Nat} {strobes : BitVec 4} {v : Word}
    (h : strobes ≠ 0xF ∨ accessLoc a size = none) : hostWrite s a size strobes v = s.answer (.writeResp .error) := by
  unfold hostWrite
  split
  · rw [h.resolve_left (not_not_intro ‹_›)]
  · rfl

/-! ### Which accesses act, and what they answer -/

/-- Settles O9: a mapped aligned access reaches a location, and CMD and STATUS are at 0x004 and 0x008 alone. -/
theorem onlyCmdAndStatusWritesAct : Obligations.OnlyCmdAndStatusWritesAct := by
  intro s a rest h4 hm
  obtain ⟨l, hl⟩ := accessLoc_some a h4 hm
  refine ⟨fun v hcmd hstatus ha => ?_, fun ha => ?_⟩
  · obtain ⟨-, atCmd, atStatus⟩ := accessLoc_active hl
    rw [step_of_agenda ha, perform, hostWrite_okay hl, writeLoc_ignored _ v (mt atCmd hcmd) (mt atStatus hstatus)]
    rfl
  · obtain ⟨d, n, hr⟩ := hostRead_okay (s := { s with agenda := rest }) hl
    exact ⟨d, n, by rw [step_of_agenda ha, perform, hr]⟩

/-- Settles O10: each of the bad accesses reaches no location, or is a write with a strobe missing. -/
theorem badAccessesGetError : Obligations.BadAccessesGetError := by
  intro s a size rest
  refine ⟨fun ha bad => ?_, fun strobes v ha bad => ?_⟩
  · rw [step_of_agenda ha, perform, hostRead_error (accessLoc_none a size bad)]
    rfl
  · have bad : strobes ≠ 0xF ∨ accessLoc a size = none := by
      rcases bad with h | h | h | h
      · exact .inr (accessLoc_none a size (.inl h))
      · exact .inr (accessLoc_none a size (.inr (.inl h)))
      · exact .inl h
      · exact .inr (accessLoc_none a size (.inr (.inr h)))
    rw [step_of_agenda ha, perform, hostWrite_error bad]
    rfl

/-- Settles O11: beyond 0x008 no location is readable while busy, so the read is a draw. -/
theorem busyReadsAreDraws : Obligations.BusyReadsAreDraws := by
  intro s hb
  refine ⟨readsAs_of_locate s 0x000 .id (by decide) rfl rfl (.inr rfl), readsAs_of_locate s 0x004 .cmd (by decide) rfl rfl (.inr rfl),
    readsAs_of_locate s 0x008 .status (by decide) rfl rfl (.inr rfl), fun a rest h4 hm h8 ha => ?_⟩
  obtain ⟨l, hl⟩ := accessLoc_some a h4 hm
  rw [step_of_agenda ha, perform, hostRead_draw (s := { s with agenda := rest }) hl hb (accessLoc_readableBusy hl h8)]
  rfl

/-! ### Who writes the internal memories -/

/-- The six internal memories are the same (R61). -/
def SameMemories (s t : State) : Prop :=
  t.text = s.text ∧ t.freq = s.freq ∧ t.bits = s.bits ∧ t.out = s.out ∧ t.nodes = s.nodes ∧ t.code = s.code

/-- The nine commands that bring data to the internal memories (R61). -/
def WritesMemories (i : Instr) : Prop :=
  (∃ x, i = .pushs x) ∨ (∃ b, i = .pushb b) ∨ i ∈ [.build, .gencode, .encode, .decode, .clrtxt, .clrbits, .clear]

/-- A command other than the nine leaves the memories: none of them is named as written by it (R22). -/
theorem exec_sameMemories {i : Instr} {s t : State} (h : exec i s = .next t) (hi : ¬ WritesMemories i) : SameMemories s t := by
  obtain ⟨-, tree, -, text, bits, -, out, code, -⟩ := onlyTheNamedCommandsWrite i s t h
  have other (j : Instr) (hj : WritesMemories j) : i ≠ j := fun e => hi (e ▸ hj)
  have named (j : Instr) (hj : j ∈ [.build, .gencode, .encode, .decode, .clrtxt, .clrbits, .clear]) : i ≠ j :=
    other j (.inr (.inr hj))
  obtain ⟨htext, hfreq⟩ := text (fun x => other _ (.inl ⟨x, rfl⟩)) (named _ (by simp)) (named _ (by simp))
  obtain ⟨-, hnodes, -⟩ := tree (named _ (by simp)) (named _ (by simp))
  exact ⟨htext, hfreq, bits (fun b => other _ (.inr (.inl ⟨b, rfl⟩))) (named _ (by simp)) (named _ (by simp)) (named _ (by simp)),
    out (named _ (by simp)) (named _ (by simp)), hnodes, code (named _ (by simp)) (named _ (by simp))⟩

/-- The engine's turn writes the memories only in its step of one of the nine commands. -/
theorem engineTurn_memories {s t : State} (h : engineTurn s = .next t) :
    SameMemories s t ∨ (s.busy = true ∧ ∃ i, decode s.lastCmd = .ok i ∧ WritesMemories i) := by
  unfold engineTurn at h
  split at h
  · rcases engineStep_cases h with ⟨i, hd, hi⟩ | ⟨e, -, rfl⟩
    · by_cases hw : WritesMemories i
      · exact .inr ⟨‹_›, i, hd, hw⟩
      · exact .inl (exec_sameMemories hi hw)
    · exact .inl ⟨rfl, rfl, rfl, rfl, rfl, rfl⟩
  · cases h
    exact .inl ⟨rfl, rfl, rfl, rfl, rfl, rfl⟩

/-- A host read leaves the memories. -/
theorem hostRead_sameMemories (s : State) (a : Offset) (size : Nat) : SameMemories s (hostRead s a size) := by
  cases hl : accessLoc a size with
  | none => rw [hostRead_error hl]; exact ⟨rfl, rfl, rfl, rfl, rfl, rfl⟩
  | some l =>
    obtain ⟨d, n, hr⟩ := hostRead_okay (s := s) hl
    rw [hr]
    exact ⟨rfl, rfl, rfl, rfl, rfl, rfl⟩

/-- A host write leaves the memories: it is answered, and at CMD and STATUS it writes control registers. -/
theorem hostWrite_sameMemories (s : State) (a : Offset) (size : Nat) (strobes : BitVec 4) (v : Word) :
    SameMemories s (hostWrite s a size strobes v) := by
  rcases hostWrite_cases s a size strobes v with ⟨r, hw⟩ | ⟨-, -, -, hw⟩ | ⟨-, -, -, hw⟩
  · rw [hw]; exact ⟨rfl, rfl, rfl, rfl, rfl, rfl⟩
  · rw [hw, writeLoc]
    cases s.busy <;> exact ⟨rfl, rfl, rfl, rfl, rfl, rfl⟩
  · rw [hw, writeLoc_status]; exact ⟨rfl, rfl, rfl, rfl, rfl, rfl⟩

/-- Settles O12: by the event at the head of the agenda, the engine's turn where there is none. -/
theorem memoriesChangeOnlyByCommands : Obligations.MemoriesChangeOnlyByCommands := by
  intro s t h
  cases ha : s.agenda with
  | nil =>
    unfold step nextEvent at h
    rw [ha] at h
    exact (engineTurn_memories h).imp_right fun ⟨hb, hi⟩ => .inr ⟨hb, .inl rfl, hi⟩
  | cons e rest =>
    rw [step_of_agenda ha] at h
    cases e with
    | engineTurn =>
      exact (engineTurn_memories (s := { s with agenda := rest }) h).imp_right fun ⟨hb, hi⟩ => .inr ⟨hb, .inr ⟨rest, rfl⟩, hi⟩
    | reset => exact .inr (.inl ⟨rest, rfl⟩)
    | hostRead a size => cases h; exact .inl (hostRead_sameMemories { s with agenda := rest } a size)
    | hostWrite a size strobes v => cases h; exact .inl (hostWrite_sameMemories { s with agenda := rest } a size strobes v)

end Sys2Proof.Machine
end

