-- ==== Sys2Proof/Proofs/Windows.lean ====
section
/-! PROOFS. What the host reads while BUSY = 0: the registers (spec/20_memory.md R63) and the six windows (R68-R74). -/

namespace Sys2Proof.Machine

/-! ### The registers -/

/-- The bits of WALK (R63). -/
theorem walkWord_getLsbD (s : State) (j : Nat) : s.walkWord.getLsbD j =
    if j < 8 then s.walkCur.getLsbD j else if j < 9 then s.walkHit else if j < 10 then s.walkUsed
    else if j < 16 then false else if j < 23 then s.walkSym.getLsbD (j - 16) else false := by
  show (0#9 ++ (s.walkSym ++ (0#6 ++ (flagBit s.walkUsed ++ (flagBit s.walkHit ++ s.walkCur)))) :
    BitVec (9 + (7 + (6 + (1 + (1 + 8)))))).getLsbD j = _
  simp only [BitVec.getLsbD_append, flagBit, BitVec.getLsbD_ofBool]
  by_cases low : j < 23
  · interval_cases j <;> simp
  · simp only [show ¬ j < 8 by omega, show ¬ j < 9 by omega, show ¬ j < 10 by omega, show ¬ j < 16 by omega, low, if_false]
    simp

/-- The fields of WALK (R63). -/
theorem walkWord_fields (s : State) : s.walkWord.extractLsb' 0 8 = s.walkCur ∧ s.walkWord.getLsbD 8 = s.walkHit ∧
    s.walkWord.getLsbD 9 = s.walkUsed ∧ s.walkWord.extractLsb' 10 6 = 0 ∧ s.walkWord.extractLsb' 16 7 = s.walkSym ∧
    s.walkWord.extractLsb' 23 9 = 0 := by
  refine ⟨?_, walkWord_getLsbD s 8, walkWord_getLsbD s 9, ?_, ?_, ?_⟩ <;>
    exact extractLsb'_eq_of_getLsbD fun j hj => by rw [walkWord_getLsbD]; interval_cases j <;> rfl

/-- A register reads its word (R63). -/
theorem readsAs_register {s : State} (hb : s.busy = false) (k : Nat) (l : Loc) (hk : k < 17)
    (hl : registerLocs[k]? = some l) :
    s.ReadsAs (4 * k) (s.locWord l) := by
  refine readsAs_of_locate s _ l (by omega) (by omega) ?_ (.inl hb)
  rw [locate, if_pos (by omega), Nat.mul_div_cancel_left k (by decide), hl]

/-- Settles O14: each register at its place in the map. -/
theorem idleRegisterReads : Obligations.IdleRegisterReads := by
  intro s hb
  have reg := readsAs_register hb
  simp only [BitVec.ofNat_toNat]
  exact ⟨reg 0 .id (by decide) rfl, reg 1 .cmd (by decide) rfl, reg 2 .status (by decide) rfl, reg 3 .errInfo (by decide) rfl,
    reg 4 .textLen (by decide) rfl, reg 5 .distinct (by decide) rfl, reg 6 .bitLen (by decide) rfl, reg 7 .bitPos (by decide) rfl,
    reg 8 .outLen (by decide) rfl, reg 9 .nodeCount (by decide) rfl, reg 10 .root (by decide) rfl,
    ⟨s.walkWord, reg 11 .walk (by decide) rfl, walkWord_fields s⟩, reg 12 .resLen (by decide) rfl,
    reg 13 (.resPath 0) (by decide) rfl, reg 14 (.resPath 1) (by decide) rfl, reg 15 (.resPath 2) (by decide) rfl,
    reg 16 (.resPath 3) (by decide) rfl⟩

/-! ### The FREQ window -/

/-- Settles O16: the map takes the offset back to its symbol. -/
theorem freqWindowReads : Obligations.FreqWindowReads := fun s x hb => by
  have := x.isLt
  exact readsAs_of_locate s _ (.freq x) (by omega) (by omega) (locate_freq x) (.inl hb)

/-! ### The NODE window -/

/-- The two words of a slot that holds a node (R69). -/
theorem nodeWindow_node {s : State} {i : Nat} {n : Node} (ht : s.treeValid = true) (hi : i < 255) (hn : s.nodes[i]? = some n)
    (w : Nat) : s.nodeWindow i w = if w = 0 then n.weight else nodeWord1 n := by
  rw [State.nodeWindow, if_pos (by simp [ht, hi]), hn]

/-- A slot that holds no node of a tree reads 0 (R69, R74). -/
theorem nodeWindow_empty {s : State} {i : Nat} (h : s.treeValid = false ∨ s.nodes.length ≤ i ∨ i = 255) (w : Nat) :
    s.nodeWindow i w = 0 := by
  rw [State.nodeWindow]
  rcases h with ht | hl | rfl
  · simp [ht]
  · simp [List.getElem?_eq_none hl]
  · simp

/-- The words of the NODE window. -/
theorem readsAs_node {s : State} (hb : s.busy = false) {i w : Nat} (hi : i < 256) (hw : w < 2) :
    s.ReadsAs (0x1000 + 8 * i + 4 * w) (s.nodeWindow i w) :=
  readsAs_of_locate s _ (.node i w) (by omega) (by omega) (locate_node i w hi hw) (.inl hb)

/-- Settles O17: the window's two words where the slot holds a node and where it holds none. -/
theorem nodeWindowReads : Obligations.NodeWindowReads := by
  intro s i hb hi
  have word0 := readsAs_node hb hi (w := 0) (by decide)
  have word1 := readsAs_node hb hi (w := 1) (by decide)
  refine ⟨fun n ht hlt hn => ?_, fun h => ?_⟩
  · rw [nodeWindow_node ht hlt hn] at word0 word1
    exact ⟨word0, nodeWord1 n, word1, nodeWord1_fields n⟩
  · rw [nodeWindow_empty h] at word0 word1
    exact ⟨word0, word1⟩

/-! ### The CODE window -/

/-- The CODE window without valid codes (R70, R74). -/
theorem codeWindow_invalid {s : State} (hc : s.codesValid = false) (x : Sym) (k : Nat) : s.codeWindow x k = 0 := if_pos hc

section
variable {s : State} (hc : s.codesValid = true)
include hc

/-- Word 0 of an entry. -/
theorem codeWindow_zero (x : Sym) : s.codeWindow x 0 = codeWord0 (s.codeAt x) := by simp [State.codeWindow, hc]

/-- The four words of an entry's path. -/
theorem codeWindow_path (x : Sym) {k : Nat} (hk : k < 4) : s.codeWindow x (k + 1) = (s.codeAt x).path.extractLsb' (32 * k) 32 := by
  rw [State.codeWindow, if_neg (by simp [hc]), if_neg (by omega), if_pos (by omega)]
  rfl

/-- The reserved words of an entry. -/
theorem codeWindow_reserved (x : Sym) {k : Nat} (hk : 5 ≤ k) : s.codeWindow x k = 0 := by
  rw [State.codeWindow, if_neg (by simp [hc]), if_neg (by omega), if_neg (by omega)]

end

/-- The words of the CODE window. -/
theorem readsAs_code {s : State} (hb : s.busy = false) (x : Sym) {k : Nat} (hk : k < 8) :
    s.ReadsAs (0x2000 + 32 * x.toNat + 4 * k) (s.codeWindow x k) := by
  have := x.isLt
  exact readsAs_of_locate s _ (.code x k) (by omega) (by omega) (locate_code x k hk) (.inl hb)

/-- Settles O18: the entry's words 0, 1 to 4 and 5 to 7, and all of them without valid codes. -/
theorem codeWindowReads : Obligations.CodeWindowReads := by
  intro s x hb
  refine ⟨fun hc => ⟨⟨codeWord0 (s.codeAt x), ?_, codeWord0_fields _⟩, fun k hk => ?_, fun k h5 hk => ?_⟩, fun hc k hk => ?_⟩
  · rw [← codeWindow_zero hc]; exact readsAs_code hb x (k := 0) (by decide)
  · rw [← codeWindow_path hc x hk]; exact readsAs_code hb x (by omega)
  · rw [← codeWindow_reserved hc x h5]; exact readsAs_code hb x hk
  · rw [← codeWindow_invalid hc x k]; exact readsAs_code hb x hk

/-! ### The TEXT, OUT and BITS windows -/

/-- The bytes of a TEXT or OUT word: a symbol, zero-extended, and 0 beyond the length (R71, R74). -/
theorem packSyms_bytes (xs : List Sym) (j m : Nat) (hm : m < 4) :
    (∀ x, xs[4 * j + m]? = some x → (packSyms xs j).extractLsb' (8 * m) 8 = x.setWidth 8) ∧
    (xs.length ≤ 4 * j + m → (packSyms xs j).extractLsb' (8 * m) 8 = 0) := by
  rw [extract_packSyms xs j m hm, symByte]
  exact ⟨fun x hx => by rw [hx], fun hl => by rw [List.getElem?_eq_none hl]⟩

/-- Settles O19: TEXT and OUT pack by one rule. -/
theorem textAndOutWindowsPack : Obligations.TextAndOutWindowsPack := fun s j hb hj =>
  ⟨⟨packSyms s.text j, readsAs_of_locate s _ (.text j) (by omega) (by omega) (locate_text j hj) (.inl hb), packSyms_bytes s.text j⟩,
    ⟨packSyms s.out j, readsAs_of_locate s _ (.out j) (by omega) (by omega) (locate_out j hj) (.inl hb), packSyms_bytes s.out j⟩⟩

/-- Settles O20: bit m of the packed word is the bit at 32j + m of the sequence, false where there is none. -/
theorem bitsWindowPacks : Obligations.BitsWindowPacks := by
  intro s j hb hj
  refine ⟨packBits s.bits j, readsAs_of_locate s _ (.bits j) (by omega) (by omega) (locate_bits j hj) (.inl hb), fun m hm => ?_⟩
  rw [getLsbD_packBits s.bits j m hm]
  exact ⟨fun b hbit => by rw [hbit]; rfl, fun hl => by rw [List.getElem?_eq_none hl]; rfl⟩

end Sys2Proof.Machine
end

