-- ==== Sys2Proof/Proofs/Encoding.lean ====
section
/-! PROOFS. Command words (spec/30_encoding.md R91-R96): decoding and encoding are inverse, the match and mask of R93, and the
illegal words of R94 and R95. Everything is said of a word's three fields. -/

namespace Sys2Proof.Machine

/-! ### Decoding and encoding -/

/-- The opcodes of commands are the defined ones (R93). -/
theorem opcodeOf_le (i : Instr) : (opcodeOf i).toNat ≤ 0x0C := by cases i <;> simp [opcodeOf]

/-- What decodes to a command: its opcode, RSV = 0 and its operand (R96). -/
theorem decode_eq_ok_iff (w : Word) (i : Instr) :
    decode w = .ok i ↔ opField w = opcodeOf i ∧ rsvField w = 0 ∧ opndField w = operandOf i := by
  have defined := opcodeOf_le i
  unfold decode
  split
  · rename_i reserved
    exact iff_of_false nofun fun ⟨hop, _, _⟩ => absurd reserved (by rw [hop]; omega)
  · split
    · exact iff_of_false nofun fun ⟨_, hrsv, _⟩ => ‹rsvField w ≠ 0› hrsv
    · rw [decodeOperand_ok, ← BitVec.toNat_eq]
      tauto

/-- Settles O2: both sides say that the word's fields are the command's. -/
theorem decodeEncodeAgree : Obligations.DecodeEncodeAgree := fun w i =>
  (decode_eq_ok_iff w i).trans (encode_eq_iff w i).symm

/-- The word of a command decodes to it. -/
@[simp] theorem decode_encode (i : Instr) : decode (encode i) = .ok i := (decodeEncodeAgree _ i).2 rfl

/-- Settles O1: the decoder computes each word. -/
theorem specWordsDecode : Obligations.SpecWordsDecode :=
  ⟨rfl, rfl, rfl, rfl, rfl, rfl, rfl, rfl, rfl, rfl, rfl, rfl, rfl⟩

/-! ### Match and mask -/

/-- A word under a mask that keeps OP and RSV is a command's word iff OP and RSV are the command's and the masked operand is. -/
theorem and_eq_encode_iff {w mask : Word} {i : Instr} (hop : opField mask = BitVec.allOnes 8)
    (hrsv : rsvField mask = BitVec.allOnes 16) :
    w &&& mask = encode i ↔ opField w = opcodeOf i ∧ rsvField w = 0 ∧ opndField w &&& opndField mask = operandOf i := by
  have op : opField (w &&& mask) = opField w &&& opField mask := BitVec.extractLsb'_and
  have rsv : rsvField (w &&& mask) = rsvField w &&& rsvField mask := BitVec.extractLsb'_and
  have opnd : opndField (w &&& mask) = opndField w &&& opndField mask := BitVec.extractLsb'_and
  rw [eq_comm, encode_eq_iff, op, rsv, opnd, hop, hrsv, BitVec.and_allOnes, BitVec.and_allOnes]

/-- A row of form NONE: the mask keeps the whole word (R93). -/
theorem decode_none_iff (w : Word) (i : Instr) : decode w = .ok i ↔ w &&& 0xFFFFFFFF = encode i := by
  rw [show w &&& 0xFFFFFFFF = w from BitVec.and_allOnes, eq_comm (a := w)]
  exact decodeEncodeAgree w i

/-- A row of form S8: the mask drops the operand, and every operand decodes (R92, R93). -/
theorem decode_s8_iff (w : Word) (f : BitVec 8 → Instr) (hop : ∀ x, opcodeOf (f x) = opcodeOf (f 0))
    (hopnd : ∀ x, operandOf (f x) = x) : (∃ x, decode w = .ok (f x)) ↔ w &&& 0xFFFFFF00 = encode (f 0) := by
  have dropped : opndField w &&& opndField 0xFFFFFF00 = 0 := BitVec.and_zero
  rw [and_eq_encode_iff rfl rfl, dropped]
  simp only [decode_eq_ok_iff, hop, hopnd, exists_and_left, exists_eq']

/-- The operand of form B1 is a bit iff its bits [7:1] are 0 (R92). -/
theorem and_0xFE_eq_zero_iff : ∀ p : BitVec 8, p &&& 0xFE = 0 ↔ ∃ b, p = (BitVec.ofBool b).setWidth 8 := by decide +kernel

/-- A row of form B1: the mask drops the operand's one bit (R92, R93). -/
theorem decode_b1_iff (w : Word) (f : Bool → Instr) (hop : ∀ b, opcodeOf (f b) = opcodeOf (f false))
    (hopnd : ∀ b, operandOf (f b) = (BitVec.ofBool b).setWidth 8) :
    (∃ b, decode w = .ok (f b)) ↔ w &&& 0xFFFFFFFE = encode (f false) := by
  rw [and_eq_encode_iff rfl rfl, hopnd]
  simp only [decode_eq_ok_iff, hop, hopnd, exists_and_left, ← and_0xFE_eq_zero_iff]
  rfl

/-- Settles O3: row by row, by the row's form. -/
theorem decodeFollowsMatchAndMask : Obligations.DecodeFollowsMatchAndMask := fun w =>
  ⟨decode_none_iff w .nop, decode_none_iff w .clear, decode_none_iff w .clrtxt, decode_none_iff w .clrbits,
    decode_s8_iff w .pushs (fun _ => rfl) fun _ => rfl, decode_b1_iff w .pushb (fun _ => rfl) fun _ => rfl,
    decode_none_iff w .build, decode_none_iff w .gencode, decode_s8_iff w .lookup (fun _ => rfl) fun _ => rfl,
    decode_none_iff w .encode, decode_none_iff w .decode, decode_b1_iff w .walk (fun _ => rfl) fun _ => rfl,
    decode_none_iff w .wrst⟩

/-! ### Illegal words -/

/-- What form NONE refuses (R95). -/
theorem formNone_error {i : Instr} {p : BitVec 8} : (∃ e, formNone i p = .error e) ↔ p ≠ 0 := by
  unfold formNone; split <;> simpa

/-- What form B1 refuses (R95). -/
theorem formB1_error {f : Bool → Instr} {p : BitVec 8} : (∃ e, formB1 f p = .error e) ↔ p.extractLsb' 1 7 ≠ 0 := by
  unfold formB1; split <;> simpa

/-- The operands a defined opcode refuses, by its form (R95). -/
theorem decodeOperand_error {op : Nat} (h : op ≤ 0x0C) (p : BitVec 8) : (∃ e, decodeOperand op p = .error e) ↔
    (op ∈ [0x00, 0x01, 0x02, 0x03, 0x06, 0x07, 0x09, 0x0A, 0x0C] ∧ p ≠ 0) ∨ (op ∈ [0x05, 0x0B] ∧ p.extractLsb' 1 7 ≠ 0) := by
  interval_cases op <;> simp [decodeOperand, formNone_error, formS8, formB1_error]

/-- Bits [7:1] of a word are those of its operand. -/
theorem extractLsb'_opndField (w : Word) : (opndField w).extractLsb' 1 7 = w.extractLsb' 1 7 :=
  extractLsb'_eq_of_getLsbD fun j hj => by
    rw [opndField, BitVec.getLsbD_extractLsb', BitVec.getLsbD_extractLsb']
    simp [hj, show 1 + j < 8 by omega]

/-- The words the decoder refuses: its branches are R94's and R95's. -/
theorem decode_error_iff (w : Word) : (∃ e, decode w = .error e) ↔ IllegalWord w := by
  unfold decode IllegalWord
  rw [← extractLsb'_opndField]
  change _ ↔ 0x0C < (opField w).toNat ∨ rsvField w ≠ 0 ∨ ((opField w).toNat ∈ _ ∧ opndField w ≠ 0) ∨ _
  split
  · exact iff_of_true ⟨_, rfl⟩ (.inl ‹_›)
  · rename_i hop
    split
    · exact iff_of_true ⟨_, rfl⟩ (.inr (.inl ‹_›))
    · rename_i hrsv
      rw [or_iff_right hop, or_iff_right hrsv]
      exact decodeOperand_error (Nat.le_of_not_lt hop) _

/-- A word decodes to no command iff the decoder refuses it. -/
theorem forall_decode_ne_ok_iff (w : Word) : (∀ i, decode w ≠ .ok i) ↔ ∃ e, decode w = .error e := by
  cases decode w <;> simp

/-- An engine step of an illegal word (R94, R95). -/
theorem engineStep_illegal {s : State} (h : IllegalWord s.lastCmd) :
    engineStep s = .next (s.completeErr .illegalCmd s.lastCmd) := by
  obtain ⟨e, he⟩ := (decode_error_iff _).2 h
  rw [engineStep, he]
  rfl

/-- The engine's turn while BUSY = 1 is its step (R204). -/
theorem engineTurn_busy {s : State} (hb : s.busy = true) : engineTurn s = engineStep s := if_pos hb

/-- Settles O4: the engine's step of a refused word, and the decoder's refusals. -/
theorem illegalWordsCompleteWithIllegalCmd : Obligations.IllegalWordsCompleteWithIllegalCmd := by
  refine ⟨fun s rest hb ha hw => ?_, fun w => (decode_error_iff w).symm.trans (forall_decode_ne_ok_iff w).symm⟩
  rw [step_of_agenda ha, perform, engineTurn_busy (s := { s with agenda := rest }) hb,
    engineStep_illegal (s := { s with agenda := rest }) hw]
  rfl

end Sys2Proof.Machine
end

