-- ==== Sys2Proof/Proofs/Assembler.lean ====
section
/-! PROOFS. The script assembler (spec/30_encoding.md R99, R100): its words are legal, and what each pseudo-command expands to. -/

namespace Sys2Proof.Machine

/-! ### One line -/

/-- An accepted line assembles to the words of its commands. -/
theorem assembleLine_accepted {l : ScriptLine} (h : l.wellFormed = true) :
    assembleLine l = .ok ((expandLine l).map encode) := if_pos h

/-- A line whose operand is refused (R99). -/
theorem assembleLine_refused {l : ScriptLine} (h : l.wellFormed = false) : assembleLine l = .error .refusedOperand :=
  if_neg (by simp [h])

/-- Every word of a line is a command's word. -/
theorem mem_assembleLine {l : ScriptLine} {ws : List Word} (h : assembleLine l = .ok ws) {w : Word} (hw : w ∈ ws) :
    ∃ i, encode i = w := by
  unfold assembleLine at h
  split at h
  · obtain rfl := Except.ok.inj h
    obtain ⟨i, -, hi⟩ := List.mem_map.1 hw
    exact ⟨i, hi⟩
  · cases h

/-! ### A script -/

/-- Every word of a script is a command's word: it comes from one of the lines. -/
theorem mem_assemble {ls : List ScriptLine} {ws : List Word} (h : assemble ls = .ok ws) {w : Word} (hw : w ∈ ws) :
    ∃ i, encode i = w := by
  induction ls generalizing ws with
  | nil =>
    obtain rfl := Except.ok.inj h
    cases hw
  | cons l ls ih =>
    unfold assemble at h
    split at h
    · cases h
    · split at h
      · cases h
      · obtain rfl := Except.ok.inj h
        exact (List.mem_append.1 hw).elim (mem_assembleLine ‹_›) (ih ‹_›)

/-- Settles O58: a command's word decodes to it, and the refused literals are not well-formed. -/
theorem scriptsAssembleToLegalWords : Obligations.ScriptsAssembleToLegalWords := by
  refine ⟨fun ls ws h w hw => ?_, fun n hn => ?_, fun n hn => ?_⟩
  · obtain ⟨i, rfl⟩ := mem_assemble h hw
    exact ⟨i, decode_encode i⟩
  · have refused : s8LiteralOk n = false := decide_eq_false (Nat.not_le.2 hn)
    exact ⟨assembleLine_refused refused, assembleLine_refused refused⟩
  · have refused : b1LiteralOk n = false := decide_eq_false (Nat.not_le.2 hn)
    exact ⟨assembleLine_refused refused, assembleLine_refused refused⟩

/-! ### Pseudo-commands -/

/-- The word of PUSHS is its match plus its operand (R93). -/
theorem encode_pushs : ∀ x : BitVec 8, encode (.pushs x) = 0x04000000 + x.setWidth 32 := by decide +kernel

/-- The words of PUSHSTR, for characters with codes up to 255 (R100). -/
theorem pushString_words {t : List Char} (h : ∀ c ∈ t, c.toNat ≤ 255) :
    (pushString t).map encode = t.map fun c => 0x04000000 + BitVec.ofNat 32 c.toNat := by
  rw [pushString, List.map_map]
  refine List.map_congr_left fun c hc => ?_
  have hc := h c hc
  rw [Function.comp_apply, encode_pushs, BitVec.setWidth_ofNat_of_le_of_lt (by decide) (by omega)]

/-- The words of PUSHBITS (R100). -/
theorem pushBitString_words (t : List Char) :
    (pushBitString t).map encode = t.map fun c => if c = '1' then 0x05000001 else 0x05000000 := by
  rw [pushBitString, List.map_map]
  refine List.map_congr_left fun c _ => ?_
  by_cases hc : c = '1' <;> simp [hc] <;> rfl

/-- The texts PUSHSTR takes (R99, R100). -/
theorem textOk_iff (t : List Char) : textOk t = true ↔ ∀ c ∈ t, c.toNat ≤ 255 := by simp [textOk, s8LiteralOk]

/-- The bit strings PUSHBITS takes (R100). -/
theorem bitTextOk_iff (t : List Char) : bitTextOk t = true ↔ ∀ c ∈ t, c = '0' ∨ c = '1' := by simp [bitTextOk]

/-- Settles O59: each line is accepted, and its words are those of its expansion; the other bit strings are refused. -/
theorem pseudoCommandsExpand : Obligations.PseudoCommandsExpand := by
  refine ⟨fun t h => ?_, fun t h => ?_, fun t c hc h0 h1 => ?_⟩
  · have ok := (textOk_iff t).2 h
    rw [← pushString_words h]
    refine ⟨assembleLine_accepted ok, assembleLine_accepted ok, ?_⟩
    rw [assembleLine_accepted (l := .roundtrip t) ok, expandLine, List.map_cons, List.map_append]
    rfl
  · have ok := (bitTextOk_iff t).2 h
    rw [← pushBitString_words t]
    exact ⟨assembleLine_accepted ok, assembleLine_accepted ok⟩
  · have refused : bitTextOk t = false := Bool.eq_false_iff.2 fun ok => ((bitTextOk_iff t).1 ok c hc).elim h0 h1
    exact ⟨assembleLine_refused refused, assembleLine_refused refused⟩

end Sys2Proof.Machine
end

