-- ==== Sys2Proof/Proofs/ScriptRun.lean ====
section
/-! PROOFS. A script run from any state (spec/30_encoding.md R99, spec/70_reset_and_hazards.md R245, R249): the wait before a
command, its CMD write, and the end of the run at the last poll. -/

namespace Sys2Proof.Machine

/-! ### Watched runs -/

/-- `n` steps lead the watch w and the state s to w' and s', and the run of the script ends at none of the steps before. -/
def WatchedTo (n : Nat) (w : ScriptWatch) (s : State) (w' : ScriptWatch) (s' : State) : Prop :=
  watchScript n w s = some (w', s') ∧
  ∀ m, m < n → ∃ v t, watchScript m w s = some (v, t) ∧ v.ended = false

/-- One step of a run not yet ended. -/
theorem WatchedTo.of_step {w : ScriptWatch} {s t : State} (hw : w.ended = false) (h : step s = .next t) :
    WatchedTo 1 w s (seeEvent w s) t := by
  refine ⟨by rw [watchScript, h]; rfl, fun m hm => ?_⟩
  obtain rfl : m = 0 := by omega
  exact ⟨w, s, rfl, hw⟩

/-- One watched run after another. -/
theorem WatchedTo.trans {m n : Nat} {w w₁ w₂ : ScriptWatch} {s s₁ s₂ : State} (h : WatchedTo m w s w₁ s₁)
    (h' : WatchedTo n w₁ s₁ w₂ s₂) : WatchedTo (m + n) w s w₂ s₂ := by
  obtain ⟨run, before⟩ := h
  obtain ⟨run', before'⟩ := h'
  have later (k : Nat) : watchScript (m + k) w s = watchScript k w₁ s₁ := by rw [watchScript_add, run]; rfl
  refine ⟨(later n).trans run', fun k hk => ?_⟩
  rcases Nat.lt_or_ge k m with hkm | hmk
  · exact before k hkm
  · obtain ⟨j, rfl⟩ := Nat.exists_eq_add_of_le hmk
    rw [later j]
    exact before' j (by omega)

/-! ### The events of a script -/

/-- A poll of STATUS answers it and does nothing else (R65). -/
theorem step_poll (s : State) (rest : List Event) (r : Option Reply) :
    step (s.atPort (.hostRead 0x008 4 :: rest) r) = .next (s.atPort rest (some (.readData s.status .okay))) := by
  have read : accessLoc 0x008 4 = some .status := rfl
  rw [step_of_agenda rfl, perform, hostRead, read]
  simp [Loc.readableBusy]
  rfl

/-- The CMD write of a command while BUSY = 0 accepts it (R67, R203). -/
theorem step_cmdWrite {s : State} (hb : s.busy = false) (v : Word) (rest : List Event) (r : Option Reply) :
    step (s.atPort (.hostWrite 0x004 4 0xF v :: rest) r) = .next ((s.accept v).atPort rest (some (.writeResp .okay))) := by
  rw [step_of_agenda rfl, perform, hostWrite_cmd, writeLoc, if_neg (by simp [State.atPort, hb])]
  rfl

/-- The engine's turn at its place in the order. -/
theorem step_turn {s t : State} (h : engineTurn s = .next t) (rest : List Event) (r : Option Reply) :
    step (s.atPort (.engineTurn :: rest) r) = .next (t.atPort rest r) := by
  rw [step_of_agenda rfl]
  exact (engineTurn_atPort s rest r).trans (congrArg (onPort rest r) h)

/-- A poll ends the run iff BUSY = 0 and no command is still to come (R249). -/
theorem seeEvent_poll (w : ScriptWatch) (s : State) (rest : List Event) (r : Option Reply) :
    seeEvent w (s.atPort (.hostRead 0x008 4 :: rest) r) = if s.busy = false ∧ w.left = [] then { w with ended := true } else w := by
  simp [seeEvent, State.atPort]

/-- The polls before the engine's place end no run: the machine is still busy, or a command is still to come. -/
theorem watchedTo_polls {w : ScriptWatch} (hw : w.ended = false) {s : State} (hs : s.busy = true ∨ w.left ≠ [])
    (polls : Nat) (rest : List Event) (r : Option Reply) :
    ∃ r', WatchedTo polls w (s.atPort (List.replicate polls (.hostRead 0x008 4) ++ rest) r) w (s.atPort rest r') := by
  induction polls generalizing r with
  | zero => exact ⟨r, rfl, nofun⟩
  | succ polls ih =>
    rw [List.replicate_succ, List.cons_append]
    have poll := WatchedTo.of_step hw (step_poll s (List.replicate polls (.hostRead 0x008 4) ++ rest) r)
    rw [seeEvent_poll, if_neg fun ⟨hb, hl⟩ => hs.elim (by simp [hb]) (· hl)] at poll
    obtain ⟨r', polled⟩ := ih (some (.readData s.status .okay))
    exact ⟨r', Nat.add_comm 1 polls ▸ poll.trans polled⟩

/-- The engine's turn passes an idle machine over, and is the engine's step while BUSY = 1 (R204). -/
theorem engineTurn_cases {s t : State} (h : engineTurn s = .next t) :
    (s.busy = false ∧ t = s) ∨ (s.busy = true ∧ engineStep s = .next t) := by
  unfold engineTurn at h
  split at h
  · exact .inr ⟨‹_›, h⟩
  · exact .inl ⟨Bool.eq_false_iff.2 ‹_›, (Host.Outcome.next.inj h).symm⟩

/-- After the engine's turn BUSY = 0: a busy engine completes its command (R206, R207). -/
theorem engineTurn_idle {s t : State} (h : engineTurn s = .next t) : t.busy = false := by
  rcases engineTurn_cases h with ⟨hb, rfl⟩ | ⟨-, hstep⟩
  · exact hb
  · rcases engineStep_end hstep with ⟨c, info, -, rfl⟩ | ⟨u, rfl⟩ <;> rfl

/-- The wait of R245: its last poll reads the STATUS the engine's turn leaves, and ends the run iff no command is still to come. -/
theorem watchedTo_wait {w : ScriptWatch} (hw : w.ended = false) {s t : State} (hs : s.busy = true ∨ w.left ≠ [])
    (ht : engineTurn s = .next t) (polls : Nat) (rest : List Event) (r : Option Reply) :
    WatchedTo (polls + 2) w (s.atPort (waitEvents polls ++ rest) r)
      (if w.left = [] then { w with ended := true } else w) (t.atPort rest (some (.readData t.status .okay))) := by
  rw [waitEvents, List.append_assoc]
  obtain ⟨r', polled⟩ := watchedTo_polls hw hs polls ([.engineTurn, .hostRead 0x008 4] ++ rest) r
  have turned : WatchedTo 1 w _ w _ := WatchedTo.of_step hw (step_turn ht (.hostRead 0x008 4 :: rest) r')
  have read := WatchedTo.of_step hw (step_poll t rest r')
  simp only [seeEvent_poll, engineTurn_idle ht, true_and] at read
  exact polled.trans (turned.trans read)

/-- A CMD write after the wait takes its word off the script's words. -/
theorem watchedTo_cmdWrite {s : State} (hb : s.busy = false) (v : Word) (left : List Word) (rest : List Event)
    (r : Option Reply) : WatchedTo 1 (watchOf (v :: left)) (s.atPort (.hostWrite 0x004 4 0xF v :: rest) r) (watchOf left)
      ((s.accept v).atPort rest (some (.writeResp .okay))) := by
  have seen : seeEvent (watchOf (v :: left)) (s.atPort (.hostWrite 0x004 4 0xF v :: rest) r) = watchOf left := by
    simp [seeEvent, seeWrite, State.atPort, watchOf, hb]
  exact seen ▸ WatchedTo.of_step rfl (step_cmdWrite hb v rest r)

/-! ### A whole script -/

/-- The commands of a list run from a state: the first is accepted and runs in the engine's turn, the others follow (R204). -/
theorem runScript_cons {i : Instr} {is : List Instr} {s u : State} (h : runScript (i :: is) s = .next u) :
    ∃ t, engineTurn (s.accept (encode i)) = .next t ∧ runScript is t = .next u := by
  have turn : engineTurn (s.accept (encode i)) = exec i (s.accept (encode i)) := by
    rw [engineTurn_busy rfl, engineStep, State.accept_lastCmd, decode_encode]
  rw [turn]
  unfold runScript at h
  split at h
  · exact ⟨_, ‹_›, h⟩
  · cases h
  · cases h

/-- The events of a script's first command, and those of the others. -/
theorem scriptEvents_cons (k : Nat) (v : Word) (cmds : List (Nat × Word)) (polls : Nat) :
    scriptEvents ((k, v) :: cmds) polls = waitEvents k ++ .hostWrite 0x004 4 0xF v :: scriptEvents cmds polls := by
  simp [scriptEvents, commandEvents]

/-- The run of a script, command by command: a wait, the CMD write, and the rest of the script with that command pending. -/
theorem watchedTo_script (cmds : List (Nat × Instr)) (polls : Nat) (rest : List Event) {s t u : State} (r : Option Reply)
    (hs : s.busy = true ∨ cmds ≠ []) (ht : engineTurn s = .next t) (hu : runScript (cmds.map fun p => p.2) t = .next u) :
    WatchedTo ((cmds.map fun p => p.1 + 3).sum + (polls + 2)) (watchOf (cmds.map fun p => encode p.2))
      (s.atPort (scriptEvents (cmds.map fun p => (p.1, encode p.2)) polls ++ rest) r) ⟨[], true⟩
      (u.atPort rest (some (.readData u.status .okay))) := by
  induction cmds generalizing s t r with
  | nil =>
    obtain rfl := Host.Outcome.next.inj hu
    have busy : s.busy = true := hs.resolve_right (not_not_intro rfl)
    have wait := watchedTo_wait (w := watchOf []) rfl (.inl busy) ht polls rest r
    rwa [← Nat.zero_add (polls + 2)] at wait
  | cons p cmds ih =>
    obtain ⟨k, i⟩ := p
    obtain ⟨t', ht', hu'⟩ := runScript_cons hu
    have waited := watchedTo_wait (w := watchOf (encode i :: cmds.map fun p => encode p.2)) rfl (.inr nofun) ht k
      (.hostWrite 0x004 4 0xF (encode i) :: (scriptEvents (cmds.map fun p => (p.1, encode p.2)) polls ++ rest)) r
    have written := watchedTo_cmdWrite (engineTurn_idle ht) (encode i) (cmds.map fun p => encode p.2)
      (scriptEvents (cmds.map fun p => (p.1, encode p.2)) polls ++ rest) (some (.readData t.status .okay))
    have run := waited.trans (written.trans (ih (some (.writeResp .okay)) (.inl rfl) ht' hu'))
    have steps : (((k, i) :: cmds).map fun p => p.1 + 3).sum + (polls + 2) =
        k + 2 + (1 + ((cmds.map fun p => p.1 + 3).sum + (polls + 2))) := by
      rw [List.map_cons, List.sum_cons]; omega
    rw [steps, List.map_cons, List.map_cons, scriptEvents_cons, List.append_assoc]
    exact run

/-! ### What a script leaves -/

/-- The engine's turn leaves LAST_CMD: no command writes it. -/
theorem engineTurn_lastCmd {s t : State} (h : engineTurn s = .next t) : t.lastCmd = s.lastCmd := by
  rcases engineTurn_cases h with ⟨-, rfl⟩ | ⟨-, hstep⟩
  · rfl
  · rcases engineStep_cases hstep with ⟨i, -, hi⟩ | ⟨e, -, rfl⟩
    · obtain ⟨⟨-, hlast, -⟩, -⟩ := onlyTheNamedCommandsWrite i s t hi
      exact hlast
    · rfl

/-- A script leaves BUSY = 0, keeps OVR, and LAST_CMD is its last word. -/
theorem runScript_control {is : List Instr} {t u : State} (hb : t.busy = false) (h : runScript is t = .next u) :
    u.busy = false ∧ u.ovr = t.ovr ∧ u.lastCmd = ((is.map encode).getLast?).getD t.lastCmd := by
  induction is generalizing t with
  | nil =>
    obtain rfl := Host.Outcome.next.inj h
    exact ⟨hb, rfl, rfl⟩
  | cons i is ih =>
    obtain ⟨t', ht', hu⟩ := runScript_cons h
    obtain ⟨busy, ovr, lastCmd⟩ := ih (engineTurn_idle ht') hu
    refine ⟨busy, ovr.trans (engineTurn_ovr (s := t.accept (encode i)) ht'), ?_⟩
    rw [lastCmd, engineTurn_lastCmd ht', List.map_cons, List.getLast?_cons]
    rfl

/-- Settles O60: the run of the script and what it leaves, after the engine's turn in the first wait. -/
theorem scriptCommandRunsToItsEnd : Obligations.ScriptCommandRunsToItsEnd := by
  intro s t u cmds polls rest hne ha ht hu
  have run := watchedTo_script cmds polls rest s.reply (.inr hne) ht hu
  rw [← ha] at run
  obtain ⟨ends, before⟩ := run
  obtain ⟨busy, ovr, lastCmd⟩ := runScript_control (engineTurn_idle ht) hu
  rw [List.map_map, engineTurn_lastCmd ht] at lastCmd
  exact ⟨ends, busy, ovr.trans (engineTurn_ovr ht), lastCmd, before⟩

end Sys2Proof.Machine
end

