-- ==== Sys2Proof/Proofs/FrequencyCounter.lean ====
section
/-! PROOFS. The Frequency Counter and buffer commands (spec/40_frequency_counter.md R110-R118): the commands that clear, the two that
append, and the operands that are no symbol. Each command is an equation between `exec` and its named update. -/

namespace Sys2Proof.Machine

/-! ### Clearing -/

/-- NOP (R110). -/
theorem exec_nop_ok (s : State) : exec .nop s = .next s.completeOk := rfl

/-- CLEAR (R111) as one update: the text, the bits, OUT, the tree with its walk, the codes and the lookup result. -/
theorem exec_clear_ok (s : State) :
    exec .clear s = .next (s.clearText.clearBits.clearOut.dropTree.dropCodes.setRes 0 0).completeOk := rfl

/-- CLRTXT (R112). -/
theorem exec_clrtxt_ok (s : State) : exec .clrtxt s = .next s.clearText.completeOk := rfl

/-- CLRBITS (R113). -/
theorem exec_clrbits_ok (s : State) : exec .clrbits s = .next s.clearBits.completeOk := rfl

/-- Clearing the text empties every FREQ entry. -/
theorem clearText_freq_getElem (s : State) (k : Nat) (h : k < 128) : s.clearText.freq[k] = 0 := by
  rw [State.clearText_freq, Vector.getElem_replicate]

/-- Every entry of the empty code ROM is absent. -/
theorem emptyCode_getElem (k : Nat) (h : k < 128) : emptyCode[k] = ⟨false, 0, 0⟩ := Vector.getElem_replicate h

/-- Settles O22: the four commands are updates with no check before them. CLEAR's update goes field by field, along the lemmas of
the updates' fields; the cleared FREQ and code ROM go by their entries. -/
theorem clearingCommandsComplete : Obligations.ClearingCommandsComplete := by
  intro s
  refine ⟨exec_nop_ok s, ⟨s.clearText.freq, emptyCode, ?_, clearText_freq_getElem s, emptyCode_getElem⟩,
    ⟨s.clearText.freq, exec_clrtxt_ok s, clearText_freq_getElem s⟩, exec_clrbits_ok s⟩
  rw [exec_clear_ok, State.completeOk]
  simp

/-! ### Appending -/

/-- PUSHB, BITS not full (R115). -/
theorem exec_pushb_ok {s : State} {b : Bool} (hl : s.bits.length ≠ 32768) :
    exec (.pushb b) s = .next (s.appendBit b).completeOk :=
  if_neg (show ¬ s.bitLen = Config.bitCap from hl)

/-- Counting a symbol adds one to its own FREQ entry and leaves the others (R114). -/
theorem countSym_freq_getElem (s : State) (x : Sym) (k : Nat) (h : k < 128) :
    (s.countSym x).freq[k] = if k = x.toNat then s.freq[k] + 1 else s.freq[k] := by
  rw [State.countSym_freq, Vector.getElem_set]
  by_cases hk : k = x.toNat
  · subst hk; rw [if_pos rfl, if_pos rfl]; rfl
  · rw [if_neg (Ne.symm hk), if_neg hk]

/-- Settles O23: each push is one append; the symbol PUSHS counts keeps the value of its operand. -/
theorem pushesAppend : Obligations.PushesAppend := by
  refine ⟨fun s x hx hl => ⟨(s.countSym (symbolOf x)).freq, exec_pushs_ok hx hl, fun k hk => ?_⟩, fun s b hl => exec_pushb_ok hl⟩
  rw [countSym_freq_getElem, symbolOf_toNat hx]

/-! ### Operands that are no symbol -/

/-- An operand of 128 or more names no symbol (R118). -/
theorem symbolInRange_eq_false {x : BitVec 8} (hx : 128 ≤ x.toNat) : symbolInRange x = false := by
  simpa [symbolInRange, Config.nsym] using hx

/-- The ERR_INFO of an operand is its value (R202). -/
theorem operandInfo_eq_ofNat (x : BitVec 8) : operandInfo x = BitVec.ofNat 32 x.toNat := (BitVec.ofNat_toNat 32 x).symm

/-- PUSHS checks its operand before anything else. -/
theorem exec_pushs_range (s : State) {x : BitVec 8} (hx : 128 ≤ x.toNat) :
    exec (.pushs x) s = .next (s.completeErr .symbolRange (operandInfo x)) :=
  if_pos (symbolInRange_eq_false hx)

/-- LOOKUP, with a tree and codes, checks its operand before it reads the code ROM (R155). -/
theorem exec_lookup_range {s : State} {x : BitVec 8} (ht : s.treeValid = true) (hc : s.codesValid = true) (hx : 128 ≤ x.toNat) :
    exec (.lookup x) s = .next (s.completeErr .symbolRange (operandInfo x)) := by
  show execLookup x s = _
  rw [execLookup, if_neg (by simp [ht]), if_neg (by simp [hc]), if_pos (symbolInRange_eq_false hx)]; rfl

/-- Settles O24: both commands raise SYMBOL_RANGE at the range check, and the error writes only the completion flags. -/
theorem symbolsAbove127AreRefused : Obligations.SymbolsAbove127AreRefused := by
  intro s x hx
  rw [← operandInfo_eq_ofNat]
  exact ⟨exec_pushs_range s hx, fun ht hc => exec_lookup_range ht hc hx⟩

end Sys2Proof.Machine
end

