-- ==== Sys2Proof/Proofs/TreeBuilder.lean ====
section
/-! PROOFS. BUILD and the tree it makes (spec/41_tree_builder.md R130-R141). Whatever BUILD writes is `State.afterBuild`; what that
arena holds is read off `Built`, one slot at a time. -/

namespace Sys2Proof.Machine

/-! ### How BUILD completes -/

/-- The state BUILD completes in, where TEXT is not empty (R130, R138). -/
def State.afterBuild (s : State) : State := (s.setTree (builtArena s) (builtRoot (builtArena s))).completeOk

@[simp] theorem State.afterBuild_nodes (s : State) : s.afterBuild.nodes = builtArena s := rfl
@[simp] theorem State.afterBuild_root (s : State) : s.afterBuild.root = builtRoot (builtArena s) := rfl

/-- TEXT_LEN is 0 for the empty text alone. -/
theorem textLen_eq_zero {s : State} : s.textLen = 0 ↔ s.text = [] := List.length_eq_zero_iff

/-- BUILD of a text completes. -/
theorem exec_build_text {s : State} (ht : s.text ≠ []) : exec .build s = .next s.afterBuild :=
  exec_build_ok (mt textLen_eq_zero.1 ht)

/-- Settles O26: the check of TEXT_LEN comes first, and an error writes only the completion flags. -/
theorem buildOfEmptyTextFails : Obligations.BuildOfEmptyTextFails :=
  fun _ ht => if_pos (textLen_eq_zero.2 ht)

/-! ### BUILD reads TEXT_LEN and FREQ alone -/

/-- The entries are those of FREQ. -/
theorem freqAt_congr {s s' : State} (hf : s.freq = s'.freq) : s.freqAt = s'.freqAt := by
  funext x; simp only [State.freqAt, hf]

/-- The used symbols are read from FREQ. -/
theorem usedSyms_congr {s s' : State} (hf : s.freq = s'.freq) : s.usedSyms = s'.usedSyms := by
  rw [State.usedSyms, freqAt_congr hf]; rfl

/-- The leaves are read from FREQ. -/
theorem leafArena_congr {s s' : State} (hf : s.freq = s'.freq) : leafArena s = leafArena s' := by
  rw [leafArena, usedSyms_congr hf, freqAt_congr hf]; rfl

/-- The arena is read from TEXT_LEN and FREQ (R138): the merges from the leaves, the degenerate leaf from TEXT_LEN. -/
theorem builtArena_congr {s s' : State} (hl : s.text.length = s'.text.length) (hf : s.freq = s'.freq) (hne : s.usedSyms ≠ []) :
    builtArena s = builtArena s' := by
  have hu := usedSyms_congr hf
  by_cases h2 : 2 ≤ s.usedSyms.length
  · rw [builtArena_two h2, builtArena_two (hu ▸ h2), leafArena_congr hf, hu]
  · have hpos := List.length_pos_iff.2 hne
    obtain ⟨x, hx⟩ := List.length_eq_one_iff.1 (show s.usedSyms.length = 1 by omega)
    rw [builtArena_one hx, builtArena_one (hu ▸ hx), State.textLen, State.textLen, hl]

/-- Settles O27: both completions write the arena of the first state, which `builtArena_congr` says is that of the second. -/
theorem buildDependsOnLengthAndFreq : Obligations.BuildDependsOnLengthAndFreq := by
  rintro s s' ht hl hf ⟨x, hx⟩
  have ht' : s'.text ≠ [] := by rwa [← List.length_pos_iff, ← hl, List.length_pos_iff]
  have hA := builtArena_congr hl hf (List.ne_nil_of_mem ((mem_usedSyms s x).2 hx))
  refine ⟨builtArena s, builtRoot (builtArena s), exec_build_text ht, ?_⟩
  rw [hA]; exact exec_build_text ht'

/-! ### One distinct symbol -/

/-- The one used symbol of a text is counted TEXT_LEN times (R37). -/
theorem freqAt_eq_textLen {s : State} {x : Sym} (hb : s.BuffersOk) (hu : s.usedSyms = [x]) : (s.freqAt x).toNat = s.text.length := by
  simpa [hu] using usedSyms_sum hb

/-- Settles O28: x is the one used symbol, so BUILD's arena is its one leaf. -/
theorem degenerateTreeIsOneLeaf : Obligations.DegenerateTreeIsOneLeaf := by
  intro s x ht hx honly
  have hu := usedSyms_one hx honly
  refine ⟨?_, fun hb => ?_⟩
  · rw [exec_build_text ht, State.afterBuild, builtArena_one hu]; rfl
  · rw [← freqAt_eq_textLen hb hu, BitVec.ofNat_toNat, BitVec.setWidth_eq]

/-! ### Two or more distinct symbols -/

section
variable {s : State} (h2 : 2 ≤ s.distinct)
include h2

/-- BUILD's arena of two or more distinct symbols. -/
theorem built_builtArena : Built s (builtArena s) := builtArena_two h2 ▸ built_of_two h2

/-- What slot j < k holds: the leaf of the j-th used symbol (R132). -/
theorem builtArena_leafSlot {j : Nat} {n : Node} (hj : j < s.distinct) (hn : (builtArena s)[j]? = some n) :
    s.usedSyms[j]? = some n.sym ∧ n.leaf = true ∧ n.weight = s.freqAt n.sym ∧ n.left = 0xFF ∧ n.right = 0xFF := by
  have hx := List.getElem?_eq_getElem hj
  obtain ⟨c, hc⟩ := (built_builtArena h2).leaves j _ hx
  obtain rfl := Option.some.inj (hn.symm.trans hc)
  exact ⟨hx, rfl, rfl, rfl, rfl⟩

end

/-- Settles O29: slot j holds the j-th used symbol, and the used symbols are listed ascending. -/
theorem leafSlotsAscend : Obligations.LeafSlotsAscend := by
  intro s ht h2
  refine ⟨_, exec_build_text ht, fun j hj => ?_, fun i j m n hij hj hm hn => ?_, fun x => ?_⟩
  · obtain ⟨c, hc⟩ := (built_builtArena h2).leaves j _ (List.getElem?_eq_getElem hj)
    exact ⟨_, hc, (builtArena_leafSlot h2 hj hc).2⟩
  · obtain ⟨hi', hmi⟩ := List.getElem?_eq_some_iff.1 (builtArena_leafSlot h2 (hij.trans hj) hm).1
    obtain ⟨hj', hnj⟩ := List.getElem?_eq_some_iff.1 (builtArena_leafSlot h2 hj hn).1
    rw [← hmi, ← hnj]
    exact List.pairwise_iff_getElem.1 (usedSyms_ascending s) i j hi' hj' hij
  · rw [← mem_usedSyms]
    constructor
    · intro hx
      obtain ⟨j, hj⟩ := List.mem_iff_getElem?.1 hx
      obtain ⟨c, hc⟩ := (built_builtArena h2).leaves j x hj
      exact ⟨j, _, (List.getElem?_eq_some_iff.1 hj).1, hc, rfl⟩
    · rintro ⟨j, n, hj, hn, rfl⟩
      exact List.mem_of_getElem? (builtArena_leafSlot h2 hj hn).1

/-- Settles O30: above the leaves every slot is internal, so the forest says it is merged; the counts are `Built`'s. -/
theorem buildMergesTheLeastPair : Obligations.BuildMergesTheLeastPair := by
  intro s ht h2
  have B := built_builtArena h2
  have hlen : (builtArena s).length + 1 = 2 * s.distinct := B.length
  refine ⟨_, exec_build_text ht, ?_, ?_, fun m n hm hn => ?_, fun m n hn => ?_⟩
  · rw [State.afterBuild_nodes]; omega
  · rw [State.afterBuild_root, B.root]; omega
  · exact B.forest.merged m n hn (B.internal m n hn hm)
  · rw [B.consumedIff m n hn]; omega

/-! ### The properties of the tree -/

/-- Settles O31: the built arena is a tree with the weights of R139 (`treeOk_built`). -/
theorem buildConservesWeight : Obligations.BuildConservesWeight := by
  intro s hb ht
  obtain ⟨hT, hroot, hleaf, hrange, -⟩ := treeOk_built (t := s.afterBuild) hb ht rfl rfl
  exact ⟨_, exec_build_text ht, hT, hroot, hleaf, hrange⟩

/-- Settles O32: the cost of the codes is the total weight of the internal nodes, which is what greedy merging of the frequencies
costs, and that is least by Huffman's theorem (`greedy_optimal`). -/
theorem builtTreeIsOptimal : Obligations.BuiltTreeIsOptimal := by
  intro s T hb ht hT
  obtain ⟨t, g, hbuild, hgen, hnodes, -, -, -, -, -, -, -, -, -, -, -, hdepth, hcost⟩ := build_gencode hb ht
  refine ⟨t, g, hbuild, hgen, ?_⟩
  calc (s.usedSyms.map fun x => (g.codeAt x).len.toNat * (s.freqAt x).toNat).sum
      = internalWeight (builtArena s) := by rw [← hcost, ← hdepth, hnodes]
    _ ≤ T.costAt 0 := greedy_optimal (greedy_built hb ht) T hT

/-- Settles O35: a code is a path from the root of a tree, and such a path passes each internal node at most once. -/
theorem codeLengthsAreBounded : Obligations.CodeLengthsAreBounded := by
  rintro s bs x hI ht ⟨j, hpath, -⟩
  exact (hI.treeState.tree ht).code_depth hpath

end Sys2Proof.Machine
end

