-- ==== Sys2Proof/Proofs/CodeMapper.lean ====
section
/-! PROOFS. GENCODE, LOOKUP and ENCODE (spec/42_code_mapper.md R150-R162). A command is an equation between `exec` and its named
update; a stored code is a root-to-leaf path, and what holds of the codes is said of the paths first. -/

namespace Sys2Proof.Machine

/-! ### GENCODE -/

/-- Settles O33: the generated ROM holds the path of every leaf, and the symbols with a path are those with a leaf. -/
theorem gencodeRecordsThePaths : Obligations.GencodeRecordsThePaths := by
  intro s hI ht
  have T := hI.treeState.tree ht
  obtain ⟨rom, hrom, hpath, habsent⟩ := generatedCode_spec T
  refine ⟨rom, exec_gencode_ok ht hrom, fun x bs hbs => ⟨_, Vector.getElem?_eq_getElem x.isLt, hpath bs x hbs⟩,
    codePath_iff_leaf T, fun x hx => ?_⟩
  have hno : ∀ bs, ¬ s.CodePath bs x := fun bs hbs => by
    obtain ⟨n, hn, hl, hs⟩ := (codePath_iff_leaf T x).2 ⟨bs, hbs⟩
    exact hx n hn hl hs
  rw [Vector.getElem?_eq_getElem x.isLt, habsent x hno]

/-! ### The codes as paths -/

/-- A path from a leaf, whichever its slot, goes nowhere. -/
theorem pathTo_of_leaf {s : State} {i j : Slot} {bs : List Bool} (hl : (s.nodeAt i).leaf = true) (p : s.PathTo i bs j) :
    bs = [] ∧ i = j := by
  cases bs with
  | nil => exact ⟨rfl, p⟩
  | cons b bs => exact absurd (p.1.symm.trans hl) (by decide)

/-- A code that continues another is the same symbol's: the shorter one ends at a leaf already (R154). -/
theorem codePath_prefix_sym {s : State} {as bs : List Bool} {x y : Sym} (hx : s.CodePath as x) (hy : s.CodePath bs y)
    (hpre : as <+: bs) : x = y := by
  obtain ⟨cs, rfl⟩ := hpre
  obtain ⟨i, pi, li, rfl⟩ := hx
  obtain ⟨j, pj, -, rfl⟩ := hy
  obtain ⟨k, pk, pkj⟩ := pathTo_append.1 pj
  obtain rfl := pathTo_functional pi pk
  rw [(pathTo_of_leaf li pkj).2]

/-- Under an internal root no code is empty. -/
theorem codePath_ne_nil {s : State} {bs : List Bool} {x : Sym} (hr : (s.nodeAt s.root).leaf = false) (hx : s.CodePath bs x) :
    bs ≠ [] := by
  rintro rfl
  obtain ⟨j, hj, hl, -⟩ := hx
  obtain rfl : s.root = j := hj
  exact absurd (hr.symm.trans hl) (by decide)

/-- Settles O34: present codes are paths, and of those none continues another. -/
theorem codesArePrefixFree : Obligations.CodesArePrefixFree := by
  intro s x y hI hc hpx
  obtain ⟨as, hx, hlx, hbx⟩ := codePath_of_present hI.treeState hc hpx
  refine ⟨fun hpy hne ⟨hle, hbits⟩ => hne ?_, fun hr => ?_⟩
  · obtain ⟨bs, hy, hly, hby⟩ := codePath_of_present hI.treeState hc hpy
    refine codePath_prefix_sym hx hy (List.prefix_iff_getElem.2 ⟨by omega, fun d hd => ?_⟩)
    have hd' : d < bs.length := by omega
    simpa [hbx, hby, hd, hd'] using hbits d (by omega)
  · rw [hlx]
    exact List.length_pos_iff.2 (codePath_ne_nil hr hx)

/-! ### LOOKUP and ENCODE with a tree and codes -/

section
variable {s : State} (ht : s.treeValid = true) (hc : s.codesValid = true)
include ht hc

/-- LOOKUP of a symbol below 128 reads the presence bit alone (R155). -/
theorem exec_lookup_symbol {x : BitVec 8} (hx : x.toNat < 128) :
    exec (.lookup x) s =
      if (s.codeAt (symbolOf x)).present = false then raise s .symbolAbsent (operandInfo x)
      else succeed (s.setRes (s.codeAt (symbolOf x)).len (s.codeAt (symbolOf x)).path) := by
  have hr : symbolInRange x = true := decide_eq_true hx
  show execLookup x s = _
  rw [execLookup, if_neg (by simp [ht]), if_neg (by simp [hc]), if_neg (by simp [hr])]

/-- ENCODE of fewer than two symbols (R159). -/
theorem exec_encode_short (hl : s.text.length < 2) :
    exec .encode s = .next (s.completeErr .notEncodable (countWord s.textLen)) := by
  show execEncode s = _
  rw [execEncode, if_neg (by simp [ht]), if_neg (by simp [hc]), if_pos (show s.textLen < 2 from hl)]; rfl

/-- ENCODE of a text with an absent symbol (R158). -/
theorem exec_encode_absent {i : Nat} (hl : 2 ≤ s.text.length) (hi : firstAbsent s = some i) :
    exec .encode s = .next (s.completeErr .symbolAbsent (countWord i)) := by
  show execEncode s = _
  rw [execEncode, if_neg (by simp [ht]), if_neg (by simp [hc]), if_neg (show ¬ s.textLen < 2 from Nat.not_lt.2 hl), hi]; rfl

/-- ENCODE of present symbols whose codes fit BITS (R156). -/
theorem exec_encode_ok (hl : 2 ≤ s.text.length) (hp : ∀ x ∈ s.text, (s.codeAt x).present = true)
    (hfit : encodedLength s ≤ 32768) : exec .encode s = .next (s.setBits (encodedBits s)).completeOk := by
  show execEncode s = _
  rw [execEncode, if_neg (by simp [ht]), if_neg (by simp [hc]), if_neg (show ¬ s.textLen < 2 from Nat.not_lt.2 hl),
    (firstAbsent_none s).2 hp]
  exact if_neg (Nat.not_lt.2 hfit)

end

/-- Settles O36: the entry is CODE of the symbol the operand names, and its presence bit decides. -/
theorem lookupCopiesTheCode : Obligations.LookupCopiesTheCode := by
  intro s x ht hc hx
  have hexec := exec_lookup_symbol ht hc hx
  refine ⟨s.codeAt (symbolOf x), ?_, fun hp => ?_, fun hp => ?_⟩
  · rw [← symbolOf_toNat hx]
    exact Vector.getElem?_eq_getElem (symbolOf x).isLt
  · exact hexec.trans (if_neg (by simp [hp]))
  · rw [← operandInfo_eq_ofNat]
    exact hexec.trans (if_pos hp)

/-- Settles O37: nothing stops ENCODE, and the bits it writes are spelled out from each code's path. -/
theorem encodeConcatenatesTheCodes : Obligations.EncodeConcatenatesTheCodes :=
  fun _ ht hc hl hp hfit => exec_encode_ok ht hc hl hp hfit

/-- The first position of an absent symbol is what ENCODE reports (R158). -/
theorem firstAbsent_eq_some {s : State} {i : Nat} {x : Sym} (hx : s.text[i]? = some x) (hp : (s.codeAt x).present = false)
    (hbefore : ∀ j y, j < i → s.text[j]? = some y → (s.codeAt y).present = true) : firstAbsent s = some i := by
  obtain ⟨hi, rfl⟩ := List.getElem?_eq_some_iff.1 hx
  refine List.findIdx?_eq_some_iff_getElem.2 ⟨hi, by simp [hp], fun j hj => ?_⟩
  simp [hbefore j _ hj (List.getElem?_eq_getElem (hj.trans hi))]

/-- Settles O38: the length check comes first, then the search for an absent symbol; an error writes only the completion flags. -/
theorem encodeRefusals : Obligations.EncodeRefusals :=
  fun _ ht hc => ⟨fun hl => exec_encode_short ht hc hl,
    fun _ _ hl hx hp hbefore => exec_encode_absent ht hc hl (firstAbsent_eq_some hx hp hbefore)⟩

/-! ### ENCODE with the codes of the text's own tree (R157) -/

/-- A symbol of the text is used (R37). -/
theorem mem_usedSyms_of_mem_text {s : State} (hb : s.BuffersOk) {x : Sym} (hx : x ∈ s.text) : x ∈ s.usedSyms := by
  have hcount : 0 < (s.freqAt x).toNat := by rw [hb.freqCounts x]; exact List.count_pos_iff.2 hx
  exact (mem_usedSyms s x).2 fun h0 => by simp [h0] at hcount

/-- With codes, a symbol with a leaf is present (R45). -/
theorem present_of_leaf {s : State} (hI : s.TreeStateOk) (hc : s.codesValid = true) {x : Sym}
    (hx : ∃ n ∈ s.nodes, n.leaf = true ∧ n.sym = x) : (s.codeAt x).present = true := by
  obtain ⟨bs, hbs⟩ := (codePath_iff_leaf (hI.tree (treeValid_of_codes hI hc)) x).1 hx
  exact ((hI.codes hc x).1 bs hbs).1

section
variable {s : State} (hb : s.BuffersOk) (ht : s.text ≠ [])
include hb ht

/-- In BUILD's arena each leaf weighs its symbol's count, so a sum over the leaves is a sum over the used symbols. -/
theorem builtArena_leaf_sum (f : Sym → Nat) :
    (((builtArena s).filter fun n => n.leaf).map fun n => f n.sym * n.weight.toNat).sum =
      (s.usedSyms.map fun x => f x * (s.freqAt x).toNat).sum := by
  obtain ⟨T, -, hweight, -, hused⟩ := treeOk_built (t := s.afterBuild) hb ht rfl rfl
  have hperm := (leaf_syms_perm T hused).map fun x => f x * (s.freqAt x).toNat
  rw [← hperm.sum_eq, List.map_map]
  refine congrArg List.sum (List.map_congr_left fun n hn => ?_)
  obtain ⟨hmem, hleaf⟩ := List.mem_filter.1 hn
  rw [hweight n hmem hleaf]; rfl

/-- BUILD's internal weight is at most 7 a symbol of the text. -/
theorem internalWeight_builtArena_le : internalWeight (builtArena s) ≤ 7 * s.text.length := by
  rw [← usedSyms_sum hb]
  exact greedy_seven (greedy_built hb ht) (by rw [List.length_map]; exact usedSyms_length_le s)

end

section
variable {s : State} (hI : s.Inv) (hc : s.codesValid = true)
include hI hc

/-- With codes the internal weight is the sum of code length times weight over the leaves. -/
theorem internalWeight_eq_code_sum : internalWeight s.nodes =
    ((s.nodes.filter fun n => n.leaf).map fun n => (s.codeAt n.sym).len.toNat * n.weight.toNat).sum :=
  depth_sum (hI.treeState.tree (treeValid_of_codes hI.treeState hc)) (fun x => (s.codeAt x).len.toNat)
    fun bs x hbs => ((hI.treeState.codes hc x).1 bs hbs).2.1

variable (hn : s.nodes = builtArena s) (ht : s.text ≠ [])
include hn ht

/-- The text encodes to as many bits as the internal nodes weigh (R157). -/
theorem encodedLength_eq_internalWeight : encodedLength s = internalWeight s.nodes := by
  rw [internalWeight_eq_code_sum hI hc, hn, builtArena_leaf_sum hI.buffers ht fun x => (s.codeAt x).len.toNat]
  exact text_sum hI.buffers fun x => (s.codeAt x).len.toNat

/-- Every symbol of the text has a code. -/
theorem text_present : ∀ x ∈ s.text, (s.codeAt x).present = true := by
  intro x hx
  obtain ⟨-, -, -, -, hused⟩ := treeOk_built (t := s.afterBuild) hI.buffers ht rfl rfl
  refine present_of_leaf hI.treeState hc ?_
  rw [hn]
  exact (hused x).1 (mem_usedSyms_of_mem_text hI.buffers hx)

end

/-- Settles O39: the tree is the one BUILD makes of the state's own text, so every symbol has a code, and both sums are the
encoded length. -/
theorem encodedLengthIsTheInternalWeight : Obligations.EncodedLengthIsTheInternalWeight := by
  intro b t s hb hbuild _ hI hc hnodes htext hfreq hl
  have ht : s.text ≠ [] := List.ne_nil_of_length_pos (by omega)
  have hn : s.nodes = builtArena s := by
    obtain rfl : b.afterBuild = t := by simpa [exec_build_text (htext ▸ ht)] using hbuild
    rw [hnodes, State.afterBuild_nodes]
    exact (builtArena_congr (by rw [htext]) hfreq (usedSyms_ne_nil hI.buffers ht)).symm
  have hcap : s.text.length ≤ 4096 := hI.buffers.textCap
  have hlen := encodedLength_eq_internalWeight hI hc hn ht
  have hle : internalWeight s.nodes ≤ 7 * s.text.length := hn ▸ internalWeight_builtArena_le hI.buffers ht
  have hbits : (encodedBits s).length = internalWeight s.nodes := (encodedBits_length s).trans hlen
  exact ⟨_, exec_encode_ok (treeValid_of_codes hI.treeState hc) hc hl (text_present hI hc hn ht) (by omega), rfl, hbits,
    hbits.trans (internalWeight_eq_code_sum hI hc), hbits.trans_le hle, by omega⟩

/-! ### A single-leaf tree (R161) -/

/-- Symbols of empty codes encode to no bit. -/
theorem encodedBits_eq_nil {s : State} (h : ∀ x ∈ s.text, (s.codeAt x).len = 0) : encodedBits s = [] :=
  flatMap_nil_of _ _ fun x hx => List.eq_nil_of_length_eq_zero (by rw [codeBits_length, h x hx]; rfl)

/-- On a leaf root the empty path is the one code (R161). -/
theorem codePath_leaf_root {s : State} (hr : (s.nodeAt s.root).leaf = true) {bs : List Bool} {x : Sym} :
    s.CodePath bs x ↔ bs = [] ∧ x = (s.nodeAt s.root).sym := by
  constructor
  · rintro ⟨j, hj, -, rfl⟩
    obtain ⟨rfl, rfl⟩ := path_of_leaf_root hr hj
    exact ⟨rfl, rfl⟩
  · rintro ⟨rfl, rfl⟩
    exact ⟨s.root, rfl, hr, rfl⟩

/-- DECODE on a leaf root (R174). -/
theorem exec_decode_leaf_root {s : State} (ht : s.treeValid = true) (hr : (s.nodeAt s.root).leaf = true) :
    exec .decode s = .next (s.setOut (List.replicate (symbolCount s) (s.nodeAt s.root).sym) 0).completeOk := by
  show execDecode s = _
  rw [execDecode, if_neg (by simp [ht]), if_pos hr]; rfl

/-- Settles O40: the leaf's symbol alone has a code, the empty path; copies of it encode to nothing, and DECODE makes the copies
from the root's weight. -/
theorem degenerateEncodeIsEmpty : Obligations.DegenerateEncodeIsEmpty := by
  intro s hI hc hr
  have ht := treeValid_of_codes hI.treeState hc
  obtain ⟨hpres, hlen, -⟩ := (hI.treeState.codes hc _).1 [] ((codePath_leaf_root hr).2 ⟨rfl, rfl⟩)
  have hlen0 : (s.codeAt (s.nodeAt s.root).sym).len = 0 := BitVec.eq_of_toNat_eq hlen
  refine ⟨fun y => ⟨fun hy => ?_, ?_⟩, hlen0, fun h2 hall => ?_⟩
  · obtain ⟨bs, hbs, -⟩ := codePath_of_present hI.treeState hc hy
    exact ((codePath_leaf_root hr).1 hbs).2
  · rintro rfl
    exact hpres
  · have hbits : encodedBits s = [] := encodedBits_eq_nil fun x hx => by rw [hall x hx, hlen0]
    have hfit : encodedLength s = 0 := by rw [← encodedBits_length, hbits]; rfl
    refine ⟨?_, fun hw => ?_⟩
    · rw [exec_encode_ok ht hc h2 (fun x hx => by rw [hall x hx, hpres]) (by omega), hbits]; rfl
    · have hout : s.text = List.replicate (symbolCount s) (s.nodeAt s.root).sym := List.eq_replicate_iff.2 ⟨hw, hall⟩
      refine (exec_decode_leaf_root (s := s.setBits []) ht hr).trans ?_
      show Host.Outcome.next ((s.setBits []).setOut (List.replicate (symbolCount s) (s.nodeAt s.root).sym) 0).completeOk = _
      rw [← hout]; rfl

end Sys2Proof.Machine
end

