-- ==== Sys2Proof/Proofs/Decoder.lean ====
section
/-! PROOFS. DECODE, WALK and WRST (spec/43_decoder.md R170-R179). DECODE is what `walkSymbols` answers, and that is read off the list
of whole root-to-leaf walks BITS begins with; the walks behind an encoded text are its symbols' codes. -/

namespace Sys2Proof.Machine

/-! ### WRST and WALK -/

/-- WRST with a tree (R177). -/
theorem exec_wrst_ok {s : State} (ht : s.treeValid = true) : exec .wrst s = .next (s.setWalk s.root false false 0).completeOk :=
  if_neg (by simp [ht])

/-- Settles O45: the presence of a tree is WRST's one check. -/
theorem wrstReturnsToTheRoot : Obligations.WrstReturnsToTheRoot := fun _ ht => exec_wrst_ok ht

section
variable {s : State} (ht : s.treeValid = true)
include ht

/-- WALK on a leaf root reports its symbol and uses no bit (R176). -/
theorem exec_walk_leaf_root (b : Bool) (hr : (s.nodeAt s.root).leaf = true) :
    exec (.walk b) s = .next (s.setWalk s.root true false (s.nodeAt s.root).sym).completeOk := by
  show execWalk b s = _
  rw [execWalk, if_neg (by simp [ht]), if_pos hr]; rfl

/-- WALK under an internal root goes to the child the bit selects; at a leaf it reports and returns to ROOT (R176). -/
theorem exec_walk_child (b : Bool) (hr : (s.nodeAt s.root).leaf = false) :
    exec (.walk b) s =
      if (s.nodeAt (s.child s.walkCur b)).leaf = true
      then .next (s.setWalk s.root true true (s.nodeAt (s.child s.walkCur b)).sym).completeOk
      else .next (s.setWalk (s.child s.walkCur b) false true 0).completeOk := by
  show execWalk b s = _
  rw [execWalk, if_neg (by simp [ht]), if_neg (by simp [hr])]; rfl

end

/-- Settles O44: the next slot is the child of WALK_CUR, and whether it is a leaf decides between the report and the stay. -/
theorem walkTakesOneStep : Obligations.WalkTakesOneStep := by
  rintro s b _ ht rfl
  exact ⟨exec_walk_leaf_root ht b, fun hr hl => (exec_walk_child ht b hr).trans (if_pos hl),
    fun hr hl => (exec_walk_child ht b hr).trans (if_neg (Bool.eq_false_iff.1 hl))⟩

/-! ### DECODE -/

/-- Settles O42: on a leaf root DECODE does not look at BITS. -/
theorem degenerateDecodeReadsNoBits : Obligations.DegenerateDecodeReadsNoBits := fun _ ht hr => exec_decode_leaf_root ht hr

/-- DECODE that runs out of bits (R175). -/
theorem exec_decode_underrun {s : State} {m : Nat} (ht : s.treeValid = true) (hr : (s.nodeAt s.root).leaf = false)
    (h : walkSymbols s (symbolCount s) s.bits = .error m) : exec .decode s = .next (s.completeErr .bitsUnderrun (countWord m)) := by
  show execDecode s = _
  rw [execDecode, if_neg (by simp [ht]), if_neg (by simp [hr]), h]; rfl

/-- A path that stops at an internal node starts at one. -/
theorem internal_of_pathTo {s : State} {i j : Slot} {bs : List Bool} (p : s.PathTo i bs j) (hj : (s.nodeAt j).leaf = false) :
    (s.nodeAt i).leaf = false := by
  refine Bool.eq_false_iff.2 fun hi => ?_
  obtain ⟨-, rfl⟩ := pathTo_of_leaf hi p
  exact absurd (hi.symm.trans hj) (by decide)

/-- Settles O41: BITS begins with as many whole walks as the root weighs, and BIT_POS is BIT_LEN less the bits left over. -/
theorem decodeWalksTheTree : Obligations.DecodeWalksTheTree := by
  intro s walks rest ht hr hlen hw hbits
  have hok : walkSymbols s (symbolCount s) s.bits = .ok (walks.map fun w => (s.nodeAt w.2).sym, rest) := by
    rw [hbits, symbolCount, ← hlen]; exact walkSymbols_paths walks rest hw
  have hpos : s.bitLen - rest.length = (walks.flatMap fun w => w.1).length := by
    rw [State.bitLen, hbits, List.length_append, Nat.add_sub_cancel]
  rw [exec_decode_ok ht hr hok, hpos]; rfl

/-- Settles O43: the cut walk stops at an internal node, so the root is internal and DECODE walks. -/
theorem decodeUnderrunCountsWholeSymbols : Obligations.DecodeUnderrunCountsWholeSymbols := by
  intro s walks part j ht hlt hw p hj hbits
  exact exec_decode_underrun ht (internal_of_pathTo p hj) (hbits ▸ walkSymbols_under walks part j _ hw hlt p hj)

/-! ### WALK after DECODE (R179) -/

/-- A DECODE that succeeded under an internal root walked whole paths at the front of BITS (R172, R173). -/
theorem decode_walks_of_ok {s t : State} (hr : (s.nodeAt s.root).leaf = false) (h : exec .decode s = .next t) (he : t.err = false) :
    s.treeValid = true ∧ ∃ (walks : List (List Bool × Slot)) (rest : List Bool), walks.length = symbolCount s ∧
      (∀ w ∈ walks, s.PathTo s.root w.1 w.2 ∧ (s.nodeAt w.2).leaf = true) ∧ s.bits = (walks.flatMap fun w => w.1) ++ rest ∧
      t = (s.setOut (walks.map fun w => (s.nodeAt w.2).sym) (walks.flatMap fun w => w.1).length).completeOk := by
  rcases execDecode_cases h with ⟨-, rfl⟩ | ⟨-, hl, -⟩ | ⟨-, -, _, -, rfl⟩ | ⟨ht, -, o, rest, hok, rfl⟩
  · cases he
  · exact absurd (hr.symm.trans hl) (by decide)
  · cases he
  · obtain ⟨walks, hlen, hw, hbits, rfl⟩ := walkSymbols_ok hok
    refine ⟨ht, walks, rest, hlen, hw, hbits, ?_⟩
    rw [State.bitLen, hbits, List.length_append, Nat.add_sub_cancel]

/-- With a tree DECODE emits at least one symbol (R139 d). -/
theorem symbolCount_pos {s : State} (T : s.TreeOk) : 0 < symbolCount s :=
  (T.weightRange _ (List.mem_of_getElem? (T.get s.root T.root_lt))).1

/-- BIT_POS holds every count of bits BITS can have. -/
theorem setOut_bitPos_toNat {s : State} {o : List Sym} {p : Nat} (hp : p ≤ 32768) : (s.setOut o p).bitPos.toNat = p := by
  rw [State.setOut_bitPos, BitVec.toNat_ofNat]; omega

/-- Settles O46: the consumed bits are DECODE's walks, at least one, and WALK over walks from the root hits their leaves. -/
theorem walkAgreesWithDecode : Obligations.WalkAgreesWithDecode := by
  intro s t hI hr hdec he
  obtain ⟨ht, walks, rest, hlen, hw, hbits, hend⟩ := decode_walks_of_ok hr hdec he
  have hne : walks ≠ [] := by
    have := symbolCount_pos (hI.treeState.tree ht)
    exact List.ne_nil_of_length_pos (by omega)
  have hcap : (walks.flatMap fun w => w.1).length ≤ 32768 := by
    have hb : s.bits.length ≤ 32768 := hI.buffers.bitCap
    rw [hbits, List.length_append] at hb; omega
  obtain ⟨hnodes, hroot, htree, hdraws, hout⟩ : t.nodes = s.nodes ∧ t.root = s.root ∧ t.treeValid = true ∧ t.draws = s.draws ∧
      t.out = walks.map fun w => (s.nodeAt w.2).sym := by rw [hend]; exact ⟨rfl, rfl, ht, rfl, rfl⟩
  have hread : t.bits.take t.bitPos.toNat = walks.flatMap fun w => w.1 := by
    rw [hend, State.completeOk_bitPos, setOut_bitPos_toNat hcap, State.completeOk_bits, State.setOut_bits, hbits, List.take_left]
  obtain ⟨u, hrun, hhit, hcur⟩ := walkRun_paths ht hr walks hw hne (t.setWalk t.root false false 0).completeOk
    ⟨hnodes, hroot, htree, hdraws, hroot⟩
  exact ⟨_, u, exec_wrst_ok htree, by rw [hread, hout]; exact hrun, hhit, hcur.trans hroot.symm⟩

/-! ### DECODE after ENCODE -/

/-- The tree's walks over the encoded text give the text back and use every bit (R171, R173). -/
theorem walkSymbols_encodedBits {s : State} (hI : s.TreeStateOk) (hc : s.codesValid = true)
    (hp : ∀ x ∈ s.text, (s.codeAt x).present = true) : walkSymbols s s.text.length (encodedBits s) = .ok (s.text, []) := by
  obtain ⟨walks, hlen, hw, hbits, htext⟩ := encoded_walks hI hc s.text hp
  have hok := walkSymbols_paths walks [] hw
  rwa [List.append_nil, hlen, ← hbits, ← htext] at hok

/-- Walks that use every bit make DECODE's output, and BIT_POS reaches BIT_LEN. -/
theorem decode_of_no_bit_over {s : State} {o : List Sym} (ht : s.treeValid = true) (hr : (s.nodeAt s.root).leaf = false)
    (h : walkSymbols s (symbolCount s) s.bits = .ok (o, [])) (hcap : s.bits.length ≤ 32768) :
    ∃ d, exec .decode s = .next d ∧ d.err = false ∧ d.out = o ∧ d.bitPos.toNat = d.bits.length :=
  ⟨_, exec_decode_ok ht hr h, rfl, rfl, setOut_bitPos_toNat (s := s) (o := o) hcap⟩

/-- Under a leaf root a present symbol is the leaf's, and its code is empty (R161). -/
theorem present_leaf_root {s : State} (hI : s.TreeStateOk) (hc : s.codesValid = true) (hr : (s.nodeAt s.root).leaf = true) {x : Sym}
    (hp : (s.codeAt x).present = true) : x = (s.nodeAt s.root).sym ∧ (s.codeAt x).len = 0 := by
  obtain ⟨bs, hbs, hlen, -⟩ := codePath_of_present hI hc hp
  obtain ⟨rfl, hx⟩ := (codePath_leaf_root hr).1 hbs
  exact ⟨hx, BitVec.eq_of_toNat_eq hlen⟩

/-- What a successful ENCODE checked and wrote (R156, R162). -/
theorem encode_of_ok {s e : State} (h : exec .encode s = .next e) (he : e.err = false) :
    s.codesValid = true ∧ (∀ x ∈ s.text, (s.codeAt x).present = true) ∧ encodedLength s ≤ 32768 ∧
      e = (s.setBits (encodedBits s)).completeOk := by
  rcases execEncode_cases h with ⟨-, rfl⟩ | ⟨-, -, rfl⟩ | ⟨-, -, -, rfl⟩ | ⟨-, -, -, _, -, rfl⟩ | ⟨-, -, -, -, -, rfl⟩ |
    ⟨-, hc, -, hp, hfit, rfl⟩
  case inr.inr.inr.inr.inr => exact ⟨hc, (firstAbsent_none s).1 hp, hfit, rfl⟩
  all_goals cases he

/-- Settles O48, by the shape of the root: under a leaf the text is copies of the leaf's symbol and there is no bit; under an internal
node the walks give the text back. -/
theorem decodeUndoesEncode : Obligations.DecodeUndoesEncode := by
  intro s e hI ht hcount henc he
  obtain ⟨hc, hp, hfit, rfl⟩ := encode_of_ok henc he
  cases hr : (s.nodeAt s.root).leaf with
  | true =>
    have hroot := fun x hx => present_leaf_root hI.treeState hc hr (hp x hx)
    have htext : s.text = List.replicate (symbolCount s) (s.nodeAt s.root).sym :=
      List.eq_replicate_iff.2 ⟨hcount, fun x hx => (hroot x hx).1⟩
    have hbits : encodedBits s = [] := encodedBits_eq_nil fun x hx => (hroot x hx).2
    refine ⟨_, exec_decode_leaf_root (s := (s.setBits (encodedBits s)).completeOk) ht hr, rfl, htext.symm, ?_⟩
    show 0 = (encodedBits s).length
    rw [hbits]; rfl
  | false =>
    have hok : walkSymbols (s.setBits (encodedBits s)).completeOk (symbolCount s) (encodedBits s) = .ok (s.text, []) := by
      rw [walkSymbols_congr (s := s) (t := (s.setBits (encodedBits s)).completeOk) (fun _ => rfl) rfl, symbolCount, ← hcount]
      exact walkSymbols_encodedBits hI.treeState hc hp
    exact decode_of_no_bit_over (s := (s.setBits (encodedBits s)).completeOk) ht hr hok ((encodedBits_length s).trans_le hfit)

/-! ### The round trip (R178) -/

/-- CLEAR's completion meets the invariant, whatever it starts from: the buffers are empty and there is no tree. -/
theorem exec_clear_inv {s c : State} (h : exec .clear s = .next c) : c.Inv := by
  obtain rfl := succeed_next.1 h
  exact ⟨statusOk_completeOk, buffersOk_congr (buffersOk_reset [] 0) rfl rfl rfl rfl,
    treeState_noTree rfl rfl rfl rfl rfl rfl rfl rfl (memory_congr memory_wf_reset rfl rfl rfl rfl rfl rfl)⟩

/-- GENCODE of a tree raises no error (R150). -/
theorem exec_gencode_err {s t : State} (ht : s.treeValid = true) (h : exec .gencode s = .next t) : t.err = false := by
  rcases execGencode_cases h with ⟨hf, -⟩ | ⟨-, rom, -, rfl⟩
  · exact absurd (ht.symm.trans hf) (by decide)
  · rfl

/-- BUILD, GENCODE, ENCODE and DECODE restore a text of two symbols or more. -/
theorem runOk_roundTrip {s : State} (hI : s.Inv) (hl : 2 ≤ s.text.length) :
    ∃ d, runOk [.build, .gencode, .encode, .decode] s = some d ∧ d.out = s.text ∧ d.bitPos.toNat = d.bits.length := by
  have hne : s.text ≠ [] := List.ne_nil_of_length_pos (by omega)
  obtain ⟨t, g, e, hbuild, hgen, henc, he, -, -, -, htext, -, htg, hroot⟩ := encode_after hI.buffers hl
  obtain rfl : s.afterBuild = t := by simpa [exec_build_text hne] using hbuild
  have hgerr := exec_gencode_err (s := s.afterBuild) rfl hgen
  have heerr : e.err = false := by rw [he]; rfl
  have hIg : g.Inv := exec_keeps_inv (exec_keeps_inv hI hbuild) hgen
  obtain ⟨d, hdec, hderr, hout, hpos⟩ := decodeUndoesEncode g e hIg htg (by rw [htext, hroot]) henc heerr
  refine ⟨d, ?_, hout.trans htext, hpos⟩
  rw [runOk_cons hbuild rfl, runOk_cons hgen hgerr, runOk_cons henc heerr, runOk_cons hdec hderr]; rfl

/-- Settles O47: after CLEAR the invariant holds and TEXT is empty, PUSHS of each symbol makes TEXT the text, and from there the four
commands restore it. -/
theorem roundTripRestoresTheText : Obligations.RoundTripRestoresTheText := by
  intro s t h2 hcap
  have hclear := exec_clear_ok s
  obtain ⟨hS, hB, hT⟩ := exec_clear_inv hclear
  obtain ⟨u, hpush, htext, hBu, hTu, hSu⟩ := runOk_pushes t hB hT hS (by simpa using hcap)
  obtain rfl : u.text = t := htext
  obtain ⟨d, hrun, hout, hpos⟩ := runOk_roundTrip ⟨hSu, hBu, hTu⟩ h2
  exact ⟨d, by rw [runOk_cons hclear rfl, runOk_append hpush, hrun], hout, hpos⟩

end Sys2Proof.Machine
end

