-- ==== Sys2Proof/Proofs/Exceptions.lean ====
section
/-! PROOFS. How commands end (spec/60_exceptions.md R201-R210): acceptance, the engine's turn, what an error leaves unchanged, which
errors each command raises and in which order its checks come, and that nothing stops the machine. -/

namespace Sys2Proof.Machine

/-! ### Acceptance and the engine's turn (R203, R204) -/

/-- With nothing on the agenda a step is the engine's turn (log 3). -/
theorem step_of_agenda_nil {s : State} (ha : s.agenda = []) : step s = engineTurn s := by rw [step, nextEvent, ha]

/-- The engine's turn while BUSY = 0 changes nothing (R204). -/
theorem engineTurn_of_idle {s : State} (hb : s.busy = false) : engineTurn s = .next s := if_neg (by simp [hb])

/-- The engine's step runs the command LAST_CMD decodes to (R204). -/
theorem engineStep_decoded {s : State} {i : Instr} (hd : decode s.lastCmd = .ok i) : engineStep s = exec i s := by
  rw [engineStep, hd]

/-- The engine's turn while BUSY = 1 runs the command LAST_CMD decodes to (R204). -/
theorem engineTurn_decoded {s : State} {i : Instr} (hb : s.busy = true) (hd : decode s.lastCmd = .ok i) :
    engineTurn s = exec i s :=
  (engineTurn_busy hb).trans (engineStep_decoded hd)

/-- Settles O5: both are the engine's turn, with the agenda as it is or less its first event. -/
theorem stepRunsTheDecodedCommand : Obligations.StepRunsTheDecodedCommand := fun s _ hb hd =>
  ⟨fun ha => (step_of_agenda_nil ha).trans (engineTurn_decoded hb hd),
    fun rest ha => (step_of_agenda ha).trans (engineTurn_decoded (s := { s with agenda := rest }) hb hd)⟩

/-- Settles O6: both are the engine's turn of an idle machine. -/
theorem engineIsIdleUnlessBusy : Obligations.EngineIsIdleUnlessBusy := fun s hb =>
  ⟨fun ha => (step_of_agenda_nil ha).trans (engineTurn_of_idle hb),
    fun rest ha => (step_of_agenda ha).trans (engineTurn_of_idle (s := { s with agenda := rest }) hb)⟩

/-- Settles O7: the write reaches CMD, and BUSY decides between acceptance and overrun; v is not looked at. -/
theorem commandWriteIsAcceptedOrDropped : Obligations.CommandWriteIsAcceptedOrDropped := by
  intro s v rest ha
  rw [step_of_agenda ha, perform, hostWrite_cmd, writeLoc]
  refine ⟨fun hb => ?_, fun hb => ?_⟩
  · rw [if_neg (by simp [hb])]; rfl
  · rw [if_pos hb]; rfl

/-! ### Completion (R205, R206) -/

/-- Where a command ends in an error or a success, an ERR of 1 says that it was the error, which writes five fields. -/
theorem eq_of_err {s t : State} (h : (∃ c info, c ≠ .none ∧ t = s.completeErr c info) ∨ ∃ u : State, t = u.completeOk)
    (he : t.err = true) :
    t = { s with busy := false, done := true, err := true, errCode := t.errCode, errInfo := t.errInfo } := by
  rcases h with ⟨c, info, -, rfl⟩ | ⟨u, rfl⟩
  · rfl
  · cases he

/-- Settles O49: a command and an engine step end in the same two ways. -/
theorem errorsChangeNothingElse : Obligations.ErrorsChangeNothingElse :=
  ⟨fun _ _ _ h => eq_of_err (exec_cases h), fun _ _ h => eq_of_err (engineStep_end h)⟩

/-- Settles O50: by the two ways an engine step ends. -/
theorem completionSetsTheFlags : Obligations.CompletionSetsTheFlags := by
  intro s t h
  rcases engineStep_end h with ⟨c, info, hc, rfl⟩ | ⟨u, rfl⟩
  · exact ⟨rfl, rfl, nofun, fun _ => hc⟩
  · exact ⟨rfl, rfl, fun _ => ⟨rfl, rfl⟩, nofun⟩

/-! ### The errors of each command (R210) -/

/-- Settles O52: command by command, along the ways each can end; every ending names its ERRCODE. -/
theorem eachCommandRaisesItsErrors : Obligations.EachCommandRaisesItsErrors := by
  intro i s t h
  cases i with
  | nop => obtain rfl := succeed_next.1 h; simp
  | clear => obtain rfl := succeed_next.1 h; simp
  | clrtxt => obtain rfl := succeed_next.1 h; simp
  | clrbits => obtain rfl := succeed_next.1 h; simp
  | pushs x => rcases execPushs_cases h with ⟨-, rfl⟩ | ⟨-, -, rfl⟩ | ⟨-, -, rfl⟩ <;> simp
  | pushb b => rcases execPushb_cases h with ⟨-, rfl⟩ | ⟨-, rfl⟩ <;> simp
  | build => rcases execBuild_cases h with ⟨-, rfl⟩ | ⟨-, rfl⟩ <;> simp
  | gencode => rcases execGencode_cases h with ⟨-, rfl⟩ | ⟨-, rom, -, rfl⟩ <;> simp
  | lookup x =>
    rcases execLookup_cases h with ⟨-, rfl⟩ | ⟨-, -, rfl⟩ | ⟨-, -, -, rfl⟩ | ⟨-, -, -, -, rfl⟩ | ⟨-, -, -, -, rfl⟩ <;> simp
  | encode =>
    rcases execEncode_cases h with ⟨-, rfl⟩ | ⟨-, -, rfl⟩ | ⟨-, -, -, rfl⟩ | ⟨-, -, -, i, -, rfl⟩ | ⟨-, -, -, -, -, rfl⟩ |
      ⟨-, -, -, -, -, rfl⟩ <;> simp
  | decode =>
    rcases execDecode_cases h with ⟨-, rfl⟩ | ⟨-, -, rfl⟩ | ⟨-, -, m, -, rfl⟩ | ⟨-, -, o, rest, -, rfl⟩ <;> simp
  | walk b => rcases execWalk_cases h with ⟨-, rfl⟩ | ⟨-, -, rfl⟩ | ⟨-, -, -, rfl⟩ | ⟨-, -, -, rfl⟩ <;> simp
  | wrst => rcases execWrst_cases h with ⟨-, rfl⟩ | ⟨-, rfl⟩ <;> simp

/-! ### Full buffers (R114, R115, R160) -/

/-- PUSHS of a symbol into a full TEXT (R114). -/
theorem exec_pushs_full {s : State} {x : BitVec 8} (hx : x.toNat < 128) (hl : s.text.length = 4096) :
    exec (.pushs x) s = .next (s.completeErr .textFull 0x1000) := by
  have hr : symbolInRange x = true := decide_eq_true hx
  have hlen : s.textLen = 4096 := hl
  show execPushs x s = _
  rw [execPushs, if_neg (by simp [hr]), hlen]; rfl

/-- PUSHB into full BITS (R115). -/
theorem exec_pushb_full {s : State} (b : Bool) (hl : s.bits.length = 32768) :
    exec (.pushb b) s = .next (s.completeErr .bitsFull 0x8000) := by
  have hlen : s.bitLen = 32768 := hl
  show execPushb b s = _
  rw [execPushb, hlen]; rfl

/-- ENCODE of present symbols whose codes do not fit BITS (R160). -/
theorem exec_encode_overflow {s : State} (ht : s.treeValid = true) (hc : s.codesValid = true) (hl : 2 ≤ s.text.length)
    (hp : ∀ x ∈ s.text, (s.codeAt x).present = true) (hover : 32768 < encodedLength s) :
    exec .encode s = .next (s.completeErr .bitsFull (countWord (encodedLength s))) := by
  show execEncode s = _
  rw [execEncode, if_neg (by simp [ht]), if_neg (by simp [hc]), if_neg (show ¬ s.textLen < 2 from Nat.not_lt.2 hl),
    (firstAbsent_none s).2 hp]
  exact if_pos hover

/-- Settles O25: the count each error reports is the one that was full, or the length ENCODE needs. -/
theorem capacityErrors : Obligations.CapacityErrors := by
  refine fun s => ⟨fun x hx hl => exec_pushs_full hx hl, fun b hl => exec_pushb_full b hl, ?_⟩
  rintro _ ht hc hl hp rfl hover
  exact exec_encode_overflow ht hc hl hp hover

/-! ### The order of the checks (R209) -/

/-- The commands that need a tree check for it before anything else. -/
theorem exec_noTree {s : State} (ht : s.treeValid = false) {i : Instr}
    (hi : i = .gencode ∨ (∃ x, i = .lookup x) ∨ i = .encode ∨ i = .decode ∨ (∃ b, i = .walk b) ∨ i = .wrst) :
    exec i s = .next (s.completeErr .noTree 0) := by
  rcases hi with rfl | ⟨x, rfl⟩ | rfl | rfl | ⟨b, rfl⟩ | rfl <;> exact if_pos ht

/-- The commands that need codes check for them right after the tree. -/
theorem exec_noCodes {s : State} (ht : s.treeValid = true) (hc : s.codesValid = false) {i : Instr}
    (hi : (∃ x, i = .lookup x) ∨ i = .encode) : exec i s = .next (s.completeErr .noCodes 0) := by
  have htree : ¬ s.treeValid = false := by simp [ht]
  rcases hi with ⟨x, rfl⟩ | rfl <;> exact (if_neg htree).trans (if_pos hc)

/-- Settles O53: each clause is the equation of the command at its earlier check. -/
theorem earlierChecksWin : Obligations.EarlierChecksWin := by
  intro s
  refine ⟨engineStep_illegal, fun ht _ hi => exec_noTree ht hi, fun ht hc _ hi => exec_noCodes ht hc hi, fun x hx _ => ?_,
    fun ht hc => exec_encode_short ht hc,
    fun i x ht hc hl hx hp hbefore => exec_encode_absent ht hc hl (firstAbsent_eq_some hx hp hbefore)⟩
  rw [← operandInfo_eq_ofNat]
  exact exec_pushs_range s hx

/-! ### No stop (R204) -/

/-- In a good state the engine's step answers a next state, whatever word it decodes. -/
theorem engineStep_total {s : State} (I : s.TreeStateOk) : ∃ t, engineStep s = .next t := by
  cases hd : decode s.lastCmd with
  | ok i => rw [engineStep_decoded hd]; exact exec_total I i
  | error e => exact ⟨_, engineStep_illegal ((decode_error_iff _).1 ⟨e, hd⟩)⟩

/-- In a good state the engine's turn answers a next state. -/
theorem engineTurn_total {s : State} (I : s.TreeStateOk) : ∃ t, engineTurn s = .next t := by
  cases hb : s.busy with
  | false => exact ⟨s, engineTurn_of_idle hb⟩
  | true => rw [engineTurn_busy hb]; exact engineStep_total I

/-- In a good state every event of the total order answers a next state: only the engine's turn could stop. -/
theorem perform_total {s : State} (I : s.TreeStateOk) (e : Event) : ∃ t, perform e s = .next t := by
  cases e with
  | hostRead a size => exact ⟨_, rfl⟩
  | hostWrite a size strobes v => exact ⟨_, rfl⟩
  | engineTurn => exact engineTurn_total I
  | reset => exact ⟨_, rfl⟩

/-- In a good state a step answers a next state: taking an event off the agenda keeps the state good. -/
theorem step_total {s : State} (I : s.TreeStateOk) : ∃ t, step s = .next t := by
  cases ha : s.agenda with
  | nil => rw [step_of_agenda_nil ha]; exact engineTurn_total I
  | cons e rest => rw [step_of_agenda ha]; exact perform_total (treeStateOk_flags I ..) e

/-- Settles O57: the tree part of the invariant is enough, since only GENCODE of an arena that is no tree would stop. -/
theorem nothingStopsTheMachine : Obligations.NothingStopsTheMachine := fun _ I =>
  ⟨exec_total I.treeState, step_total I.treeState⟩

end Sys2Proof.Machine
end
